-- ==== Sys2Proof/Word.lean ====
section
/-! DEFINITION. The two element types of the core's sequences (R3, R4). Every count, width, index and cursor of
the spec is an unbounded natural (00_scope.md §4, R41), so it is a Nat and not a word. -/

namespace Sys2Proof

/-- A byte of the compressed stream: 8 bits (R4). -/
abbrev Byte := BitVec 8

/-- A code unit: an opaque 16-bit symbol, any of its 65536 values (R3). -/
abbrev CodeUnit := BitVec 16

end Sys2Proof
end

