-- ==== Sys2Proof/Config.lean ====
section
/-! DEFINITION. What an implementation fixes: the capacity parameters of 00_scope.md §3 (R7, decision D5) and the
fixed parameters of its first table. -/

namespace Sys2Proof

/-- The seven open capacity parameters of 00_scope.md §3. `none` is ∞, under which the core is exactly the
source's (R7). The value in force stands in State's field `bounds`, which no rule writes (log 2). -/
structure Bounds where
  maxInUnits   : Option Nat
  maxInBytes   : Option Nat
  maxOutBytes  : Option Nat
  maxOutUnits  : Option Nat
  maxEntries   : Option Nat
  maxEntryLen  : Option Nat
  maxIndexBits : Option Nat
  deriving DecidableEq, Repr

namespace Bounds

/-- Every bound ∞: the default of D5. -/
def unbounded : Bounds := ⟨none, none, none, none, none, none, none⟩

/-- `m ≤ b`, for a bound `b` in ℕ ∪ {∞}. -/
def allows (b : Option Nat) (m : Nat) : Bool :=
  match b with
  | none => true
  | some k => decide (m ≤ k)

/-- What D5 asks of a platform: `MAX_ENTRIES ≥ 3` and `MAX_INDEX_BITS ≥ 3`. -/
def legal (b : Bounds) : Bool :=
  (match b.maxEntries with | none => true | some k => decide (3 ≤ k)) &&
  (match b.maxIndexBits with | none => true | some k => decide (3 ≤ k))

end Bounds

/-- The value below which a code unit is sent as a LIT8: `LIT8_LIMIT` of 00_scope.md §3. -/
def lit8Limit : Nat := 256

/-- The width of a LIT8 operand: `LIT8_BITS`. -/
def lit8Bits : Nat := 8

/-- The width of a LIT16 operand: `LIT16_BITS`. -/
def lit16Bits : Nat := 16

/-- The number of control codes, also the encoder's and (after the bootstrap) the decoder's initial `count`. -/
def controlCodes : Nat := 3

/-- The control codes: 0 is LIT8, 1 is LIT16, 2 is EOS (R93). -/
def codeLit8 : Nat := 0
def codeLit16 : Nat := 1
def codeEos : Nat := 2

end Sys2Proof
end

