-- ==== Sys2Proof/Syntax.lean ====
section
/-! DEFINITION. The instructions: the five tokens of the compressed stream and the two jobs of the host interface
(30_encoding.md R91, R105, R106; spec/opcode_table.json), and the job descriptor a SUBMIT hands over. -/

namespace Sys2Proof

/-- One constructor per row of the opcode table (R105, R106). -/
inductive Instr where
  /-- LIT8: CODE 0, then the 8-bit value `v` (R94). -/
  | lit8 (v : Byte)
  /-- LIT16: CODE 1, then the 16-bit value `v` (R95). -/
  | lit16 (v : CodeUnit)
  /-- EOS: CODE 2 (R96). -/
  | eos
  /-- IDX: the CODE field itself is the index `n` (R97). -/
  | idx (n : Nat)
  /-- CODE 3 as the first token of a stream (R101). -/
  | illegalFirst
  /-- The ENCODE job: SUBMIT with `dir = 0` (R190). -/
  | encode (input : List CodeUnit)
  /-- The DECODE job: SUBMIT with `dir = 1` (R230). -/
  | decode (input : List Byte)
  deriving DecidableEq, Repr

/-- The input sequence of a job descriptor (R106). -/
inductive Input where
  | units (u : List CodeUnit)
  | bytes (b : List Byte)
  deriving DecidableEq, Repr

/-- A job descriptor: the bit `dir` and the input sequence (R106). -/
structure Descriptor where
  dir   : BitVec 1
  input : Input
  deriving DecidableEq, Repr

/-- A token: what the stream is made of, the jobs left out (R90, R105). -/
def Instr.isToken : Instr → Bool
  | .lit8 _ => true
  | .lit16 _ => true
  | .eos => true
  | .idx _ => true
  | .illegalFirst => true
  | .encode _ => false
  | .decode _ => false

end Sys2Proof
end

