-- ==== Sys2Proof/WellFormed.lean ====
section
/-! DEFINITION. When an instruction has an encoding: the checks of 30_encoding.md R91, R97, R98, R100 and R101 on a
token at a place of the stream. Operands whose width the type fixes (V8, V16, the elements of an input) need none. -/

namespace Sys2Proof

/-- Where in a stream a token stands: whether it is the first, and the width W in force (R91, R98). -/
structure Place where
  first : Bool
  width : Nat
  deriving DecidableEq, Repr

/-- Why an instruction has no encoding at a place. -/
inductive IllFormed where
  /-- A CODE field is at least 2 bits wide (R66). -/
  | widthBelowTwo
  /-- The first token is read and written at W = 2 (R98). -/
  | firstNotAtTwo
  /-- 0, 1 and 2 are control codes, never indices (R93, R97). -/
  | indexReserved
  /-- An index does not fit the CODE field (R97). -/
  | indexTooWide
  /-- An index is never the first token (R98, R105). -/
  | indexFirst
  /-- ILLEGAL_FIRST is the first token, at W = 2, and nothing else (R101). -/
  | notFirst
  deriving DecidableEq, Repr

/-- The first check on the place alone that fails, or none (R66, R98). -/
def Place.check (p : Place) : Option IllFormed :=
  if p.width < 2 then some .widthBelowTwo
  else if p.first && p.width != 2 then some .firstNotAtTwo
  else none

/-- The first check that fails, or none. A job has no place in a stream and passes. -/
def Instr.check (p : Place) : Instr → Option IllFormed
  | .lit8 _ => p.check
  | .lit16 _ => p.check
  | .eos => p.check
  | .idx n =>
    if p.width < 2 then some .widthBelowTwo
    else if p.first then some .indexFirst
    else if n < 3 then some .indexReserved
    else if 2 ^ p.width ≤ n then some .indexTooWide
    else none
  | .illegalFirst => if p.first && p.width == 2 then none else some .notFirst
  | .encode _ => none
  | .decode _ => none

/-- The instruction has an encoding at the place. -/
def Instr.wf (p : Place) (i : Instr) : Bool := (i.check p).isNone

end Sys2Proof
end

