-- ==== Sys2Proof/Decode.lean ====
section
/-! DEFINITION. Bits, bytes and fields (00_scope.md §4, 20_memory.md §2), BitSource as a function of its buffer and
cursor (41_bitsource.md), the decoder of tokens and job descriptors (30_encoding.md, 44_decoder.md R231 and R236),
the encoder written from the same tables, and the numbering of the opcode table's words (log 8). -/

namespace Sys2Proof

/-! ### Bit strings in wire order -/

/-- The low `n` bits of `v`: `low_n(v) = v mod 2^n`. -/
def lowBits (n v : Nat) : Nat := v % 2 ^ n

/-- `rev_n(v) = Σ v[i] · 2^(n-1-i)`: the low `n` bits of `v` in the opposite order (R8). -/
def revBits : Nat → Nat → Nat
  | 0, _ => 0
  | n + 1, v => (v.testBit 0).toNat * 2 ^ n + revBits n (v / 2)

/-- The low `n` bits of `v`, most significant first: what a natural write appends (R120). -/
def msbFirst : Nat → Nat → List Bool
  | 0, _ => []
  | n + 1, v => v.testBit n :: msbFirst n v

/-- The low `n` bits of `v`, least significant first: a field in wire order (R62). -/
def lsbFirst : Nat → Nat → List Bool
  | 0, _ => []
  | n + 1, v => v.testBit 0 :: lsbFirst n (v / 2)

/-- Bit `k` of a bit string, 0 past its end: `bitAt` of R125. -/
def bitAt (bits : List Bool) (k : Nat) : Bool := bits.getD k false

/-- Byte `j` of the packed string: `Σ_{i<8} bitAt(8j+i) · 2^(7-i)` (R61, R125). -/
def packByte (bits : List Bool) (j : Nat) : Byte :=
  BitVec.ofNat 8 ((List.range 8).foldl (fun acc i => 2 * acc + (bitAt bits (8 * j + i)).toNat) 0)

/-- `pack(obits)`: `⌈L/8⌉` bytes, zero bits after the last (R125, D11). -/
def pack (bits : List Bool) : List Byte :=
  (List.range ((bits.length + 7) / 8)).map (packByte bits)

/-! ### BitSource -/

/-- `MemRead(a, 1)`: byte `a` of the input buffer. The guards of `srcReadBits` keep `a` inside it (R141, R149). -/
def memRead (inp : List Byte) (a : Nat) : Byte := inp.getD a 0

/-- `InBit(p)`: wire bit `p` of the buffer, the most significant bit of each byte first (R61, R141). -/
def inBit (inp : List Byte) (p : Nat) : Bool := (memRead inp (p / 8)).getLsbD (7 - p % 8)

/-- `T - bpos`, the bits not yet consumed (R140). -/
def bitsLeft (inp : List Byte) (bpos : Nat) : Nat := 8 * inp.length - bpos

/-- How a read fails (R143, R144), with the diagnostic arguments of R142. -/
inductive ReadError where
  | endOfStream (bpos : Nat)
  | truncated (bpos n rem : Nat)
  deriving DecidableEq, Repr

/-- The read loop of R142: the first wire bit becomes the most significant bit of the result. -/
def readLoop (inp : List Byte) : Nat → Nat → Nat → Nat
  | 0, _, r => r
  | n + 1, p, r => readLoop inp n (p + 1) (2 * r + (inBit inp p).toNat)

/-- `SrcReadBits(n)` at cursor `bpos`: the value and the cursor after it, or the error (R142 to R146). -/
def srcReadBits (inp : List Byte) (bpos n : Nat) : Except ReadError (Nat × Nat) :=
  if n = 0 then .ok (0, bpos)
  else if bitsLeft inp bpos = 0 then .error (.endOfStream bpos)
  else if bitsLeft inp bpos < n then .error (.truncated bpos n (bitsLeft inp bpos))
  else .ok (readLoop inp n bpos 0, bpos + n)

/-- `SrcReadRev(n)`: the read, then the reversal (R147). -/
def srcReadRev (inp : List Byte) (bpos n : Nat) : Except ReadError (Nat × Nat) :=
  match srcReadBits inp bpos n with
  | .error e => .error e
  | .ok (r, p) => .ok (revBits n r, p)

/-! ### Decoding a token -/

/-- What decoding at a cursor gives: a token and the cursor after it, or the read that failed and the cursor it
left (the failing read does not move it, R146; an earlier read of the token did). -/
inductive Decoded where
  | token (i : Instr) (next : Nat)
  | stop (e : ReadError) (cursor : Nat)
  deriving DecidableEq, Repr

/-- Operand of a LIT8: `rev_8(SrcReadBits(8))` (R94). -/
def decodeLit8 (inp : List Byte) (p : Nat) : Decoded :=
  match srcReadRev inp p lit8Bits with
  | .error e => .stop e p
  | .ok (v, q) => .token (.lit8 (BitVec.ofNat 8 v)) q

/-- Operand of a LIT16: `rev_16(SrcReadBits(16))` (R95). -/
def decodeLit16 (inp : List Byte) (p : Nat) : Decoded :=
  match srcReadRev inp p lit16Bits with
  | .error e => .stop e p
  | .ok (v, q) => .token (.lit16 (BitVec.ofNat 16 v)) q

/-- The token a CODE value selects, the cursor `p` being past the CODE field (R93, R98, R231, R236). As the first
token, a value that is no control code is ILLEGAL_FIRST: at W = 2 that is 3 (log 18). -/
def decodeCode (first : Bool) (inp : List Byte) (c p : Nat) : Decoded :=
  if c = codeLit8 then decodeLit8 inp p
  else if c = codeLit16 then decodeLit16 inp p
  else if c = codeEos then .token .eos p
  else if first then .token .illegalFirst p
  else .token (.idx c) p

/-- The token at cursor `bpos` of the buffer, read at width `W` (R91, R99). Total on any bytes. -/
def decodeToken (first : Bool) (W : Nat) (inp : List Byte) (bpos : Nat) : Decoded :=
  match srcReadRev inp bpos W with
  | .error e => .stop e bpos
  | .ok (c, p) => decodeCode first inp c p

/-- Why a descriptor is no job (R106). -/
inductive DescriptorError where
  /-- `dir = 0` came with bytes, or `dir = 1` with code units. -/
  | inputKind
  deriving DecidableEq, Repr

/-- The job of a descriptor: `dir = 0` is ENCODE of code units, `dir = 1` DECODE of bytes (R106). -/
def decodeJob (d : Descriptor) : Except DescriptorError Instr :=
  match d.input with
  | .units u => if d.dir = 0#1 then .ok (.encode u) else .error .inputKind
  | .bytes b => if d.dir = 1#1 then .ok (.decode b) else .error .inputKind

/-! ### Encoding -/

/-- The wire bits of a token at width `W` (R91); a job has none. -/
def encodeToken (W : Nat) : Instr → List Bool
  | .lit8 v => lsbFirst W codeLit8 ++ lsbFirst lit8Bits v.toNat
  | .lit16 v => lsbFirst W codeLit16 ++ lsbFirst lit16Bits v.toNat
  | .eos => lsbFirst W codeEos
  | .idx n => lsbFirst W n
  | .illegalFirst => lsbFirst W 3
  | .encode _ => []
  | .decode _ => []

/-- How many wire bits a token takes at width `W` (R99). -/
def wireLength (W : Nat) : Instr → Nat
  | .lit8 _ => W + lit8Bits
  | .lit16 _ => W + lit16Bits
  | .eos => W
  | .idx _ => W
  | .illegalFirst => W
  | .encode _ => 0
  | .decode _ => 0

/-- The descriptor of a job (R106); a token has none. -/
def encodeJob : Instr → Option Descriptor
  | .lit8 _ => none
  | .lit16 _ => none
  | .eos => none
  | .idx _ => none
  | .illegalFirst => none
  | .encode u => some ⟨0#1, .units u⟩
  | .decode b => some ⟨1#1, .bytes b⟩

/-- What carries an instruction: wire bits in a stream, or a descriptor at the host interface. -/
inductive Words where
  | wire (bits : List Bool)
  | job (d : Descriptor)
  deriving DecidableEq, Repr

/-- The words of an instruction at a place. -/
def encode (p : Place) (i : Instr) : Words :=
  match encodeJob i with
  | some d => .job d
  | none => .wire (encodeToken p.width i)

/-- The instruction of some words at a place, none where the decoder refuses or wire bits are left over. -/
def decodeWords (p : Place) : Words → Option Instr
  | .wire bits =>
    match decodeToken p.first p.width (pack bits) 0 with
    | .token i q => if q = bits.length then some i else none
    | .stop _ _ => none
  | .job d =>
    match decodeJob d with
    | .ok i => some i
    | .error _ => none

/-! ### The opcode table's words (log 8) -/

/-- How a table word is read. The table numbers the one bit `dir` of a job, and the wire bits of a token. -/
inductive TableForm where
  | job (dir : BitVec 1)
  | token (p : Place)
  deriving DecidableEq, Repr

/-- The reading of a word (log 8). A byte holds a job's `dir`: 0 is ENCODE, and DECODE is 1 (the bit itself) or 2 (the
bit at the place the table's row gives it). Of a byte's other values 3 is the first-token code of ILLEGAL_FIRST, and
the rest a later token at W = 3, the width every stream has after its first token. Any other word is a first token at
W = 2. -/
def tableForm (nbits v : Nat) : TableForm :=
  if nbits = 0 ∨ 8 < nbits then .token ⟨true, 2⟩
  else if v = 0 then .job 0#1
  else if v < 3 then .job 1#1
  else if v = 3 then .token ⟨true, 2⟩
  else .token ⟨false, 3⟩

/-- The word's bits below `nbits`, the rest 0. -/
def tableBits (nbits w : Nat) : Nat := w % 2 ^ nbits

/-- A token word laid out as the stream's bytes: wire bit i is bit i of the word, up to 32 bits or `nbits`. -/
def tableBytes (nbits w : Nat) : List Byte := pack (lsbFirst (max nbits 32) (tableBits nbits w))

/-- The empty input of a direction: a table word carries no input sequence. -/
def emptyInput (dir : BitVec 1) : Input := if dir = 0#1 then .units [] else .bytes []

/-- The instruction the decoder reads from a word of the opcode table. -/
def decodeTableWord (nbits w : Nat) : Option Instr :=
  match tableForm nbits (tableBits nbits w) with
  | .job d =>
    match decodeJob ⟨d, emptyInput d⟩ with
    | .ok i => some i
    | .error _ => none
  | .token p =>
    match decodeToken p.first p.width (tableBytes nbits w) 0 with
    | .token i _ => some i
    | .stop _ _ => none

end Sys2Proof
end

