-- ==== Sys2Proof/Machine/State.lean ====
section
/-! DEFINITION. The architectural state (10_state.md R20 to R41), the reasons a step can stop, and the state after a
power-on reset (70_reset_and_hazards.md R300). -/

namespace Sys2Proof.Machine

/-- The engine's position in its job (R21). -/
inductive Phase where
  | idle
  | encScan
  | encFlush
  | encEos
  | decFirst
  | decLoop
  | done
  | fail
  deriving DecidableEq, Repr

/-- The direction of a job (R22): 0 is ENCODE and 1 is DECODE. -/
inductive Direction where
  | encode
  | decode
  deriving DecidableEq, Repr

/-- The content of `err` (R23, R270). Codes 5 to 7 are reserved and never written, so no constructor has them. -/
inductive ErrKind where
  | noError
  | endOfStream
  | truncatedStream
  | corruptStream
  | capacityExceeded
  deriving DecidableEq, Repr

/-- The content of RESULT: bytes after an ENCODE, code units after a DECODE (R37). -/
inductive Result where
  | bytes (b : List Byte)
  | units (u : List CodeUnit)
  deriving DecidableEq, Repr

/-- The Encoder's map from sequences to indices, its pairs in the order the indices were given (R28, log 13). -/
abbrev EncDict := List (List CodeUnit × Nat)

/-- The Decoder's entries: the entry of index i stands at position i (R29). -/
abbrev DecDict := List (List CodeUnit)

/-- A move of the host (R73), or a turn at which it makes none (log 3). -/
inductive HostMove where
  /-- SUBMIT: hand over a job descriptor. -/
  | submit (d : Descriptor)
  /-- READ_STATUS. -/
  | readStatus
  /-- READ_RESULT. -/
  | readResult
  /-- The host makes no move here and the core takes its step. -/
  | wait
  deriving DecidableEq, Repr

/-- What a move gives back to the host (R73). -/
inductive Reading where
  | status (v : BitVec 8)
  | result (r : Result)
  deriving DecidableEq, Repr

/-- The registers that may hold no value (R20). -/
inductive Reg where
  | indexBits | enlargeIn | count | encDict | decDict | pending | word | U | ipos | IN | bpos | obits | out | RESULT
  deriving DecidableEq, Repr

/-- Why the machine stops with a fault. All are safe: the machine stops where the spec gives no value. Job errors
1 to 4 are not faults but final states of a job (R288). -/
inductive Fault where
  /-- A rule read a register that holds no value; raised by every register read (R39, U3). Safe. -/
  | noValue (r : Reg)
  /-- The host read RESULT while DONE = 0; raised by READ_RESULT (R311, U5). Safe. -/
  | resultNotDone
  /-- TICK found `enlargeIn` already 0, which R169 says never happens; raised by TICK. Safe. -/
  | countdownZero
  /-- `head([])`, which 00_scope.md §4 leaves undefined; raised by RESOLVE and COMMIT. Safe. -/
  | emptySequence
  /-- ENC_UNIT with `ipos` at or past the end of `U`, which R191 rules out; raised by ENC_UNIT. Safe. -/
  | inputExhausted
  /-- EMIT_IDX of a word that has no index, which R195 rules out; raised by EMIT. Safe. -/
  | keyAbsent
  /-- DecGet of an index that names no entry, which R164 rules out; raised by RESOLVE. Safe. -/
  | indexWithoutEntry
  deriving DecidableEq, Repr

/-- Why the machine has no meaning for what it was asked to do. -/
inductive Refusal where
  /-- An instruction with no meaning yet; raised by exec's arms alone. Safe. -/
  | notModelled (mnemonic : String)
  /-- SUBMIT while BUSY = 1: the spec gives it no move (R309, U6); raised by ENCODE and DECODE. Safe. -/
  | submitWhileBusy
  /-- A descriptor whose input is not of its direction's kind (R106, log 24); raised by SUBMIT. Safe. -/
  | inputKind
  /-- A token at a phase for which no rule executes it (log 11); raised by the tokens' meanings. Safe. -/
  | noTokenAt (p : Phase)
  /-- IDX of a control code's value, which is never an index (R69, R93); raised by IDX. Safe. -/
  | controlCodeAsIndex (n : Nat)
  deriving DecidableEq, Repr

/-- The diagnostic argument of `raise` (R270, last column). It picks the code and goes no further (log 14). -/
inductive JobError where
  | endOfStream (bpos : Nat)
  | truncatedStream (bpos n rem : Nat)
  | corruptFirst (bpos : Nat)
  | corruptTarget (target count : Nat)
  | capacityExceeded (info : Nat)
  deriving DecidableEq, Repr

/-- How a sequence of operations stops before its end: by `raise` (R278), or by a fault of the model. -/
inductive Stop where
  | job (e : JobError)
  | fault (f : Fault)
  deriving DecidableEq, Repr

/-- The whole state. A register of R20 whose power-on value is "no value" is an Option, and `none` is that
"no value" (R39, R300, log 1). -/
structure State where
  /-- The engine's position in its job (R21). Reset IDLE. -/
  phase : Phase
  /-- The direction of the current or last job (R22). Reset 0. -/
  dir : Direction
  /-- The error code of the last job (R23). Reset 0. -/
  err : ErrKind
  /-- The width W of the next code field (R25). -/
  indexBits : Option Nat
  /-- Ticks left before `indexBits` grows (R26). -/
  enlargeIn : Option Nat
  /-- The entry count, which is the next index (R27). -/
  count : Option Nat
  /-- The Encoder's dictionary (R28). -/
  encDict : Option EncDict
  /-- The Decoder's dictionary (R29). -/
  decDict : Option DecDict
  /-- The units whose singleton has an index and has not been sent as a literal (R30). -/
  pending : Option (List CodeUnit)
  /-- The current match, or the last decoded entry (R31). -/
  word : Option (List CodeUnit)
  /-- The input of an ENCODE job (R32). -/
  U : Option (List CodeUnit)
  /-- The Encoder's cursor in `U` (R33). -/
  ipos : Option Nat
  /-- The input of a DECODE job (R32). -/
  IN : Option (List Byte)
  /-- The Decoder's cursor, in wire bits of `IN` (R34). -/
  bpos : Option Nat
  /-- The bits BitSink has been given, in wire order (R35). -/
  obits : Option (List Bool)
  /-- The code units decoded so far (R36). -/
  out : Option (List CodeUnit)
  /-- The result of the last successful job (R37). -/
  RESULT : Option Result
  /-- The capacity parameters in force; no rule writes them (R7, log 2). Not state of the core. -/
  bounds : Bounds
  /-- The host's coming moves, the next first (R73, log 3). Not state of the core. -/
  host : List HostMove
  /-- What the host's reads gave it, oldest first (R73, log 6). Not state of the core. -/
  seen : List Reading
  deriving DecidableEq, Repr

/-- Power-on reset: phase IDLE, dir 0, err 0, every other register without a value (R300). The bounds are D5's
default ∞ (log 2); the host has no move and has read nothing (logs 3 and 6). -/
def State.reset : State where
  phase := .idle
  dir := .encode
  err := .noError
  indexBits := none
  enlargeIn := none
  count := none
  encDict := none
  decDict := none
  pending := none
  word := none
  U := none
  ipos := none
  IN := none
  bpos := none
  obits := none
  out := none
  RESULT := none
  bounds := Bounds.unbounded
  host := []
  seen := []

/-! ### Writing one register -/

/-- `phase <- v`. -/
def State.setPhase (v : Phase) (s : State) : State := { s with phase := v }

/-- `dir <- v`. -/
def State.setDir (v : Direction) (s : State) : State := { s with dir := v }

/-- `err <- v`. -/
def State.setErr (v : ErrKind) (s : State) : State := { s with err := v }

/-- `indexBits <- v`. -/
def State.setIndexBits (v : Nat) (s : State) : State := { s with indexBits := some v }

/-- `enlargeIn <- v`. -/
def State.setEnlargeIn (v : Nat) (s : State) : State := { s with enlargeIn := some v }

/-- `count <- v`. -/
def State.setCount (v : Nat) (s : State) : State := { s with count := some v }

/-- `encDict <- v`. -/
def State.setEncDict (v : EncDict) (s : State) : State := { s with encDict := some v }

/-- `decDict <- v`. -/
def State.setDecDict (v : DecDict) (s : State) : State := { s with decDict := some v }

/-- `pending <- v`. -/
def State.setPending (v : List CodeUnit) (s : State) : State := { s with pending := some v }

/-- `word <- v`. -/
def State.setWord (v : List CodeUnit) (s : State) : State := { s with word := some v }

/-- `U <- v`. -/
def State.setU (v : List CodeUnit) (s : State) : State := { s with U := some v }

/-- `ipos <- v`. -/
def State.setIpos (v : Nat) (s : State) : State := { s with ipos := some v }

/-- `IN <- v`. -/
def State.setIN (v : List Byte) (s : State) : State := { s with IN := some v }

/-- `bpos <- v`. -/
def State.setBpos (v : Nat) (s : State) : State := { s with bpos := some v }

/-- `obits <- v`. -/
def State.setObits (v : List Bool) (s : State) : State := { s with obits := some v }

/-- `out <- v`. -/
def State.setOut (v : List CodeUnit) (s : State) : State := { s with out := some v }

/-- `RESULT <- v`. -/
def State.setRESULT (v : Result) (s : State) : State := { s with RESULT := some v }

/-- `host <- v`. -/
def State.setHost (v : List HostMove) (s : State) : State := { s with host := v }

/-- `seen <- v`. -/
def State.setSeen (v : List Reading) (s : State) : State := { s with seen := v }

/-- `word <- no value` (R230). -/
def State.clearWord (s : State) : State := { s with word := none }

/-- `RESULT <- no value` (R190, R230, R278). -/
def State.clearResult (s : State) : State := { s with RESULT := none }

end Sys2Proof.Machine
end

