-- ==== Sys2Proof/Machine/Flags.lean ====
section
/-! DEFINITION. STATUS (10_state.md R24), the error codes (R270), and the set `pending`, the core's only flag-like
state (R30). -/

namespace Sys2Proof.Machine

/-- The bit of STATUS a direction shows (R22). -/
def Direction.bit : Direction → BitVec 1
  | .encode => 0#1
  | .decode => 1#1

/-- The code of an error kind (R23, R270). -/
def ErrKind.code : ErrKind → BitVec 3
  | .noError => 0#3
  | .endOfStream => 1#3
  | .truncatedStream => 2#3
  | .corruptStream => 3#3
  | .capacityExceeded => 4#3

/-- The kind of a raised error (R270). -/
def JobError.kind : JobError → ErrKind
  | .endOfStream _ => .endOfStream
  | .truncatedStream _ _ _ => .truncatedStream
  | .corruptFirst _ => .corruptStream
  | .corruptTarget _ _ => .corruptStream
  | .capacityExceeded _ => .capacityExceeded

/-- BUSY: a job is running (R24). -/
def Phase.busy : Phase → Bool
  | .idle => false
  | .encScan => true
  | .encFlush => true
  | .encEos => true
  | .decFirst => true
  | .decLoop => true
  | .done => false
  | .fail => false

/-- STATUS bit 0. -/
def State.busy (s : State) : Bool := s.phase.busy

/-- STATUS bit 1: the last job succeeded (R24). -/
def State.isDone (s : State) : Bool := s.phase == .done

/-- STATUS: bits 7:6 zero, bit 5 DIR, bits 4:2 ERR, bit 1 DONE, bit 0 BUSY (R24, D3). -/
def State.status (s : State) : BitVec 8 :=
  0#2 ++ s.dir.bit ++ s.err.code ++ BitVec.ofBool s.isDone ++ BitVec.ofBool s.busy

/-- `pending ∪ {c}`, the set held as a list without repeats (R191, log 13). -/
def pendingInsert (p : List CodeUnit) (c : CodeUnit) : List CodeUnit :=
  if c ∈ p then p else p ++ [c]

/-- `pending \ {c}` (R193). -/
def pendingErase (p : List CodeUnit) (c : CodeUnit) : List CodeUnit := p.filter (fun x => x != c)

end Sys2Proof.Machine
end

