-- ==== Sys2Proof/Machine/Ops.lean ====
section
/-! DEFINITION. The shared operations: register reads and writes, the two job-ending primitives `raise` and `finish`
(60_exceptions.md §4), the capacity checks (R276), BitSink (40_bitsink.md) and DictionaryState with the width
controller (42_dictionary.md). Statements of a rule run in the order written; the first that stops ends the rule
(R277). -/

namespace Sys2Proof.Machine

/-- A sequence of operations on the state that may stop. What it had written by then stays (R278, log 9). -/
abbrev M := EStateM Stop State

/-! ### Ending a job -/

/-- `raise E`: the job ends with error E; all other state is left as it is (R278). There is no handler, no vector,
nothing is saved and nothing returns (R280, R281). -/
def State.raise (e : JobError) (s : State) : State :=
  ((s.setErr e.kind).setPhase .fail).clearResult

/-- `finish(r)`: RESULT holds `r` and the job is done; `err` stays 0 (R279). -/
def State.finish (r : Result) (s : State) : State := (s.setRESULT r).setPhase .done

/-- The outcome of a rule: its next state, the end of the job where it raised, or the model's fault. -/
def perform (m : M Unit) (s : State) : Host.Outcome State Fault Refusal :=
  match m s with
  | .ok _ t => .next t
  | .error (.job e) t => .next (t.raise e)
  | .error (.fault f) _ => .fault f

/-- Stop with a job error. -/
def raiseJob {α : Type} (e : JobError) : M α := fun s => .error (.job e) s

/-- Stop with a fault of the model. -/
def stopFault {α : Type} (f : Fault) : M α := fun s => .error (.fault f) s

/-- Apply a register write. -/
def write (f : State → State) : M Unit := fun s => .ok () (f s)

/-! ### Reading registers (R39: a register with no value faults) -/

/-- The value of a register, or the fault of reading one that holds none. -/
def held {α : Type} (r : Reg) (v : Option α) : M α :=
  match v with
  | some a => pure a
  | none => stopFault (.noValue r)

def readBounds : M Bounds := fun s => .ok s.bounds s
def readPhase : M Phase := fun s => .ok s.phase s
def readIndexBits : M Nat := fun s => held .indexBits s.indexBits s
def readEnlargeIn : M Nat := fun s => held .enlargeIn s.enlargeIn s
def readCount : M Nat := fun s => held .count s.count s
def readEncDict : M EncDict := fun s => held .encDict s.encDict s
def readDecDict : M DecDict := fun s => held .decDict s.decDict s
def readPending : M (List CodeUnit) := fun s => held .pending s.pending s
def readWord : M (List CodeUnit) := fun s => held .word s.word s
def readU : M (List CodeUnit) := fun s => held .U s.U s
def readIpos : M Nat := fun s => held .ipos s.ipos s
def readIN : M (List Byte) := fun s => held .IN s.IN s
def readBpos : M Nat := fun s => held .bpos s.bpos s
def readObits : M (List Bool) := fun s => held .obits s.obits s
def readOut : M (List CodeUnit) := fun s => held .out s.out s

/-! ### Capacity (R276) -/

/-- A capacity check: it raises before the write it guards. -/
def checkCapacity (ok : Bool) (info : Nat) : M Unit :=
  if ok then pure () else raiseJob (.capacityExceeded info)

/-- `check_out_capacity(L)`: `⌈L/8⌉ ≤ MAX_OUT_BYTES`, `L` the length `obits` would have. -/
def checkOutCapacity (L : Nat) : M Unit := do
  let b ← readBounds
  checkCapacity (Bounds.allows b.maxOutBytes ((L + 7) / 8)) L

/-- `check_out_units(L)`: `L ≤ MAX_OUT_UNITS`, `L` the length `out` would have. -/
def checkOutUnits (L : Nat) : M Unit := do
  let b ← readBounds
  checkCapacity (Bounds.allows b.maxOutUnits L) L

/-- An entry fits: one more of the given length (R161, R162). -/
def entryFits (b : Bounds) (count len : Nat) : Bool :=
  Bounds.allows b.maxEntries (count + 1) && Bounds.allows b.maxEntryLen len

/-! ### BitSink -/

/-- `SinkWriteBits(value, n)`: append the low `n` bits, most significant first (R120, R123); with `n = 0` a no-op
that raises nothing (R122, log 19). -/
def sinkWriteBits (value n : Nat) : M Unit := do
  if n = 0 then pure ()
  else
    let bits ← readObits
    checkOutCapacity (bits.length + n)
    write (State.setObits (bits ++ msbFirst n value))

/-- `SinkWriteRev(value, n)`: the write every field of the format uses (R121). -/
def sinkWriteRev (value n : Nat) : M Unit := sinkWriteBits (revBits n value) n

/-- `SinkFinish()`: the finished buffer, whose byte j is `pack(obits)[j]` (R126). -/
def sinkFinish : M (List Byte) := do
  let bits ← readObits
  pure (pack bits)

/-! ### The width controller -/

/-- The index-width schedule (00_scope.md §5). -/
structure Schedule where
  indexBits : Nat
  enlargeIn : Nat
  deriving DecidableEq, Repr

/-- One tick of the countdown: at 0 it restarts from 2^(the width before the increment) (R160). -/
def scheduleTick (x : Schedule) : Schedule :=
  if x.enlargeIn - 1 = 0 then ⟨x.indexBits + 1, 2 ^ x.indexBits⟩
  else ⟨x.indexBits, x.enlargeIn - 1⟩

/-- A tick at this point stays within MAX_INDEX_BITS (R160). -/
def tickFits (b : Bounds) (x : Schedule) : Bool :=
  !(x.enlargeIn == 1) || Bounds.allows b.maxIndexBits (x.indexBits + 1)

/-- `TICK()` (R160). It faults on a countdown already 0, which R169 rules out (log 12). -/
def tick : M Unit := do
  let w ← readIndexBits
  let e ← readEnlargeIn
  let b ← readBounds
  if e = 0 then stopFault .countdownZero
  else
    checkCapacity (tickFits b ⟨w, e⟩) w
    write (State.setEnlargeIn (scheduleTick ⟨w, e⟩).enlargeIn)
    write (State.setIndexBits (scheduleTick ⟨w, e⟩).indexBits)

/-! ### Entries -/

/-- `ASSIGN(key)`: the key takes index `count`; no tick (R161). Its callers guarantee the key is new. -/
def assignKey (key : List CodeUnit) : M Unit := do
  let n ← readCount
  let b ← readBounds
  checkCapacity (entryFits b n key.length) n
  let d ← readEncDict
  write (State.setEncDict (d ++ [(key, n)]))
  write (State.setCount (n + 1))

/-- `INSERT(entry)`: append the entry at index `count`, then tick once (R162). -/
def insertEntry (entry : List CodeUnit) : M Unit := do
  let n ← readCount
  let b ← readBounds
  checkCapacity (entryFits b n entry.length) n
  let d ← readDecDict
  write (State.setDecDict (d ++ [entry]))
  write (State.setCount (n + 1))
  tick

/-! ### Initialisation -/

/-- `EncoderInit()` (R163). -/
def encoderInit : M Unit := do
  write (State.setEncDict [])
  write (State.setCount controlCodes)
  write (State.setIndexBits 2)
  write (State.setEnlargeIn 2)

/-- `DecoderInit()` with its bootstrap of three placeholder entries (R165). -/
def decoderInit : M Unit := do
  write (State.setDecDict [])
  write (State.setCount 0)
  write (State.setIndexBits 2)
  write (State.setEnlargeIn 4)
  insertEntry [0#16]
  insertEntry [1#16]
  insertEntry [2#16]

end Sys2Proof.Machine
end

