-- ==== Sys2Proof/Machine/Jobs.lean ====
section
/-! DEFINITION. The two jobs (43_encoder.md R190, 44_decoder.md R230) and the host's two reads (20_memory.md R73). -/

namespace Sys2Proof.Machine

/-- The writes of R190 after `dir`, `err` and RESULT. -/
def startEncode (input : List CodeUnit) : M Unit := do
  let b ← readBounds
  checkCapacity (Bounds.allows b.maxInUnits input.length) input.length
  write (State.setU input)
  write (State.setIpos 0)
  encoderInit
  write (State.setPending [])
  write (State.setWord [])
  write (State.setObits [])
  write (State.setPhase (if input = [] then .encFlush else .encScan))

/-- The writes of R230 after `dir`, `err` and RESULT. -/
def startDecode (input : List Byte) : M Unit := do
  let b ← readBounds
  checkCapacity (Bounds.allows b.maxInBytes input.length) input.length
  write (State.setIN input)
  write (State.setBpos 0)
  decoderInit
  write (State.setOut [])
  write State.clearWord
  write (State.setPhase .decFirst)

/-- ENCODE: the job submission with `dir = 0` (R190). Allowed when BUSY = 0 only (R73, R309). -/
def execEncode (input : List CodeUnit) (s : State) : Host.Outcome State Fault Refusal :=
  if s.busy then .refused .submitWhileBusy
  else perform (startEncode input) ((s.setDir .encode).setErr .noError).clearResult

/-- DECODE: the job submission with `dir = 1` (R230). Allowed when BUSY = 0 only (R73, R309). -/
def execDecode (input : List Byte) (s : State) : Host.Outcome State Fault Refusal :=
  if s.busy then .refused .submitWhileBusy
  else perform (startDecode input) ((s.setDir .decode).setErr .noError).clearResult

/-- READ_STATUS: the host gets STATUS; nothing else changes (R73). -/
def readStatusMove (s : State) : Host.Outcome State Fault Refusal :=
  .next (s.setSeen (s.seen ++ [.status s.status]))

/-- READ_RESULT: the host gets RESULT, when DONE = 1 only (R73, R311). -/
def readResultMove (s : State) : Host.Outcome State Fault Refusal :=
  if s.isDone then
    match s.RESULT with
    | some r => .next (s.setSeen (s.seen ++ [.result r]))
    | none => .fault (.noValue .RESULT)
  else .fault .resultNotDone

end Sys2Proof.Machine
end

