-- ==== Sys2Proof/Machine/Operands.lean ====
section
/-! DEFINITION. How an operand is found: a token's fields in `IN` (44_decoder.md R231, R236), an entry by its index or
an index by its entry (R164, R241), and the first unit of a sequence. -/

namespace Sys2Proof.Machine

/-- The job error of a failed read (R142); BitSource's errors go on unchanged (R148). -/
def readErrorJob : ReadError → JobError
  | .endOfStream p => .endOfStream p
  | .truncated p n rem => .truncatedStream p n rem

/-- Fetch the token at `bpos`, at W = `indexBits`; the cursor moves past each field read (R142, R231, R236). -/
def fetchToken : M Instr := do
  let ph ← readPhase
  let w ← readIndexBits
  let inp ← readIN
  let p ← readBpos
  match decodeToken (ph == .decFirst) w inp p with
  | .token i q =>
    write (State.setBpos q)
    pure i
  | .stop e q =>
    write (State.setBpos q)
    raiseJob (readErrorJob e)

/-- `EncLookup(key)`: the index of a key, compared unit by unit, or absent (R164). -/
def encLookup (d : EncDict) (key : List CodeUnit) : Option Nat :=
  match d with
  | [] => none
  | (k, n) :: rest => if k = key then some n else encLookup rest key

/-- `head(s)`, defined only on a non-empty sequence (00_scope.md §4). -/
def headUnit (s : List CodeUnit) : M CodeUnit :=
  match s with
  | c :: _ => pure c
  | [] => stopFault .emptySequence

/-- `DecGet(i)` (R164). -/
def decGet (d : DecDict) (i : Nat) : M (List CodeUnit) :=
  match d[i]? with
  | some e => pure e
  | none => stopFault .indexWithoutEntry

/-- `RESOLVE(target)`: an entry, the self-extension at `target = count`, or CORRUPT_STREAM beyond it; `count` is
the count at the call (R241, C4). -/
def resolve (target : Nat) : M (List CodeUnit) := do
  let n ← readCount
  if target < n then
    let d ← readDecDict
    decGet d target
  else if target = n then
    let w ← readWord
    let c ← headUnit w
    pure (w ++ [c])
  else raiseJob (.corruptTarget target n)

end Sys2Proof.Machine
end

