-- ==== Sys2Proof/Machine/Decoder.lean ====
section
/-! DEFINITION. The Decoder pipeline (44_decoder.md): what the tokens do once their fields are read. -/

namespace Sys2Proof.Machine

/-- FIRST_LIT8 and FIRST_LIT16 after the operand's read (R232, R233). -/
def firstLiteral (v : CodeUnit) : M Unit := do
  let o ← readOut
  checkOutUnits (o.length + 1)
  insertEntry [v]
  write (State.setWord [v])
  write (State.setOut (o ++ [v]))
  write (State.setPhase .decLoop)

/-- `COMMIT(entry)`: output the entry, insert the OLD word extended by the entry's first unit, then the entry is
the word (R242, R306). -/
def commit (entry : List CodeUnit) : M Unit := do
  let o ← readOut
  checkOutUnits (o.length + entry.length)
  write (State.setOut (o ++ entry))
  let w ← readWord
  let c ← headUnit entry
  insertEntry (w ++ [c])
  write (State.setWord entry)

/-- LOOP_LIT8 and LOOP_LIT16 after the operand's read: the target is the count before the INSERT, and RESOLVE
compares it with the count after (R237, R238, R307). -/
def loopLiteral (v : CodeUnit) : M Unit := do
  let target ← readCount
  insertEntry [v]
  let entry ← resolve target
  commit entry

/-- LOOP_IDX (R240). -/
def loopIdx (n : Nat) : M Unit := do
  let entry ← resolve n
  commit entry

/-- FIRST_EOS: the stream is empty (R234). -/
def firstEos : M Unit := write (State.finish (.units []))

/-- LOOP_EOS: the job is done with the output so far (R239). -/
def loopEos : M Unit := do
  let o ← readOut
  write (State.finish (.units o))

/-- FIRST_ILLEGAL: no entry exists yet to reference (R235, D6). -/
def firstIllegal : M Unit := do
  let p ← readBpos
  raiseJob (.corruptFirst p)

end Sys2Proof.Machine
end

