-- ==== Sys2Proof/Machine/Encoder.lean ====
section
/-! DEFINITION. The Encoder pipeline (43_encoder.md): the emissions of the tokens, and the step rules of an ENCODE job
other than ENC_EOS, which is the meaning of EOS. -/

namespace Sys2Proof.Machine

/-- `pending <- pending \ (u)` (R193, R194). -/
def clearPending (u : CodeUnit) : M Unit := do
  let p ← readPending
  write (State.setPending (pendingErase p u))

/-- `EMIT_LIT8(u, W)`: CODE 0 and V8, then two ticks around the pending clear (R193). -/
def emitLit8 (u : CodeUnit) (W : Nat) : M Unit := do
  sinkWriteRev codeLit8 W
  sinkWriteRev u.toNat lit8Bits
  tick
  clearPending u
  tick

/-- `EMIT_LIT16(u, W)`: CODE 1 and V16, then two ticks around the pending clear (R194). -/
def emitLit16 (u : CodeUnit) (W : Nat) : M Unit := do
  sinkWriteRev codeLit16 W
  sinkWriteRev u.toNat lit16Bits
  tick
  clearPending u
  tick

/-- `EMIT_IDX` of index `n`: the CODE field holds the low W bits of `n`, then one tick (R195, D26). -/
def emitIdx (n W : Nat) : M Unit := do
  sinkWriteRev n W
  tick

/-- The one unit of `w` if `w` is a pending singleton: the condition of R192. -/
def pendingSingleton (p : List CodeUnit) (w : List CodeUnit) : Option CodeUnit :=
  match w with
  | [u] => if u ∈ p then some u else none
  | _ => none

/-- `EMIT(w)`: W is sampled once, before any tick, then exactly one of the three emissions runs (R192, R304). -/
def emit (w : List CodeUnit) : M Unit := do
  let W ← readIndexBits
  let p ← readPending
  match pendingSingleton p w with
  | some u => if u.toNat < lit8Limit then emitLit8 u W else emitLit16 u W
  | none =>
    let d ← readEncDict
    match encLookup d w with
    | some n => emitIdx n W
    | none => stopFault .keyAbsent

/-- Step 1 of ENC_UNIT: at first sight `[c]` takes an index and is pending; no tick (R191, C1). -/
def firstSight (c : CodeUnit) : M Unit := do
  let d ← readEncDict
  match encLookup d [c] with
  | some _ => pure ()
  | none =>
    assignKey [c]
    let p ← readPending
    write (State.setPending (pendingInsert p c))

/-- Steps 2 and 3 of ENC_UNIT: extend the match, or emit it and give the candidate the next index (R191, R201). -/
def extendOrEmit (c : CodeUnit) : M Unit := do
  let w ← readWord
  let d ← readEncDict
  match encLookup d (w ++ [c]) with
  | some _ => write (State.setWord (w ++ [c]))
  | none =>
    emit w
    assignKey (w ++ [c])
    write (State.setWord [c])

/-- `ENC_UNIT`: one input unit (R191). -/
def encUnit : M Unit := do
  let u ← readU
  let i ← readIpos
  match u[i]? with
  | none => stopFault .inputExhausted
  | some c =>
    firstSight c
    extendOrEmit c
    write (State.setIpos (i + 1))
    if i + 1 = u.length then write (State.setPhase .encFlush) else pure ()

/-- `ENC_FLUSH`: emit the final word, with no ASSIGN (R196, C3). -/
def encFlush : M Unit := do
  let w ← readWord
  if w = [] then pure () else emit w
  write (State.setPhase .encEos)

/-- `ENC_EOS`: the EOS field at the width after the flush's ticks, then the job is done (R197, R305). -/
def encEos : M Unit := do
  let W ← readIndexBits
  sinkWriteRev codeEos W
  let b ← sinkFinish
  write (State.finish (.bytes b))

end Sys2Proof.Machine
end

