-- ==== Sys2Proof/Machine/Tokens.lean ====
section
/-! DEFINITION. The meanings of the five tokens (30_encoding.md R105). In a Decoder phase a token does what its decode
rule says after its fields are read; in an Encoder phase it is emitted, as its encode rule says (log 11). At a phase
for which no rule executes the token, the meaning refuses by name. -/

namespace Sys2Proof.Machine

/-- LIT8: R232 as the first token, R237 later, R193 when the Encoder emits it. That an emission here does not check
R193's operand condition, a pending unit, is the model's choice (log 25). -/
def execLit8 (v : Byte) (s : State) : Host.Outcome State Fault Refusal :=
  match s.phase with
  | .decFirst => perform (firstLiteral (v.setWidth 16)) s
  | .decLoop => perform (loopLiteral (v.setWidth 16)) s
  | .encScan | .encFlush => perform (readIndexBits >>= fun W => emitLit8 (v.setWidth 16) W) s
  | .idle | .encEos | .done | .fail => .refused (.noTokenAt s.phase)

/-- LIT16: R233 as the first token, R238 later, R194 when the Encoder emits it. That an emission here does not check
R194's operand conditions, a pending unit of 256 or more, is the model's choice (log 25). -/
def execLit16 (v : CodeUnit) (s : State) : Host.Outcome State Fault Refusal :=
  match s.phase with
  | .decFirst => perform (firstLiteral v) s
  | .decLoop => perform (loopLiteral v) s
  | .encScan | .encFlush => perform (readIndexBits >>= fun W => emitLit16 v W) s
  | .idle | .encEos | .done | .fail => .refused (.noTokenAt s.phase)

/-- EOS: R234 as the first token, R239 later, R197 when the Encoder emits it, each of which ends the job. -/
def execEos (s : State) : Host.Outcome State Fault Refusal :=
  match s.phase with
  | .decFirst => perform firstEos s
  | .decLoop => perform loopEos s
  | .encEos => perform encEos s
  | .idle | .encScan | .encFlush | .done | .fail => .refused (.noTokenAt s.phase)

/-- IDX: R240 after the first token, R195 when the Encoder emits it. No index is a valid first token, which
raises CORRUPT_STREAM (R101, D6, log 11). That an emission here does not check R195's operand condition, the index of
an entry that is no pending singleton, is the model's choice (log 25). -/
def execIdx (n : Nat) (s : State) : Host.Outcome State Fault Refusal :=
  if n < controlCodes then .refused (.controlCodeAsIndex n)
  else
    match s.phase with
    | .decFirst => perform firstIllegal s
    | .decLoop => perform (loopIdx n) s
    | .encScan | .encFlush => perform (readIndexBits >>= fun W => emitIdx n W) s
    | .idle | .encEos | .done | .fail => .refused (.noTokenAt s.phase)

/-- CODE 3 as the first token: CORRUPT_STREAM (R235). -/
def execIllegalFirst (s : State) : Host.Outcome State Fault Refusal :=
  match s.phase with
  | .decFirst => perform firstIllegal s
  | .idle | .encScan | .encFlush | .encEos | .decLoop | .done | .fail => .refused (.noTokenAt s.phase)

end Sys2Proof.Machine
end

