-- ==== Sys2Proof/Machine/Dispatch.lean ====
section
/-! DEFINITION. One arm per instruction: each calls the meaning of its own (spec/opcode_table.json). -/

namespace Sys2Proof.Machine

def exec (i : Instr) (s : State) : Host.Outcome State Fault Refusal :=
  match i with
  | .lit8 v => Sys2Proof.Machine.execLit8 v s
  | .lit16 v => Sys2Proof.Machine.execLit16 v s
  | .eos => Sys2Proof.Machine.execEos s
  | .idx n => Sys2Proof.Machine.execIdx n s
  | .illegalFirst => Sys2Proof.Machine.execIllegalFirst s
  | .encode input => Sys2Proof.Machine.execEncode input s
  | .decode input => Sys2Proof.Machine.execDecode input s

end Sys2Proof.Machine
end

