-- ==== Sys2Proof/Machine/HostPort.lean ====
section
/-! DEFINITION. What a step does around the instructions: the host's moves in turn, and the placing of an opcode-table
word where the next step runs it (log 8). -/

namespace Sys2Proof.Machine

/-- Drop the host's move that is being made. -/
def nextMove (rest : List HostMove) (s : State) : State := s.setHost rest

/-- The registers a Decoder is in before its first token: those R230 leaves, with `inp` as the input. -/
def placeFirst (inp : List Byte) (s : State) : State :=
  { s with
    phase := .decFirst, dir := .decode, err := .noError, RESULT := none, host := [],
    IN := some inp, bpos := some 0, out := some [], word := none,
    decDict := some [[0#16], [1#16], [2#16]], count := some 3, indexBits := some 2, enlargeIn := some 1 }

/-- The registers a Decoder is in after a first literal 0, which is `(4, 3, 4)` (R232), with `inp` from bit 0. -/
def placeLater (inp : List Byte) (s : State) : State :=
  { s with
    phase := .decLoop, dir := .decode, err := .noError, RESULT := none, host := [],
    IN := some inp, bpos := some 0, out := some [0#16], word := some [0#16],
    decDict := some [[0#16], [1#16], [2#16], [0#16]], count := some 4, indexBits := some 3, enlargeIn := some 4 }

/-- The host's next move is this job; a core that is BUSY is put back to IDLE, since it takes no job (R73). -/
def placeJob (d : Descriptor) (s : State) : State :=
  { s with phase := if s.busy then .idle else s.phase, host := [.submit d] }

/-- The state whose next step runs the table word. -/
def placeTableWord (s : State) (nbits w : Nat) : State :=
  match tableForm nbits (tableBits nbits w) with
  | .job d => placeJob ⟨d, emptyInput d⟩ s
  | .token p =>
    if p.first then placeFirst (tableBytes nbits w) s else placeLater (tableBytes nbits w) s

end Sys2Proof.Machine
end

