-- ==== Sys2Proof/Machine/Step.lean ====
section
/-! DEFINITION. One step of the machine: the host's move if it has one, else the core's (20_memory.md §6, D20). -/

namespace Sys2Proof.Machine

/-- Fetch the token at the cursor and run it (R231, R236); a failed read ends the job (R245). -/
def tokenStep (s : State) : Host.Outcome State Fault Refusal :=
  match fetchToken s with
  | .ok i t => exec i t
  | .error (.job e) t => .next (t.raise e)
  | .error (.fault f) _ => .fault f

/-- The core's own step, by phase (R21). IDLE, DONE and FAIL take no step until SUBMIT: the state waits unchanged
(R281, R287, log 7). -/
def coreStep (s : State) : Host.Outcome State Fault Refusal :=
  match s.phase with
  | .idle => .next s
  | .encScan => perform encUnit s
  | .encFlush => perform encFlush s
  | .encEos => exec .eos s
  | .decFirst => tokenStep s
  | .decLoop => tokenStep s
  | .done => .next s
  | .fail => .next s

/-- SUBMIT: decode the descriptor and start the job (R73, R106). -/
def submitStep (d : Descriptor) (s : State) : Host.Outcome State Fault Refusal :=
  match decodeJob d with
  | .ok i => exec i s
  | .error _ => .refused .inputKind

/-- One step. While the host's list holds a move it is taken from the list and made; at `wait`, and once the list
is empty, the core takes its own step (log 3). -/
def step (s : State) : Host.Outcome State Fault Refusal :=
  match s.host with
  | [] => coreStep s
  | .wait :: rest => coreStep (nextMove rest s)
  | .submit d :: rest => submitStep d (nextMove rest s)
  | .readStatus :: rest => readStatusMove (nextMove rest s)
  | .readResult :: rest => readResultMove (nextMove rest s)

/-- The state whose next step runs the opcode-table word `w` (log 8). -/
def State.withFetchWord (s : State) (nbits w : Nat) : State := placeTableWord s nbits w

end Sys2Proof.Machine
end

