-- ==== Sys2Proof/Machine/Accumulator.lean ====
section
/-! DEFINITION. BitSink held as bytes, a partial byte and a fill count: the equivalent form of 40_bitsink.md R127. -/

namespace Sys2Proof.Machine

/-- The completed bytes, the partial byte and how many of its bits are filled, 0 to 7 (R127). -/
structure SinkAcc where
  done : List Byte
  acc  : Byte
  fill : Nat
  deriving DecidableEq, Repr

/-- Nothing written. -/
def sinkAccEmpty : SinkAcc := ⟨[], 0#8, 0⟩

/-- One natural bit write: `acc <- acc | (b << (7 - fill))`, and a full byte moves to the completed ones (R127). -/
def sinkAccBit (a : SinkAcc) (b : Bool) : SinkAcc :=
  let acc := a.acc ||| ((BitVec.ofBool b).setWidth 8 <<< (7 - a.fill))
  if a.fill + 1 = 8 then ⟨a.done ++ [acc], 0#8, 0⟩ else ⟨a.done, acc, a.fill + 1⟩

/-- The bits written one after the other. -/
def sinkAccBits (a : SinkAcc) (bits : List Bool) : SinkAcc := bits.foldl sinkAccBit a

/-- The finished buffer: the partial byte goes last if it holds any bit (R127). -/
def sinkAccFinish (a : SinkAcc) : List Byte :=
  if 0 < a.fill then a.done ++ [a.acc] else a.done

end Sys2Proof.Machine
end

