-- ==== Sys2Proof/Machine/Listing.lean ====
section
/-! DEFINITION. Token programs as 30_encoding.md §7 lists them: the text of a listing, its lines, and the stream a program
stands for (R90, R107, log 23). -/

namespace Sys2Proof.Machine

/-- A line of a listing: the token, and the `@W` annotation if there is one (R107). -/
structure Line where
  token : Instr
  width : Option Nat
  deriving DecidableEq, Repr

/-- Why a tool refuses a listing (R90, R98, R107). -/
inductive ListingError where
  /-- A line of the text is no token with its operand and annotation. -/
  | unreadable (number : Nat)
  /-- The last line is not EOS. -/
  | noEos
  /-- A line follows an EOS. -/
  | afterEos
  /-- A line is no token with an encoding at its place. -/
  | illFormed (e : IllFormed)
  /-- A job command stands in a listing, or the first line is not LIT8, LIT16 or EOS. -/
  | notListed
  /-- An annotation is not the W the schedule gives. -/
  | widthDisagrees (line stated schedule : Nat)
  deriving DecidableEq, Repr

/-- The Decoder's ticks for a token (R171): the first literal one, a later literal two, an IDX one. -/
def ticksOf (first : Bool) : Instr → Nat
  | .lit8 _ => if first then 1 else 2
  | .lit16 _ => if first then 1 else 2
  | .idx _ => 1
  | .eos => 0
  | .illegalFirst => 0
  | .encode _ => 0
  | .decode _ => 0

/-- So many ticks. -/
def ticks : Nat → Schedule → Schedule
  | 0, x => x
  | n + 1, x => ticks n (scheduleTick x)

/-- The Decoder's schedule before the first token (R166). -/
def bootstrapSchedule : Schedule := ⟨2, 1⟩

/-- A listing's own form: only tokens, and no ILLEGAL_FIRST, which has no listing (R107). -/
def listed : Instr → Bool
  | .lit8 _ => true
  | .lit16 _ => true
  | .eos => true
  | .idx _ => true
  | .illegalFirst => false
  | .encode _ => false
  | .decode _ => false

/-- Check the lines from a place on, W recomputed by the schedule; the bits of the stream, or the refusal. -/
def assembleFrom (first : Bool) (x : Schedule) (number : Nat) : List Line → Except ListingError (List Bool)
  | [] => .error .noEos
  | l :: rest =>
    if !listed l.token then .error .notListed
    else
      match l.token.check ⟨first, x.indexBits⟩ with
      | some .indexFirst => .error .notListed
      | some e => .error (.illFormed e)
      | none =>
        if l.width.getD x.indexBits ≠ x.indexBits then
          .error (.widthDisagrees number (l.width.getD x.indexBits) x.indexBits)
        else if l.token = .eos then
          if rest = [] then .ok (encodeToken x.indexBits l.token) else .error .afterEos
        else
          match assembleFrom false (ticks (ticksOf first l.token) x) (number + 1) rest with
          | .error e => .error e
          | .ok bits => .ok (encodeToken x.indexBits l.token ++ bits)

/-- The byte stream of a listing: the tokens' bits, padded to a byte (R90, R107). -/
def assemble (lines : List Line) : Except ListingError (List Byte) :=
  match assembleFrom true bootstrapSchedule 1 lines with
  | .error e => .error e
  | .ok bits => .ok (pack bits)

/-! ### The text -/

/-- One more character in front of the pieces after it: a separator opens an empty piece, another joins the first. -/
def addToPieces (separator x : Char) (pieces : List (List Char)) : List (List Char) :=
  if x = separator then [] :: pieces else (x :: pieces.headD []) :: pieces.tail

/-- The pieces of a text between the occurrences of a character. -/
def splitAtChar (separator : Char) (text : List Char) : List (List Char) :=
  text.foldr (addToPieces separator) [[]]

/-- The words of a line, spaces between them, its comment left out: `;` starts one (R107). -/
def lineWords (l : List Char) : List (List Char) :=
  (splitAtChar ' ' (l.takeWhile (fun x => x != ';'))).filter (fun w => w != [])

/-- The value of a digit to a base, a letter in either case (log 23). -/
def digitValue (base : Nat) (x : Char) : Option Nat :=
  (List.range base).find? (fun v => Nat.digitChar v == x || (Nat.digitChar v).toUpper == x)

/-- The value of digits to a base, the first the most significant; none if one of them is no digit to it. -/
def digitsValue (base : Nat) (word : List Char) : Option Nat :=
  word.foldl (fun acc x => acc.bind (fun a => (digitValue base x).map (fun v => base * a + v))) (some 0)

/-- A number in decimal. -/
def readDecimal (w : List Char) : Option Nat := if w = [] then none else digitsValue 10 w

/-- A number in hexadecimal, after its `0x`. -/
def readHex : List Char → Option Nat
  | '0' :: 'x' :: x :: rest => digitsValue 16 (x :: rest)
  | _ => none

/-- A value below a limit. -/
def belowLimit (limit : Nat) (v : Option Nat) : Option Nat := v.filter (fun n => n < limit)

/-- A token from its name and operands: LIT8 takes hexadecimal or decimal, LIT16 hexadecimal, IDX decimal (R107). -/
def readToken (name : List Char) (args : List (List Char)) : Option Instr :=
  if name = ['L', 'I', 'T', '8'] then
    match args with
    | [a] => (belowLimit 256 ((readHex a).or (readDecimal a))).map (fun v => .lit8 (BitVec.ofNat 8 v))
    | _ => none
  else if name = ['L', 'I', 'T', '1', '6'] then
    match args with
    | [a] => (belowLimit 65536 (readHex a)).map (fun v => .lit16 (BitVec.ofNat 16 v))
    | _ => none
  else if name = ['I', 'D', 'X'] then
    match args with
    | [a] => (readDecimal a).map .idx
    | _ => none
  else if name = ['E', 'O', 'S'] then
    match args with
    | [] => some .eos
    | _ => none
  else none

/-- A line from its words: the name may carry `@W` (R107). -/
def readLine (head : List Char) (args : List (List Char)) : Option Line :=
  match splitAtChar '@' head with
  | [name] => (readToken name args).map (fun i => ⟨i, none⟩)
  | [name, w] => (readDecimal w).bind (fun W => (readToken name args).map (fun i => ⟨i, some W⟩))
  | _ => none

/-- The line that some words and their number stand for; no word is no line (log 23). -/
def readWords (numbered : List (List Char) × Nat) : Except ListingError (List Line) :=
  match numbered.1 with
  | [] => .ok []
  | head :: args => ((readLine head args).map (fun line => [line])).elim (.error (.unreadable numbered.2)) .ok

/-- The lines of a listing's text, numbered from 1. -/
def readListing (text : List Char) : Except ListingError (List Line) :=
  ((((splitAtChar '\n' text).map lineWords).zipIdx 1).mapM readWords).map List.flatten

/-- The byte stream of a listing's text. -/
def assembleText (text : List Char) : Except ListingError (List Byte) := readListing text >>= assemble

end Sys2Proof.Machine
end

