-- ==== Sys2Proof/Machine/Platform.lean ====
section
/-! DEFINITION. A platform of `N_INSTANCES` independent cores (60_exceptions.md R284, decision D19): each has its own
copy of all state, and a step of one is a step of that one alone. -/

namespace Sys2Proof.Machine

/-- The instances of a platform; N_INSTANCES is the length (at least 1, OPEN). -/
abbrev Platform := List State

/-- Every instance after power-on reset. -/
def platformReset (n : Nat) : Platform := List.replicate n State.reset

/-- One step of instance `i`, where there is one. -/
def platformStep (p : Platform) (i : Nat) : Option (Host.Outcome Platform Fault Refusal) :=
  match p[i]? with
  | none => none
  | some s =>
    match step s with
    | .next t => some (.next (p.set i t))
    | .fault f => some (.fault f)
    | .refused r => some (.refused r)

end Sys2Proof.Machine
end

