-- ==== Sys2Proof/Machine/Widths.lean ====
section
/-! DEFINITION. The widths a finite implementation gives its registers (10_state.md R41, decision D21). The model itself
holds unbounded naturals. -/

namespace Sys2Proof.Machine

/-- `⌈log2(m+1)⌉`: how many bits hold 0 to `m`. -/
def bitsToHold (m : Nat) : Nat := if m = 0 then 0 else Nat.log2 m + 1

/-- The width of a register whose largest value is a bound: none for an infinite bound. -/
def indexBitsWidth (b : Bounds) : Option Nat := b.maxIndexBits.map bitsToHold

/-- `enlargeIn` is MAX_INDEX_BITS bits wide, which holds values up to 2^(MAX_INDEX_BITS-1). -/
def enlargeInWidth (b : Bounds) : Option Nat := b.maxIndexBits

def countWidth (b : Bounds) : Option Nat := b.maxEntries.map bitsToHold

def iposWidth (b : Bounds) : Option Nat := b.maxInUnits.map bitsToHold

def bposWidth (b : Bounds) : Option Nat := b.maxInBytes.map (fun m => bitsToHold (8 * m))

end Sys2Proof.Machine
end

