-- ==== Sys2Proof/Safety.lean ====
section
/-! DEFINITION. What counts as a safe run: the invariant of a core (10_state.md §3 and §4, 42_dictionary.md §4, 43_encoder.md
§5), the host's duties (20_memory.md R74), and the capacity parameters as limits on what the registers hold (R41). -/

namespace Sys2Proof.Machine

/-- The values of the registers an ENCODE job uses. -/
structure EncView where
  indexBits : Nat
  enlargeIn : Nat
  count     : Nat
  encDict   : EncDict
  pending   : List CodeUnit
  word      : List CodeUnit
  U         : List CodeUnit
  ipos      : Nat
  obits     : List Bool
  deriving DecidableEq, Repr

/-- The values of the registers a DECODE job uses; `word` has none before the first token (R31). -/
structure DecView where
  indexBits : Nat
  enlargeIn : Nat
  count     : Nat
  decDict   : DecDict
  IN        : List Byte
  bpos      : Nat
  out       : List CodeUnit
  deriving DecidableEq, Repr

/-- The state's registers hold these values. -/
structure State.HoldsEnc (s : State) (v : EncView) : Prop where
  indexBits : s.indexBits = some v.indexBits
  enlargeIn : s.enlargeIn = some v.enlargeIn
  count     : s.count = some v.count
  encDict   : s.encDict = some v.encDict
  pending   : s.pending = some v.pending
  word      : s.word = some v.word
  U         : s.U = some v.U
  ipos      : s.ipos = some v.ipos
  obits     : s.obits = some v.obits

/-- The state's registers hold these values. -/
structure State.HoldsDec (s : State) (v : DecView) : Prop where
  indexBits : s.indexBits = some v.indexBits
  enlargeIn : s.enlargeIn = some v.enlargeIn
  count     : s.count = some v.count
  decDict   : s.decDict = some v.decDict
  IN        : s.IN = some v.IN
  bpos      : s.bpos = some v.bpos
  out       : s.out = some v.out

/-- `1 ≤ enlargeIn ≤ 2^(indexBits-1)`, and a CODE field of at least 2 bits (R66, R169). -/
structure ScheduleOk (indexBits enlargeIn : Nat) : Prop where
  width : 2 ≤ indexBits
  low   : 1 ≤ enlargeIn
  high  : enlargeIn ≤ 2 ^ (indexBits - 1)

/-- The keys of the Encoder's dictionary. -/
def keysOf (d : EncDict) : List (List CodeUnit) := d.map Prod.fst

/-- The Encoder's dictionary as R28 says it is: distinct non-empty keys, the indices 3, 4, … one each, `count` the
next; and every unit of a key has a singleton of its own (R200). -/
structure EncDictOk (d : EncDict) (count : Nat) : Prop where
  count    : count = 3 + d.length
  indices  : d.map Prod.snd = List.range' 3 d.length
  distinct : (keysOf d).Nodup
  nonempty : ∀ k ∈ keysOf d, k ≠ []
  units    : ∀ k ∈ keysOf d, ∀ c ∈ k, [c] ∈ keysOf d

/-- Between the steps of an ENCODE job that still has its final word to emit (ENC_SCAN, ENC_FLUSH). -/
structure EncMatching (v : EncView) : Prop where
  schedule : ScheduleOk v.indexBits v.enlargeIn
  dict     : EncDictOk v.encDict v.count
  start    : v.word = [] ↔ v.ipos = 0
  known    : v.word ≠ [] → v.word ∈ keysOf v.encDict
  /-- At most one singleton is pending, and then it is the word (R200, third fact). -/
  pending  : v.pending = [] ∨ ∃ c, v.pending = [c] ∧ v.word = [c]
  /-- No longer key begins with a pending unit. -/
  fresh    : ∀ c ∈ v.pending, ∀ t, c :: t ∈ keysOf v.encDict → t = []
  /-- How far the countdown is behind the index space: what makes every index fit its field (R109). -/
  balance  : v.count + v.enlargeIn = 2 ^ v.indexBits + 1 + v.pending.length

/-- A running job's status registers (R23, R37, R190, R230). -/
structure State.Running (s : State) (d : Direction) : Prop where
  dir    : s.dir = d
  err    : s.err = .noError
  result : s.RESULT = none

/-- The Decoder between two tokens of its loop (R29, R31, R140, R169). -/
structure DecMatching (v : DecView) (word : List CodeUnit) : Prop where
  schedule : ScheduleOk v.indexBits v.enlargeIn
  count    : v.count = v.decDict.length
  entries  : 4 ≤ v.count
  nonempty : ∀ e ∈ v.decDict, e ≠ []
  word     : word ∈ v.decDict
  cursor   : v.bpos ≤ 8 * v.IN.length
  balance  : v.count + v.enlargeIn = 2 ^ v.indexBits

/-- The invariant of a core, by phase (R21). -/
def State.Inv (s : State) : Prop :=
  match s.phase with
  | .idle => s.Running .encode
  | .encScan => s.Running .encode ∧ ∃ v, s.HoldsEnc v ∧ EncMatching v ∧ v.ipos < v.U.length
  | .encFlush => s.Running .encode ∧ ∃ v, s.HoldsEnc v ∧ EncMatching v ∧ v.ipos = v.U.length
  | .encEos => s.Running .encode ∧
      ∃ v, s.HoldsEnc v ∧ ScheduleOk v.indexBits v.enlargeIn ∧ EncDictOk v.encDict v.count ∧ v.pending = [] ∧
        v.ipos = v.U.length
  | .decFirst => s.Running .decode ∧ s.word = none ∧
      ∃ inp, s.HoldsDec ⟨2, 1, 3, [[0#16], [1#16], [2#16]], inp, 0, []⟩
  | .decLoop => s.Running .decode ∧
      ∃ v word, s.HoldsDec v ∧ s.word = some word ∧ DecMatching v word
  | .done => s.err = .noError ∧
      match s.dir, s.RESULT with
      | .encode, some (.bytes _) => True
      | .decode, some (.units _) => True
      | _, _ => False
  | .fail => s.err ≠ .noError ∧ s.RESULT = none

/-- The host's next move keeps its duties: SUBMIT when BUSY = 0 only, with an input of the direction's kind;
READ_RESULT when DONE = 1 only (R73, R74, R106). -/
def State.dutyKept (s : State) : Bool :=
  match s.host with
  | .submit d :: _ =>
    !s.busy && (match decodeJob d with | .ok _ => true | .error _ => false)
  | .readResult :: _ => s.isDone
  | .readStatus :: _ => true
  | .wait :: _ => true
  | [] => true

/-- A register's value, if it holds one, is allowed by a bound. -/
def withinBound {α : Type} (size : α → Nat) (b : Option Nat) (r : Option α) : Prop :=
  ∀ a, r = some a → Bounds.allows b (size a) = true

/-- A result's length is within the output's bound. -/
def Result.within (b : Bounds) : Result → Bool
  | .bytes r => Bounds.allows b.maxOutBytes r.length
  | .units r => Bounds.allows b.maxOutUnits r.length

/-- Every register that a capacity parameter bounds is within it: the five of R41's table (`enlargeIn` at its largest
value, 2^(MAX_INDEX_BITS-1)), and the sequences R276 limits. `pending` has no bound of its own. -/
structure State.WithinBounds (s : State) : Prop where
  indexBits : withinBound id s.bounds.maxIndexBits s.indexBits
  enlargeIn : withinBound id (s.bounds.maxIndexBits.map (fun m => 2 ^ (m - 1))) s.enlargeIn
  count     : withinBound id s.bounds.maxEntries s.count
  encDict   : ∀ d, s.encDict = some d → ∀ k ∈ keysOf d, Bounds.allows s.bounds.maxEntryLen k.length = true
  decDict   : ∀ d, s.decDict = some d → ∀ e ∈ d, Bounds.allows s.bounds.maxEntryLen e.length = true
  word      : withinBound List.length s.bounds.maxEntryLen s.word
  U         : withinBound List.length s.bounds.maxInUnits s.U
  ipos      : withinBound id s.bounds.maxInUnits s.ipos
  IN        : withinBound List.length s.bounds.maxInBytes s.IN
  bpos      : withinBound id (s.bounds.maxInBytes.map (fun m => 8 * m)) s.bpos
  obits     : withinBound (fun b => (b.length + 7) / 8) s.bounds.maxOutBytes s.obits
  out       : withinBound List.length s.bounds.maxOutUnits s.out
  RESULT    : ∀ r, s.RESULT = some r → r.within s.bounds = true

/-- The job ended because a capacity parameter would have been passed (R276, R278). -/
structure State.PastCapacity (t : State) : Prop where
  err    : t.err = .capacityExceeded
  phase  : t.phase = .fail
  result : t.RESULT = none

end Sys2Proof.Machine
end

