-- ==== Sys2Proof/Certificates/Slice0/Obligations.lean ====
section
/-! DEFINITION. The statements for the provers, each a `def Obligations.<Name> : Prop`. -/

open Sys2Proof Sys2Proof.Machine

/-! ### Bits, bytes and fields -/

/-- `rev_n` reverses the low n bits, its value is below 2^n, and doing it twice gives the low n bits back
(00_scope.md §4, R8). -/
def Obligations.ReversalIsAnInvolution : Prop :=
  ∀ n v : Nat, revBits n v < 2 ^ n ∧ (∀ i < n, (revBits n v).testBit i = v.testBit (n - 1 - i)) ∧
    revBits n (revBits n v) = v % 2 ^ n

/-- The natural write appends the low n bits most significant first, ignores the rest, does nothing for n = 0, and
raises CAPACITY_EXCEEDED before appending when the bytes would exceed MAX_OUT_BYTES (R120, R122, R123, R124). -/
def Obligations.NaturalWriteAppendsMsbFirst : Prop :=
  ∀ (s : State) (bits : List Bool) (value n : Nat), s.obits = some bits →
    (n = 0 → sinkWriteBits value n s = .ok () s) ∧
    (n ≠ 0 → Bounds.allows s.bounds.maxOutBytes ((bits.length + n + 7) / 8) = true →
      sinkWriteBits value n s
        = .ok () { s with obits := some (bits ++ (List.range n).map (fun i => value.testBit (n - 1 - i))) }) ∧
    (n ≠ 0 → Bounds.allows s.bounds.maxOutBytes ((bits.length + n + 7) / 8) = false →
      sinkWriteBits value n s = .error (.job (.capacityExceeded (bits.length + n))) s)

/-- The reversed write appends bit 0 of the value first (R62, R121), with the corners of the natural write. -/
def Obligations.ReversedWriteAppendsLsbFirst : Prop :=
  ∀ (s : State) (bits : List Bool) (value n : Nat), s.obits = some bits →
    (n = 0 → sinkWriteRev value n s = .ok () s) ∧
    (n ≠ 0 → Bounds.allows s.bounds.maxOutBytes ((bits.length + n + 7) / 8) = true →
      sinkWriteRev value n s = .ok () { s with obits := some (bits ++ (List.range n).map value.testBit) }) ∧
    (n ≠ 0 → Bounds.allows s.bounds.maxOutBytes ((bits.length + n + 7) / 8) = false →
      sinkWriteRev value n s = .error (.job (.capacityExceeded (bits.length + n))) s)

/-- `pack` gives ⌈L/8⌉ bytes; wire bit k is bit 7 - (k mod 8) of byte k div 8; the bits past L are 0 (R61, R125). -/
def Obligations.PackLaysBitsMsbFirst : Prop :=
  ∀ bits : List Bool, (pack bits).length = (bits.length + 7) / 8 ∧
    ∀ k < 8 * (pack bits).length,
      ((pack bits).getD (k / 8) 0).getLsbD (7 - k % 8) = if h : k < bits.length then bits[k] else false

/-- The byte, accumulator and fill-count form of BitSink finishes with the same buffer (R127). -/
def Obligations.AccumulatorSinkIsEquivalent : Prop :=
  ∀ bits : List Bool, sinkAccFinish (sinkAccBits sinkAccEmpty bits) = pack bits ∧
    (sinkAccBits sinkAccEmpty bits).fill = bits.length % 8

/-- A natural read: nothing for n = 0; END_OF_STREAM with no bit left; TRUNCATED_STREAM with some but fewer than
n; else the n bits, the first as the most significant, and the cursor moved by n (R142 to R145). -/
def Obligations.SourceReadCases : Prop :=
  ∀ (inp : List Byte) (p n : Nat), p ≤ 8 * inp.length →
    (n = 0 → srcReadBits inp p n = .ok (0, p)) ∧
    (n ≠ 0 → p = 8 * inp.length → srcReadBits inp p n = .error (.endOfStream p)) ∧
    (n ≠ 0 → p < 8 * inp.length → 8 * inp.length < p + n →
      srcReadBits inp p n = .error (.truncated p n (8 * inp.length - p))) ∧
    (n ≠ 0 → p + n ≤ 8 * inp.length → ∃ r, srcReadBits inp p n = .ok (r, p + n) ∧ r < 2 ^ n ∧
      ∀ i < n, r.testBit (n - 1 - i) = (inp.getD ((p + i) / 8) 0).getLsbD (7 - (p + i) % 8))

/-- Reading back a field written by the reversed write gives its low n bits, at any bit position and whatever stands
around it (R64, R147). -/
def Obligations.ReversedReadInvertsWrite : Prop :=
  ∀ (before after : List Bool) (value n : Nat),
    srcReadRev (pack (before ++ (List.range n).map value.testBit ++ after)) before.length n
      = .ok (value % 2 ^ n, before.length + n)

/-! ### Encoding -/

/-- Every well-formed token, encoded at its width and placed at any bit position of a stream, decodes to itself, and
the cursor ends right after it (R91, R93, R97, R98, R99). -/
def Obligations.TokenRoundTripAnywhere : Prop :=
  ∀ (p : Place) (i : Instr) (before after : List Bool), i.isToken = true → i.wf p = true →
    decodeToken p.first p.width (pack (before ++ encodeToken p.width i ++ after)) before.length
      = .token i (before.length + wireLength p.width i)

/-- Whatever token the decoder reads is well-formed at its place, lies inside the input, and takes the length its
CODE field tells (R93, R98, R99, R149). -/
def Obligations.DecodedTokensAreWellFormed : Prop :=
  ∀ (p : Place) (inp : List Byte) (bpos q : Nat) (i : Instr), p.check = none →
    decodeToken p.first p.width inp bpos = .token i q →
    i.isToken = true ∧ i.wf p = true ∧ q = bpos + wireLength p.width i ∧ q ≤ 8 * inp.length

/-- A token is decoded from its own bits: an input with the same bits up to the token's end gives the same token,
whatever follows (R103). -/
def Obligations.LaterBitsAreNotRead : Prop :=
  ∀ (first : Bool) (W : Nat) (inp inp' : List Byte) (bpos q : Nat) (i : Instr),
    decodeToken first W inp bpos = .token i q → q ≤ 8 * inp'.length →
    (∀ k < q, inBit inp' k = inBit inp k) → decodeToken first W inp' bpos = .token i q

/-- `dir = 0` with code units is ENCODE of them, `dir = 1` with bytes is DECODE of them, and a descriptor that is a
job is the encoding of that job (R106; that a wrong input kind makes no job is log 24). -/
def Obligations.DescriptorsSelectJobs : Prop :=
  (∀ u, decodeJob ⟨0#1, .units u⟩ = .ok (.encode u)) ∧
  (∀ b, decodeJob ⟨1#1, .bytes b⟩ = .ok (.decode b)) ∧
  (∀ d i, decodeJob d = .ok i ↔ encodeJob i = some d)

/-- Words written out from 30_encoding.md R91 and R108 decode to what they stand for: LIT8 0x41 at W = 2, LIT16 0x3042
at W = 2, EOS at W = 3 from bit 10, IDX 5 at W = 3 from bit 21, and code 3 as the first token. -/
def Obligations.WorkedEncodingsDecode : Prop :=
  decodeToken true 2 [0x20, 0x90] 0 = .token (.lit8 0x41) 10 ∧
  decodeToken true 2 [0x90, 0x83, 0x10] 0 = .token (.lit16 0x3042) 18 ∧
  decodeToken false 3 [0x20, 0x90] 10 = .token .eos 13 ∧
  decodeToken false 3 [0x20, 0x82, 0x15, 0xe8] 21 = .token (.idx 5) 24 ∧
  decodeToken true 2 [0xc0] 0 = .token .illegalFirst 2

/-! ### The width controller and the dictionaries -/

/-- TICK: the countdown goes down by one; at 1 it restarts from 2^(the old width) and the width grows by one, unless
that passes MAX_INDEX_BITS, which raises and writes nothing (R160). -/
def Obligations.TickMovesTheSchedule : Prop :=
  ∀ (s : State) (w e : Nat), s.indexBits = some w → s.enlargeIn = some e → 1 ≤ e →
    (2 ≤ e → tick s = .ok () { s with enlargeIn := some (e - 1) }) ∧
    (e = 1 → Bounds.allows s.bounds.maxIndexBits (w + 1) = true →
      tick s = .ok () { s with enlargeIn := some (2 ^ w), indexBits := some (w + 1) }) ∧
    (e = 1 → Bounds.allows s.bounds.maxIndexBits (w + 1) = false →
      tick s = .error (.job (.capacityExceeded w)) s)

/-- The width stays at k for exactly 2^(k-1) ticks from its start, then is k+1; the Decoder's bootstrap takes three
ticks at width 2 and the fourth ends it (R166, R169). -/
def Obligations.WidthLastsItsTicks : Prop :=
  (∀ k, 2 ≤ k → (∀ j < 2 ^ (k - 1), ticks j ⟨k, 2 ^ (k - 1)⟩ = ⟨k, 2 ^ (k - 1) - j⟩) ∧
    ticks (2 ^ (k - 1)) ⟨k, 2 ^ (k - 1)⟩ = ⟨k + 1, 2 ^ k⟩) ∧
  ticks 3 ⟨2, 4⟩ = ⟨2, 1⟩ ∧ ticks 4 ⟨2, 4⟩ = ⟨3, 4⟩

/-- ASSIGN: the key takes index `count`, which goes up by one, and the schedule stays; past MAX_ENTRIES or
MAX_ENTRY_LEN it raises and writes nothing (R161). -/
def Obligations.AssignGivesTheNextIndex : Prop :=
  ∀ (s : State) (key : List CodeUnit) (n : Nat) (d : EncDict), s.count = some n → s.encDict = some d →
    encLookup d key = none →
    (Bounds.allows s.bounds.maxEntries (n + 1) = true → Bounds.allows s.bounds.maxEntryLen key.length = true →
      ∃ d', assignKey key s = .ok () { s with encDict := some d', count := some (n + 1) } ∧
        encLookup d' key = some n ∧ ∀ k, k ≠ key → encLookup d' k = encLookup d k) ∧
    (Bounds.allows s.bounds.maxEntries (n + 1) = false ∨ Bounds.allows s.bounds.maxEntryLen key.length = false →
      assignKey key s = .error (.job (.capacityExceeded n)) s)

/-- INSERT: the entry is appended at index `count`, which goes up by one, and one tick follows; past MAX_ENTRIES or
MAX_ENTRY_LEN it raises and writes nothing; a duplicate is appended all the same (R162). -/
def Obligations.InsertAppendsThenTicks : Prop :=
  ∀ (s : State) (entry : List CodeUnit) (n : Nat) (d : DecDict), s.count = some n → s.decDict = some d →
    (Bounds.allows s.bounds.maxEntries (n + 1) = true → Bounds.allows s.bounds.maxEntryLen entry.length = true →
      insertEntry entry s = tick { s with decDict := some (d ++ [entry]), count := some (n + 1) }) ∧
    (Bounds.allows s.bounds.maxEntries (n + 1) = false ∨ Bounds.allows s.bounds.maxEntryLen entry.length = false →
      insertEntry entry s = .error (.job (.capacityExceeded n)) s)

/-- RESOLVE: an index below `count` gives its entry, `count` itself the self-extension of the word, and an index
beyond raises CORRUPT_STREAM (R241). -/
def Obligations.ResolveByCount : Prop :=
  ∀ (s : State) (target n : Nat) (d : DecDict) (c : CodeUnit) (rest : List CodeUnit),
    s.count = some n → s.decDict = some d → d.length = n → s.word = some (c :: rest) →
    (∀ h : target < d.length, resolve target s = .ok d[target] s) ∧
    (target = n → resolve target s = .ok (c :: rest ++ [c]) s) ∧
    (n < target → resolve target s = .error (.job (.corruptTarget target n)) s)

/-! ### Reset and the jobs -/

/-- Power-on reset: IDLE, direction 0, no error, STATUS 0x00, and no other register holds a value (R300). -/
def Obligations.ResetHoldsNoValues : Prop :=
  State.reset.phase = .idle ∧ State.reset.dir = .encode ∧ State.reset.err = .noError ∧
  State.reset.status = 0x00#8 ∧ State.reset.RESULT = none ∧ State.reset.indexBits = none ∧
  State.reset.enlargeIn = none ∧ State.reset.count = none ∧ State.reset.encDict = none ∧
  State.reset.decDict = none ∧ State.reset.pending = none ∧ State.reset.word = none ∧ State.reset.U = none ∧
  State.reset.ipos = none ∧ State.reset.IN = none ∧ State.reset.bpos = none ∧ State.reset.obits = none ∧
  State.reset.out = none

/-- ENCODE on a core that is not BUSY: an input within MAX_IN_UNITS starts the job with the Encoder's initial values,
STATUS 0x01, and every other register unchanged; a longer one ends in CAPACITY_EXCEEDED (R163, R190). That the
Decoder's own registers (decDict, IN, bpos, out) are unchanged is the model's reading of R40, against R72 and R301,
which let them end with their job (log 10, unsafe). -/
def Obligations.EncodeStartsAJob : Prop :=
  ∀ (s : State) (u : List CodeUnit), s.busy = false →
    (Bounds.allows s.bounds.maxInUnits u.length = true →
      ∃ t, exec (.encode u) s = .next t ∧ t.status = 0x01#8 ∧
        t = { s with
          dir := .encode, err := .noError, RESULT := none, U := some u, ipos := some 0, encDict := some [],
          count := some 3, indexBits := some 2, enlargeIn := some 2, pending := some [], word := some [],
          obits := some [], phase := if u.length = 0 then .encFlush else .encScan }) ∧
    (Bounds.allows s.bounds.maxInUnits u.length = false →
      exec (.encode u) s
        = .next { s with dir := .encode, err := .capacityExceeded, RESULT := none, phase := .fail })

/-- DECODE on a core that is not BUSY: an input within MAX_IN_BYTES starts the job with the bootstrapped Decoder,
STATUS 0x21, and every other register unchanged; a longer one, or bounds with no room for the bootstrap's three
entries of one unit, ends in CAPACITY_EXCEEDED (R165, R166, R230, R276). That the Encoder's own registers (encDict,
pending, U, ipos, obits) are unchanged is the model's reading of R40, against R72 and R301 (log 10, unsafe). The raise
at MAX_ENTRY_LEN = 0 follows the check of R162 and R276, where R166 and R230 name other bounds only (log 26). -/
def Obligations.DecodeStartsAJob : Prop :=
  ∀ (s : State) (b : List Byte), s.busy = false →
    (Bounds.allows s.bounds.maxInBytes b.length = true →
      ∀ ok, ok = (Bounds.allows s.bounds.maxEntries 3 && Bounds.allows s.bounds.maxEntryLen 1) →
      (ok = true → ∃ t, exec (.decode b) s = .next t ∧ t.status = 0x21#8 ∧
        t = { s with
          dir := .decode, err := .noError, RESULT := none, IN := some b, bpos := some 0,
          decDict := some [[0x0000], [0x0001], [0x0002]], count := some 3, indexBits := some 2,
          enlargeIn := some 1, out := some [], word := none, phase := .decFirst }) ∧
      (ok = false → ∃ t, exec (.decode b) s = .next t ∧ t.PastCapacity)) ∧
    (Bounds.allows s.bounds.maxInBytes b.length = false →
      exec (.decode b) s
        = .next { s with dir := .decode, err := .capacityExceeded, RESULT := none, phase := .fail })

/-- Where the model stops by name, and nowhere else by refusal: a job while BUSY = 1 (R309, log 4), a descriptor of
the wrong input kind (R106, log 24), a token at a phase for which no rule executes it (log 11), an index that is a
control code (R69, R93). As the first token an index is ILLEGAL_FIRST (R101, D6, log 11). All of it is the model's. -/
def Obligations.StopsAreNamed : Prop :=
  ∀ s : State,
    (s.busy = true → (∀ u, exec (.encode u) s = .refused .submitWhileBusy) ∧
      (∀ b, exec (.decode b) s = .refused .submitWhileBusy)) ∧
    (∀ d rest, s.host = .submit d :: rest → decodeJob d = .error .inputKind → step s = .refused .inputKind) ∧
    (s.busy = false ∨ s.phase = .encEos →
      (∀ v, exec (.lit8 v) s = .refused (.noTokenAt s.phase)) ∧
      (∀ v, exec (.lit16 v) s = .refused (.noTokenAt s.phase)) ∧
      (∀ n, 3 ≤ n → exec (.idx n) s = .refused (.noTokenAt s.phase))) ∧
    (s.busy = false ∨ s.phase = .encScan ∨ s.phase = .encFlush → exec .eos s = .refused (.noTokenAt s.phase)) ∧
    (s.phase ≠ .decFirst → exec .illegalFirst s = .refused (.noTokenAt s.phase)) ∧
    (∀ n, n < 3 → exec (.idx n) s = .refused (.controlCodeAsIndex n)) ∧
    (∀ n, 3 ≤ n → s.phase = .decFirst → exec (.idx n) s = exec .illegalFirst s) ∧
    (∀ i r, exec i s = .refused r →
      r = .submitWhileBusy ∨ r = .noTokenAt s.phase ∨ ∃ n, i = .idx n ∧ n < 3 ∧ r = .controlCodeAsIndex n)

/-- A job sees nothing of what stood in the core before it: two cores with the same bounds that are handed the same
job run step for step with the same STATUS and the same RESULT (R5, R72, R170). -/
def Obligations.LeftoversAreNeverSeen : Prop :=
  ∀ (s s' : State) (d : Descriptor) (k : Nat) (t : State), s.busy = false → s'.busy = false →
    s.bounds = s'.bounds → s.host = [.submit d] → s'.host = [.submit d] → 1 ≤ k →
    Sys2Proof.core.run k s = .next t →
    ∃ t', Sys2Proof.core.run k s' = .next t' ∧ t.status = t'.status ∧ t.RESULT = t'.RESULT

/-! ### The tokens -/

/-- A literal as the first token: its singleton is inserted, is the word, and is appended to the output; one tick; the
loop follows. Past MAX_OUT_UNITS, MAX_ENTRIES, MAX_ENTRY_LEN or MAX_INDEX_BITS it ends in CAPACITY_EXCEEDED (R232,
R233, after the operand's read; R276). -/
def Obligations.FirstLiteralRuns : Prop :=
  ∀ (s : State) (n w e : Nat) (d : DecDict) (o : List CodeUnit) (c : CodeUnit) (ok : Bool), s.phase = .decFirst →
    s.count = some n → s.decDict = some d → s.indexBits = some w → s.enlargeIn = some e → 1 ≤ e → s.out = some o →
    ok = (Bounds.allows s.bounds.maxOutUnits (o.length + 1) && entryFits s.bounds n 1 &&
      tickFits s.bounds ⟨w, e⟩) →
    ∃ t, exec (.lit16 c) s = .next t ∧ (∀ v : Byte, v.toNat = c.toNat → exec (.lit8 v) s = .next t) ∧
      (ok = true → t = { s with
        decDict := some (d ++ [[c]]), count := some (n + 1),
        indexBits := some (if e = 1 then w + 1 else w), enlargeIn := some (if e = 1 then 2 ^ w else e - 1),
        word := some [c], out := some (o ++ [c]), phase := .decLoop }) ∧
      (ok = false → t.PastCapacity)

/-- A later literal: its singleton takes the next index, is output, and the OLD word extended by it takes the index
after that; two ticks; the word is the singleton. Past a bound at any of the five checks it ends in CAPACITY_EXCEEDED
(R237, R238 after the operand's read; R242, R276, R306, R307). -/
def Obligations.LaterLiteralRuns : Prop :=
  ∀ (s : State) (w e : Nat) (d : DecDict) (o word : List CodeUnit) (c : CodeUnit) (ok : Bool), s.phase = .decLoop →
    s.count = some d.length → s.decDict = some d → s.indexBits = some w → s.enlargeIn = some e → 1 ≤ e →
    s.out = some o → s.word = some word →
    ok = (entryFits s.bounds d.length 1 && tickFits s.bounds ⟨w, e⟩ &&
      Bounds.allows s.bounds.maxOutUnits (o.length + 1) &&
      entryFits s.bounds (d.length + 1) (word.length + 1) && tickFits s.bounds (ticks 1 ⟨w, e⟩)) →
    ∃ t, exec (.lit16 c) s = .next t ∧ (∀ v : Byte, v.toNat = c.toNat → exec (.lit8 v) s = .next t) ∧
      (ok = true → t = { s with
        decDict := some (d ++ [[c], word ++ [c]]), count := some (d.length + 2),
        indexBits := some (ticks 2 ⟨w, e⟩).indexBits, enlargeIn := some (ticks 2 ⟨w, e⟩).enlargeIn,
        word := some [c], out := some (o ++ [c]) }) ∧
      (ok = false → t.PastCapacity)

/-- IDX of an entry, or of `count` itself: the entry (the self-extension of the word) is output, the OLD word extended
by the entry's first unit takes the next index, one tick, and the word is the entry. Past a bound at any of the three
checks it ends in CAPACITY_EXCEEDED (R240, R241, R242, R276). -/
def Obligations.IndexTokenRuns : Prop :=
  ∀ (s : State) (n w e : Nat) (d : DecDict) (o word entry : List CodeUnit) (c : CodeUnit) (ok : Bool),
    s.phase = .decLoop →
    3 ≤ n → s.count = some d.length → s.decDict = some d → s.indexBits = some w → s.enlargeIn = some e → 1 ≤ e →
    s.out = some o → s.word = some word → entry.head? = some c →
    (d[n]? = some entry ∨ n = d.length ∧ word.head? = some c ∧ entry = word ++ [c]) →
    ok = (Bounds.allows s.bounds.maxOutUnits (o.length + entry.length) &&
      entryFits s.bounds d.length (word.length + 1) && tickFits s.bounds ⟨w, e⟩) →
    (ok = true → exec (.idx n) s = .next { s with
      decDict := some (d ++ [word ++ [c]]), count := some (d.length + 1),
      indexBits := some (if e = 1 then w + 1 else w), enlargeIn := some (if e = 1 then 2 ^ w else e - 1),
      word := some entry, out := some (o ++ entry) }) ∧
    (ok = false → ∃ t, exec (.idx n) s = .next t ∧ t.PastCapacity)

/-- IDX beyond `count` ends the job with CORRUPT_STREAM, before any capacity check, and writes no other register
(R100, R241, R277, R278). -/
def Obligations.IndexBeyondCountIsCorrupt : Prop :=
  ∀ (s : State) (n k : Nat), s.phase = .decLoop → s.count = some k → 3 ≤ n → k < n →
    exec (.idx n) s = .next { s with err := .corruptStream, phase := .fail, RESULT := none }

/-- EOS ends a DECODE job: as the first token with the empty sequence, later with the output so far; no other register
is written (R234, R239, R279). -/
def Obligations.EosEndsDecode : Prop :=
  ∀ s : State,
    (s.phase = .decFirst → exec .eos s = .next { s with RESULT := some (.units []), phase := .done }) ∧
    (∀ o, s.phase = .decLoop → s.out = some o →
      exec .eos s = .next { s with RESULT := some (.units o), phase := .done })

/-- Code 3 as the first token ends the job with CORRUPT_STREAM: from STATUS 0x21 to 0x2C, no other register written
(R101, R235). -/
def Obligations.IllegalFirstIsCorrupt : Prop :=
  ∀ (s : State) (p : Nat), s.phase = .decFirst → s.bpos = some p → s.dir = .decode →
    ∃ t, exec .illegalFirst s = .next t ∧ t.status = 0x2C#8 ∧
      t = { s with err := .corruptStream, phase := .fail, RESULT := none }

/-- A literal the Encoder emits: its two fields are appended at the width before the ticks, two ticks follow, and its
unit is no longer pending. Past MAX_OUT_BYTES or MAX_INDEX_BITS it ends in CAPACITY_EXCEEDED (R193, R194, R276, R304).
For a unit that is not pending, or a LIT16 below 256, which R192 never emits, this is the model's (log 25). -/
def Obligations.EncoderEmitsLiterals : Prop :=
  ∀ (s : State) (w e : Nat) (p : List CodeUnit) (bits : List Bool) (c : CodeUnit),
    s.phase = .encScan ∨ s.phase = .encFlush → s.indexBits = some w → s.enlargeIn = some e → 1 ≤ e →
    s.pending = some p → s.obits = some bits →
    (∀ ok, ok = (Bounds.allows s.bounds.maxOutBytes ((bits.length + (w + 16) + 7) / 8) &&
        tickFits s.bounds ⟨w, e⟩ && tickFits s.bounds (ticks 1 ⟨w, e⟩)) →
      (ok = true → exec (.lit16 c) s = .next { s with
        obits := some (bits ++ (List.range w).map (Nat.testBit 1) ++ (List.range 16).map c.toNat.testBit),
        indexBits := some (ticks 2 ⟨w, e⟩).indexBits, enlargeIn := some (ticks 2 ⟨w, e⟩).enlargeIn,
        pending := some (p.filter (fun x => x != c)) }) ∧
      (ok = false → ∃ t, exec (.lit16 c) s = .next t ∧ t.PastCapacity)) ∧
    (∀ (v : Byte) (ok : Bool), ok = (Bounds.allows s.bounds.maxOutBytes ((bits.length + (w + 8) + 7) / 8) &&
        tickFits s.bounds ⟨w, e⟩ && tickFits s.bounds (ticks 1 ⟨w, e⟩)) →
      (ok = true → exec (.lit8 v) s = .next { s with
        obits := some (bits ++ (List.range w).map (Nat.testBit 0) ++ (List.range 8).map v.toNat.testBit),
        indexBits := some (ticks 2 ⟨w, e⟩).indexBits, enlargeIn := some (ticks 2 ⟨w, e⟩).enlargeIn,
        pending := some (p.filter (fun x => x != v.setWidth 16)) }) ∧
      (ok = false → ∃ t, exec (.lit8 v) s = .next t ∧ t.PastCapacity))

/-- An index the Encoder emits: the low W bits of it are appended, then one tick. Past MAX_OUT_BYTES (a field of no bit
checks nothing, R122) or MAX_INDEX_BITS it ends in CAPACITY_EXCEEDED (R123, R195, R276). For an index of no entry,
which R195 never emits, this is the model's (log 25). -/
def Obligations.EncoderEmitsIndices : Prop :=
  ∀ (s : State) (n w e : Nat) (bits : List Bool) (ok : Bool), s.phase = .encScan ∨ s.phase = .encFlush → 3 ≤ n →
    s.indexBits = some w → s.enlargeIn = some e → 1 ≤ e → s.obits = some bits →
    ok = ((w == 0 || Bounds.allows s.bounds.maxOutBytes ((bits.length + w + 7) / 8)) && tickFits s.bounds ⟨w, e⟩) →
    (ok = true → exec (.idx n) s = .next { s with
      obits := some (bits ++ (List.range w).map n.testBit),
      indexBits := some (if e = 1 then w + 1 else w), enlargeIn := some (if e = 1 then 2 ^ w else e - 1) }) ∧
    (ok = false → ∃ t, exec (.idx n) s = .next t ∧ t.PastCapacity)

/-- ENC_EOS: the EOS field at the current width, then RESULT is the packed string and the job is DONE with STATUS 0x02;
no tick, no other register written. Past MAX_OUT_BYTES it ends in CAPACITY_EXCEEDED, STATUS 0x10 (R197, R78, R276). -/
def Obligations.EncoderEmitsEos : Prop :=
  ∀ (s : State) (w : Nat) (bits : List Bool) (ok : Bool), s.phase = .encEos → s.dir = .encode → s.err = .noError →
    s.indexBits = some w → s.obits = some bits →
    ok = (w == 0 || Bounds.allows s.bounds.maxOutBytes ((bits.length + w + 7) / 8)) →
    ∃ t, exec .eos s = .next t ∧
      (ok = true → t.status = 0x02#8 ∧ t = { s with
        obits := some (bits ++ (List.range w).map (Nat.testBit 2)),
        RESULT := some (.bytes (pack (bits ++ (List.range w).map (Nat.testBit 2)))), phase := .done }) ∧
      (ok = false → t.status = 0x10#8 ∧ t = { s with err := .capacityExceeded, phase := .fail, RESULT := none })

/-! ### The Encoder's steps -/

/-- EMIT is exactly one token: LIT8 of a pending singleton below 256, LIT16 of another pending singleton, and IDX of
the word's index otherwise (R192). -/
def Obligations.EmitIsOneToken : Prop :=
  ∀ (s : State) (w : Nat) (p word : List CodeUnit) (d : EncDict), s.phase = .encScan ∨ s.phase = .encFlush →
    s.indexBits = some w → s.pending = some p → s.encDict = some d →
    (∀ c, word = [c] → c ∈ p → c.toNat < 256 → perform (emit word) s = exec (.lit8 (c.setWidth 8)) s) ∧
    (∀ c, word = [c] → c ∈ p → 256 ≤ c.toNat → perform (emit word) s = exec (.lit16 c) s) ∧
    (∀ n, (∀ c, word = [c] → c ∉ p) → encLookup d word = some n → 3 ≤ n →
      perform (emit word) s = exec (.idx n) s)

/-- ENC_UNIT. First sight gives `[c]` the next index and makes it pending; then a known candidate becomes the word
with nothing emitted, and an unknown one is given an index after the word is emitted, the word being `[c]`; the
cursor moves by one, and ENC_FLUSH follows the last unit. An ASSIGN past MAX_ENTRIES or MAX_ENTRY_LEN ends in
CAPACITY_EXCEEDED, and an emission that ends the job ends the step (R191, R201, R276, R308). -/
def Obligations.EncUnitStep : Prop :=
  ∀ (s : State) (u word p : List CodeUnit) (i n : Nat) (c : CodeUnit) (d : EncDict),
    s.phase = .encScan → s.host = [] → s.U = some u → s.ipos = some i → u[i]? = some c → s.word = some word →
    s.encDict = some d → s.count = some n → s.pending = some p →
    (encLookup d [c] = none → entryFits s.bounds n 1 = false →
      step s = .next { s with err := .capacityExceeded, phase := .fail, RESULT := none }) ∧
    (∀ (s1 : State) (d1 : EncDict),
      (encLookup d [c] ≠ none ∧ s1 = s ∨
        encLookup d [c] = none ∧ entryFits s.bounds n 1 = true ∧
          s1 = { s with
            encDict := some (d ++ [([c], n)]), count := some (n + 1),
            pending := some (if c ∈ p then p else p ++ [c]) }) →
      s1.encDict = some d1 →
      (encLookup d1 (word ++ [c]) ≠ none →
        step s = .next { s1 with
          word := some (word ++ [c]), ipos := some (i + 1),
          phase := if i + 1 = u.length then .encFlush else .encScan }) ∧
      (∀ t, encLookup d1 (word ++ [c]) = none → perform (emit word) s1 = .next t →
        (t.phase = .fail → step s = .next t) ∧
        (∀ n1, t.phase = .encScan → t.count = some n1 → entryFits t.bounds n1 (word.length + 1) = false →
          step s = .next { t with err := .capacityExceeded, phase := .fail, RESULT := none }) ∧
        (∀ n1, t.phase = .encScan → t.count = some n1 → entryFits t.bounds n1 (word.length + 1) = true →
          step s = .next { t with
            encDict := some (d1 ++ [(word ++ [c], n1)]), count := some (n1 + 1), word := some [c],
            ipos := some (i + 1), phase := if i + 1 = u.length then .encFlush else .encScan })))

/-- ENC_FLUSH: a non-empty word is emitted with no ASSIGN, an empty one is not; ENC_EOS follows, unless the emission
ends the job (R196). -/
def Obligations.EncFlushStep : Prop :=
  ∀ (s : State) (word : List CodeUnit), s.phase = .encFlush → s.host = [] → s.word = some word →
    (word = [] → step s = .next { s with phase := .encEos }) ∧
    (∀ t, word ≠ [] → perform (emit word) s = .next t →
      (t.phase = .encFlush → step s = .next { t with phase := .encEos }) ∧ (t.phase = .fail → step s = .next t))

/-- Every index the Encoder emits fits its CODE field: in a state of the invariant, a word that is sent as an index
has one below 2^W (R109). -/
def Obligations.EmittedIndexFitsItsField : Prop :=
  ∀ (s : State) (w n : Nat) (p word : List CodeUnit) (d : EncDict), s.Inv →
    s.phase = .encScan ∨ s.phase = .encFlush → s.indexBits = some w → s.pending = some p → s.word = some word →
    s.encDict = some d → (∀ c, word = [c] → c ∉ p) → encLookup d word = some n → 3 ≤ n ∧ n < 2 ^ w

/-! ### Frames -/

/-- What a token leaves alone when the Decoder runs it: the Encoder's registers, the input, the cursor, the direction,
the bounds and the host's side; EOS, an illegal first token and an index as the first token leave the Decoder's alone
too. No stream has an index as its first token, and that it does what an illegal first token does is the model's (log
11); an index above `count` later on is IndexBeyondCountIsCorrupt's. -/
def Obligations.DecoderTokenFrame : Prop :=
  ∀ (s t : State) (i : Instr), s.phase = .decFirst ∨ s.phase = .decLoop → i.isToken = true →
    exec i s = .next t →
    (t.encDict = s.encDict ∧ t.pending = s.pending ∧ t.U = s.U ∧ t.ipos = s.ipos ∧ t.obits = s.obits) ∧
    (t.IN = s.IN ∧ t.bpos = s.bpos ∧ t.dir = s.dir) ∧
    (t.bounds = s.bounds ∧ t.host = s.host ∧ t.seen = s.seen) ∧
    (t.busy = true → t.err = s.err ∧ t.RESULT = s.RESULT) ∧
    (i = .eos ∨ i = .illegalFirst ∨ s.phase = .decFirst ∧ (∃ n, i = .idx n) →
      t.decDict = s.decDict ∧ t.count = s.count ∧ t.indexBits = s.indexBits ∧ t.enlargeIn = s.enlargeIn ∧
      t.word = s.word ∧ t.out = s.out)

/-- What a token leaves alone when the Encoder emits it: the Decoder's registers, its own input, cursor, dictionary,
count and word, the direction, the bounds and the host's side; an index and EOS leave `pending` alone, and EOS the
schedule. For a unit that is not pending, a LIT16 below 256 and an index of no entry, which R192 never emits, this is
the model's (log 25, unsafe). -/
def Obligations.EncoderTokenFrame : Prop :=
  ∀ (s t : State) (i : Instr), s.phase = .encScan ∨ s.phase = .encFlush ∨ s.phase = .encEos → i.isToken = true →
    exec i s = .next t →
    (t.decDict = s.decDict ∧ t.IN = s.IN ∧ t.bpos = s.bpos ∧ t.out = s.out) ∧
    (t.U = s.U ∧ t.ipos = s.ipos ∧ t.encDict = s.encDict ∧ t.count = s.count ∧ t.word = s.word ∧
      t.dir = s.dir) ∧
    (t.bounds = s.bounds ∧ t.host = s.host ∧ t.seen = s.seen) ∧
    (t.busy = true → t.phase = s.phase ∧ t.err = s.err ∧ t.RESULT = s.RESULT) ∧
    ((∃ n, i = .idx n) ∨ i = .eos → t.pending = s.pending) ∧
    (i = .eos → t.indexBits = s.indexBits ∧ t.enlargeIn = s.enlargeIn)

/-- What a job submission leaves alone: the bounds, the host's side and the other direction's registers. That the other
direction's registers survive is the model's reading: R40 names no writer of them in R190 and R230, while R72 and R301
have a job's registers end with the job, so the hardware may hold anything there (log 10, unsafe). -/
def Obligations.JobFrame : Prop :=
  ∀ (s t : State),
    (∀ u, exec (.encode u) s = .next t →
      (t.decDict = s.decDict ∧ t.IN = s.IN ∧ t.bpos = s.bpos ∧ t.out = s.out) ∧
      (t.bounds = s.bounds ∧ t.host = s.host ∧ t.seen = s.seen)) ∧
    (∀ b, exec (.decode b) s = .next t →
      (t.encDict = s.encDict ∧ t.pending = s.pending ∧ t.U = s.U ∧ t.ipos = s.ipos ∧ t.obits = s.obits) ∧
      (t.bounds = s.bounds ∧ t.host = s.host ∧ t.seen = s.seen))

/-! ### The step -/

/-- A step runs the decoded token: when the input at the cursor decodes to i, the step is exec of i with the cursor
moved past the token's bits, a host's `wait` (log 3) being dropped first; and the step of ENC_EOS is exec of EOS
(R231, R236, R197). -/
def Obligations.StepRunsTheDecodedToken : Prop :=
  ∀ (s : State) (rest : List HostMove), s.host = [] ∧ rest = [] ∨ s.host = .wait :: rest →
    (∀ (w p q : Nat) (inp : List Byte) (i : Instr), s.indexBits = some w → s.IN = some inp → s.bpos = some p →
      s.phase = .decFirst ∨ s.phase = .decLoop → decodeToken (s.phase == .decFirst) w inp p = .token i q →
      step s = exec i { s with bpos := some q, host := rest }) ∧
    (s.phase = .encEos → step s = exec .eos { s with host := rest })

/-- A failed read ends the job with the read's own error, unchanged, and nothing later of the step runs; the cursor is
where the last good read left it (R146, R148, R245, R278). -/
def Obligations.FailedReadEndsTheJob : Prop :=
  ∀ (s : State) (w p q : Nat) (inp : List Byte) (e : ReadError), s.indexBits = some w → s.IN = some inp →
    s.bpos = some p → s.phase = .decFirst ∨ s.phase = .decLoop → s.host = [] →
    decodeToken (s.phase == .decFirst) w inp p = .stop e q →
    step s = .next { s with
      bpos := some q, phase := .fail, RESULT := none,
      err := match e with | .endOfStream _ => .endOfStream | .truncated _ _ _ => .truncatedStream }

/-- The host's moves: SUBMIT runs the descriptor's job, READ_STATUS gives STATUS at any time, READ_RESULT gives RESULT
when DONE = 1; neither read changes the core (R73). That DONE = 0 stops the model, and that what was read is recorded in
`seen`, are the model's (R311, logs 5 and 6). -/
def Obligations.HostMovesAreMade : Prop :=
  ∀ (s : State) (rest : List HostMove),
    (∀ d i, s.host = .submit d :: rest → decodeJob d = .ok i → step s = exec i { s with host := rest }) ∧
    (s.host = .readStatus :: rest →
      step s = .next { s with host := rest, seen := s.seen ++ [.status s.status] }) ∧
    (∀ r, s.host = .readResult :: rest → s.phase = .done → s.RESULT = some r →
      step s = .next { s with host := rest, seen := s.seen ++ [.result r] }) ∧
    (s.host = .readResult :: rest → s.phase ≠ .done → step s = .fault .resultNotDone)

/-- An IDLE, DONE or FAIL core takes no step until SUBMIT: all its state survives the wait unchanged (R281, R287).
That such a wait is a step of the model is log 7. -/
def Obligations.EndedCoreWaits : Prop :=
  ∀ s : State, s.phase = .idle ∨ s.phase = .done ∨ s.phase = .fail → s.host = [] → step s = .next s

/-- A register that holds no value is never read as zero: its read operation, which every rule goes through, stops with
the fault that names it; and at the level of the step or of an instruction, each of the fourteen registers has a rule
that stops so (R39, R288, R300, R311; the form of the stop is log 1). -/
def Obligations.UnheldRegistersFault : Prop :=
  (∀ s : State,
    (s.indexBits = none → readIndexBits s = .error (.fault (.noValue .indexBits)) s) ∧
    (s.enlargeIn = none → readEnlargeIn s = .error (.fault (.noValue .enlargeIn)) s) ∧
    (s.count = none → readCount s = .error (.fault (.noValue .count)) s) ∧
    (s.encDict = none → readEncDict s = .error (.fault (.noValue .encDict)) s) ∧
    (s.decDict = none → readDecDict s = .error (.fault (.noValue .decDict)) s) ∧
    (s.pending = none → readPending s = .error (.fault (.noValue .pending)) s) ∧
    (s.word = none → readWord s = .error (.fault (.noValue .word)) s) ∧
    (s.U = none → readU s = .error (.fault (.noValue .U)) s) ∧
    (s.ipos = none → readIpos s = .error (.fault (.noValue .ipos)) s) ∧
    (s.IN = none → readIN s = .error (.fault (.noValue .IN)) s) ∧
    (s.bpos = none → readBpos s = .error (.fault (.noValue .bpos)) s) ∧
    (s.obits = none → readObits s = .error (.fault (.noValue .obits)) s) ∧
    (s.out = none → readOut s = .error (.fault (.noValue .out)) s)) ∧
  (∀ s : State, s.host = [] → s.phase = .decFirst ∨ s.phase = .decLoop →
    (s.indexBits = none → step s = .fault (.noValue .indexBits)) ∧
    (s.indexBits ≠ none → s.IN = none → step s = .fault (.noValue .IN)) ∧
    (s.indexBits ≠ none → s.IN ≠ none → s.bpos = none → step s = .fault (.noValue .bpos))) ∧
  (∀ s : State, s.host = [] → s.phase = .encScan →
    (s.U = none → step s = .fault (.noValue .U)) ∧
    (s.U ≠ none → s.ipos = none → step s = .fault (.noValue .ipos)) ∧
    (∀ u i, s.U = some u → s.ipos = some i → i < u.length → s.encDict = none → step s = .fault (.noValue .encDict))) ∧
  (∀ s : State, s.host = [] → s.phase = .encFlush →
    (s.word = none → step s = .fault (.noValue .word)) ∧
    (∀ a l, s.word = some (a :: l) → s.indexBits ≠ none → s.pending = none → step s = .fault (.noValue .pending))) ∧
  (∀ s : State, s.host = [] → s.phase = .encEos →
    (s.indexBits = none → step s = .fault (.noValue .indexBits)) ∧
    (∀ w, s.indexBits = some w → w ≠ 0 → s.obits = none → step s = .fault (.noValue .obits))) ∧
  (∀ (s : State) (n w : Nat) (bits : List Bool), s.phase = .encScan ∨ s.phase = .encFlush → 3 ≤ n →
    s.indexBits = some w → s.obits = some bits →
    Bounds.allows s.bounds.maxOutBytes ((bits.length + w + 7) / 8) = true → s.enlargeIn = none →
    exec (.idx n) s = .fault (.noValue .enlargeIn)) ∧
  (∀ (s : State) (n : Nat), s.phase = .decLoop → 3 ≤ n →
    (s.count = none → exec (.idx n) s = .fault (.noValue .count)) ∧
    (∀ k, s.count = some k → n < k → s.decDict = none → exec (.idx n) s = .fault (.noValue .decDict)) ∧
    (s.count = some n → s.word = none → exec (.idx n) s = .fault (.noValue .word)) ∧
    (s.out = none → exec .eos s = .fault (.noValue .out))) ∧
  (∀ (s : State) (rest : List HostMove), s.host = .readResult :: rest → s.phase = .done → s.RESULT = none →
    step s = .fault (.noValue .RESULT))

/-- STATUS, bit by bit, and in a state of the invariant it is one of the thirteen values R24 lists. -/
def Obligations.StatusIsWhatR24Says : Prop :=
  (∀ s : State, s.status.getLsbD 0 = s.phase.busy ∧ s.status.getLsbD 1 = (s.phase == .done) ∧
    s.status.extractLsb' 2 3 = s.err.code ∧ s.status.getLsbD 5 = (s.dir == .decode) ∧
    s.status.extractLsb' 6 2 = 0#2) ∧
  (∀ s : State, s.Inv → s.status ∈ [0x00#8, 0x01#8, 0x21#8, 0x02#8, 0x22#8, 0x04#8, 0x08#8, 0x0C#8, 0x10#8,
    0x24#8, 0x28#8, 0x2C#8, 0x30#8])

/-- Registers that only grow during a job: an index keeps its entry, the count, the width and the cursors never go
back, and the outputs are only appended to (R25, R29, R33, R34, R35, R36, R167, R168). -/
def Obligations.JobRegistersOnlyGrow : Prop :=
  ∀ s t : State, s.busy = true → step s = .next t →
    (∀ d, s.encDict = some d → ∃ x, t.encDict = some (d ++ x)) ∧
    (∀ d, s.decDict = some d → ∃ x, t.decDict = some (d ++ x)) ∧
    (∀ n, s.count = some n → ∃ m, t.count = some m ∧ n ≤ m) ∧
    (∀ w, s.indexBits = some w → ∃ m, t.indexBits = some m ∧ w ≤ m) ∧
    (∀ i, s.ipos = some i → ∃ m, t.ipos = some m ∧ i ≤ m ∧ m ≤ i + 1) ∧
    (∀ p, s.bpos = some p → ∃ m, t.bpos = some m ∧ p ≤ m) ∧
    (∀ b, s.obits = some b → ∃ x, t.obits = some (b ++ x)) ∧
    (∀ o, s.out = some o → ∃ x, t.out = some (o ++ x))

/-- The core never writes its input, and no step changes the direction, the bounds or what the host asked for next
during a job (R22, R32, R77). -/
def Obligations.InputIsNeverWritten : Prop :=
  ∀ s t : State, s.busy = true → step s = .next t →
    t.U = s.U ∧ t.IN = s.IN ∧ t.dir = s.dir ∧ t.bounds = s.bounds ∧ t.host = s.host.tail

/-- Completion is atomic: a step of a running job leaves it running with no RESULT, or DONE with its whole RESULT and
no error, or in FAIL with an error and no RESULT (R75). -/
def Obligations.CompletionIsAtomic : Prop :=
  ∀ s t : State, s.busy = true → s.RESULT = none → s.err = .noError → step s = .next t →
    (t.busy = true ∧ t.RESULT = none ∧ t.err = .noError) ∨
    (t.phase = .done ∧ t.RESULT ≠ none ∧ t.err = .noError) ∨
    (t.phase = .fail ∧ t.RESULT = none ∧ t.err ≠ .noError)

/-- The only error of an ENCODE job is CAPACITY_EXCEEDED (R198, R275). -/
def Obligations.EncodeFailsOnCapacityOnly : Prop :=
  ∀ s t : State, s.phase = .encScan ∨ s.phase = .encFlush ∨ s.phase = .encEos → step s = .next t →
    t.phase = .fail → t.err = .capacityExceeded

/-- CORRUPT_STREAM arises in a running DECODE job in exactly two cases: a first code 3, and a later index above the
count (R273). -/
def Obligations.CorruptStreamInTwoCasesOnly : Prop :=
  ∀ (s t : State) (w p n : Nat) (inp : List Byte), s.Inv → s.phase = .decFirst ∨ s.phase = .decLoop → s.host = [] →
    s.indexBits = some w → s.IN = some inp → s.bpos = some p → s.count = some n → step s = .next t →
    (t.err = .corruptStream ↔
      ∃ i q, decodeToken (s.phase == .decFirst) w inp p = .token i q ∧
        (i = .illegalFirst ∨ ∃ k, i = .idx k ∧ n < k))

/-! ### Invariants -/

/-- The invariant holds after power-on reset, and every register is within the bounds, which are ∞ (R300; that the
bounds are is log 2). -/
def Obligations.InvariantAtReset : Prop :=
  State.reset.Inv ∧ State.reset.WithinBounds ∧ State.reset.bounds.legal = true

/-- Every step keeps the invariant (R21, R23, R24, R26 to R31, R37, R169, R200), from every state that meets it. -/
def Obligations.StepKeepsTheInvariant : Prop :=
  ∀ s t : State, s.Inv → step s = .next t → t.Inv

/-- No run that keeps the host's duties reaches a fault or a refusal: from every state of the invariant whose next
host move keeps them, the step answers a next state (R39, R149, R288). -/
def Obligations.DutifulRunsNeverStop : Prop :=
  ∀ s : State, s.Inv → s.dutyKept = true → ∃ t, step s = .next t

/-- The capacity parameters bound the registers, and every step keeps them so, when the parameters are legal: the five
of R41's table and the sequences of R276. So no counter wraps: where a bound would be passed the job ends in
CAPACITY_EXCEEDED instead (R7, R41, R276). -/
def Obligations.StepKeepsWithinBounds : Prop :=
  ∀ s t : State, s.bounds.legal = true → s.WithinBounds → step s = .next t → t.bounds = s.bounds ∧ t.WithinBounds

/-- The finite widths of R41: in a state within legal bounds each of the five registers holds a value below 2^(its
width); and each width but that of `enlargeIn`, which is MAX_INDEX_BITS, is the least whose values go up to the
register's bound, an infinite bound having none (R41, R169). -/
def Obligations.FiniteWidthsSuffice : Prop :=
  (∀ s : State, s.bounds.legal = true → s.WithinBounds →
    (∀ w v, indexBitsWidth s.bounds = some w → s.indexBits = some v → v < 2 ^ w) ∧
    (∀ w v, enlargeInWidth s.bounds = some w → s.enlargeIn = some v → v < 2 ^ w) ∧
    (∀ w v, countWidth s.bounds = some w → s.count = some v → v < 2 ^ w) ∧
    (∀ w v, iposWidth s.bounds = some w → s.ipos = some v → v < 2 ^ w) ∧
    (∀ w v, bposWidth s.bounds = some w → s.bpos = some v → v < 2 ^ w)) ∧
  (∀ (b : Bounds) (w : Nat),
    (indexBitsWidth b = some w ↔ ∃ m, b.maxIndexBits = some m ∧ ∀ k, m < 2 ^ k ↔ w ≤ k) ∧
    (enlargeInWidth b = some w ↔ b.maxIndexBits = some w) ∧
    (countWidth b = some w ↔ ∃ m, b.maxEntries = some m ∧ ∀ k, m < 2 ^ k ↔ w ≤ k) ∧
    (iposWidth b = some w ↔ ∃ m, b.maxInUnits = some m ∧ ∀ k, m < 2 ^ k ↔ w ≤ k) ∧
    (bposWidth b = some w ↔ ∃ m, b.maxInBytes = some m ∧ ∀ k, 8 * m < 2 ^ k ↔ w ≤ k))

/-! ### Whole jobs -/

/-- With every bound ∞, an ENCODE of any N units is BUSY for the first N + 2 steps after its SUBMIT and then DONE with
a byte result (R198, R313). -/
def Obligations.EncodeAlwaysCompletes : Prop :=
  ∀ (s : State) (u : List CodeUnit), s.busy = false → s.bounds = Bounds.unbounded →
    s.host = [.submit ⟨0#1, .units u⟩] →
    (∀ k, 1 ≤ k → k ≤ u.length + 2 → ∃ t, Sys2Proof.core.run k s = .next t ∧ t.busy = true) ∧
    (∃ t b, Sys2Proof.core.run (u.length + 3) s = .next t ∧ t.phase = .done ∧ t.err = .noError ∧
      t.RESULT = some (.bytes b))

/-- A DECODE of any L bytes, well-formed or not and under any bounds, has ended within 4L + 1 steps after its
SUBMIT, in DONE with a unit result or in FAIL with an error and no result (R149, R244). -/
def Obligations.DecodeAlwaysTerminates : Prop :=
  ∀ (s : State) (b : List Byte), s.busy = false → s.host = [.submit ⟨1#1, .bytes b⟩] →
    ∃ t, Sys2Proof.core.run (4 * b.length + 2) s = .next t ∧
      ((t.phase = .done ∧ t.err = .noError ∧ ∃ u, t.RESULT = some (.units u)) ∨
        (t.phase = .fail ∧ t.err ≠ .noError ∧ t.RESULT = none))

/-- Round trip: with every bound ∞, DECODE of what ENCODE made of a sequence gives the sequence back, for every
sequence (R246). -/
def Obligations.DecodeInvertsEncode : Prop :=
  ∀ (s s' t : State) (u : List CodeUnit) (b : List Byte), s.busy = false → s.bounds = Bounds.unbounded →
    s.host = [.submit ⟨0#1, .units u⟩] → Sys2Proof.core.run (u.length + 3) s = .next t →
    t.RESULT = some (.bytes b) →
    s'.busy = false → s'.bounds = Bounds.unbounded → s'.host = [.submit ⟨1#1, .bytes b⟩] →
    ∃ t', Sys2Proof.core.run (4 * b.length + 2) s' = .next t' ∧ t'.phase = .done ∧ t'.err = .noError ∧
      t'.RESULT = some (.units u)

/-- Truncation safety: DECODE of the first j bytes of what ENCODE made of a sequence, where they end before the last
bit of the stream (the EOS's), ends in FAIL with END_OF_STREAM or TRUNCATED_STREAM (R247). The stream's bits are read
from `obits` of the core that is DONE, which keeps them by the model's choice (log 9); its RESULT is their packing. -/
def Obligations.TruncatedStreamsFail : Prop :=
  ∀ (s s' t : State) (u : List CodeUnit) (bits : List Bool) (j : Nat), s.busy = false →
    s.bounds = Bounds.unbounded → s.host = [.submit ⟨0#1, .units u⟩] →
    Sys2Proof.core.run (u.length + 3) s = .next t → t.obits = some bits → 8 * j < bits.length →
    s'.busy = false → s'.bounds = Bounds.unbounded → s'.host = [.submit ⟨1#1, .bytes ((pack bits).take j)⟩] →
    t.RESULT = some (.bytes (pack bits)) ∧
    ∃ t', Sys2Proof.core.run (4 * j + 2) s' = .next t' ∧ t'.phase = .fail ∧ t'.RESULT = none ∧
      (t'.err = .endOfStream ∨ t'.err = .truncatedStream)

/-- The empty input encodes to the one byte 0x40, in two steps after the SUBMIT (R199). -/
def Obligations.EmptyInputGivesOneByte : Prop :=
  ∀ s : State, s.busy = false → s.bounds = Bounds.unbounded → s.host = [.submit ⟨0#1, .units []⟩] →
    ∃ t, Sys2Proof.core.run 3 s = .next t ∧ t.phase = .done ∧ t.RESULT = some (.bytes [0x40])

/-- Instances share nothing: a step of one leaves every other as it was, and the steps of two instances give the same
platform in either order (R72, R284). -/
def Obligations.InstancesAreIndependent : Prop :=
  ∀ (p q q' : Platform) (i j : Nat), i ≠ j → platformStep p i = some (.next q) →
    platformStep p j = some (.next q') →
    q[j]? = p[j]? ∧ q.length = p.length ∧
      ∃ r, platformStep q j = some (.next r) ∧ platformStep q' i = some (.next r)
end

