-- ==== Sys2Proof/Laws/Bits.lean ====
section
/-! SUPPORT. Small lemmas on bit strings, packing and BitSource reads. -/

namespace Sys2Proof

@[simp] theorem length_msbFirst (n v : Nat) : (msbFirst n v).length = n := by
  induction n <;> simp_all [msbFirst]

@[simp] theorem length_lsbFirst (n v : Nat) : (lsbFirst n v).length = n := by
  induction n generalizing v <;> simp_all [lsbFirst]

/-- Bit `i` of a field in wire order is bit `i` of its value. -/
theorem getElem?_lsbFirst {n i : Nat} (v : Nat) (h : i < n) : (lsbFirst n v)[i]? = some (v.testBit i) := by
  induction n generalizing v i with
  | zero => omega
  | succ n ih =>
    cases i with
    | zero => simp [lsbFirst]
    | succ i =>
      have hi : i < n := by omega
      simp only [lsbFirst, List.getElem?_cons_succ, ih (v / 2) hi, Nat.testBit_succ]

theorem lsbFirst_eq_map (n v : Nat) : lsbFirst n v = (List.range n).map v.testBit := by
  apply List.ext_getElem? ; intro i
  by_cases h : i < n
  · rw [getElem?_lsbFirst v h]; simp [h]
  · simp [h]

theorem getElem?_msbFirst {n i : Nat} (v : Nat) (h : i < n) :
    (msbFirst n v)[i]? = some (v.testBit (n - 1 - i)) := by
  induction n generalizing i with
  | zero => omega
  | succ n ih =>
    cases i with
    | zero => simp [msbFirst]
    | succ i =>
      simp only [msbFirst, List.getElem?_cons_succ, ih (i := i) (by omega)]
      congr 2; omega

theorem revBits_lt (n v : Nat) : revBits n v < 2 ^ n := by
  induction n generalizing v with
  | zero => simp [revBits]
  | succ n ih =>
    have h1 := ih (v / 2)
    have h2 : (v.testBit 0).toNat ≤ 1 := Bool.toNat_le _
    have h3 : (v.testBit 0).toNat * 2 ^ n ≤ 1 * 2 ^ n := Nat.mul_le_mul_right _ h2
    simp only [revBits, Nat.pow_succ]
    omega

/-- Bit `i` of the reversal is bit `n-1-i` of the value. -/
theorem testBit_revBits {n i : Nat} (v : Nat) (h : i < n) : (revBits n v).testBit i = v.testBit (n - 1 - i) := by
  induction n generalizing v i with
  | zero => omega
  | succ n ih =>
    have hlt := revBits_lt n (v / 2)
    simp only [revBits]
    by_cases hi : i = n
    · subst hi
      rw [Nat.mul_comm, Nat.testBit_two_pow_mul_add _ hlt]
      cases hb : v.testBit 0 <;> simp [hb]
    · rw [Nat.mul_comm, Nat.testBit_two_pow_mul_add _ hlt, if_pos (by omega), ih _ (by omega)]
      have : n + 1 - 1 - i = (n - 1 - i) + 1 := by omega
      rw [this, Nat.testBit_succ]

theorem msbFirst_revBits (n v : Nat) : msbFirst n (revBits n v) = lsbFirst n v := by
  apply List.ext_getElem? ; intro i
  by_cases h : i < n
  · rw [getElem?_msbFirst _ h, getElem?_lsbFirst _ h, testBit_revBits _ (by omega)]
    congr 2; omega
  · simp [h]

/-! ### Packing -/

@[simp] theorem length_pack (bits : List Bool) : (pack bits).length = (bits.length + 7) / 8 := by
  simp [pack]

theorem getLsbD_packByte (bits : List Bool) (j : Nat) {i : Nat} (h : i < 8) :
    (packByte bits j).getLsbD (7 - i) = bitAt bits (8 * j + i) := by
  have key : ∀ b0 b1 b2 b3 b4 b5 b6 b7 : Bool, ∀ i < 8,
      (BitVec.ofNat 8 (2 * (2 * (2 * (2 * (2 * (2 * (2 * (2 * 0 + b0.toNat) + b1.toNat) + b2.toNat) + b3.toNat)
        + b4.toNat) + b5.toNat) + b6.toNat) + b7.toNat)).getLsbD (7 - i)
      = [b0, b1, b2, b3, b4, b5, b6, b7].getD i false := by decide
  have := key (bitAt bits (8 * j + 0)) (bitAt bits (8 * j + 1)) (bitAt bits (8 * j + 2)) (bitAt bits (8 * j + 3))
    (bitAt bits (8 * j + 4)) (bitAt bits (8 * j + 5)) (bitAt bits (8 * j + 6)) (bitAt bits (8 * j + 7)) i h
  refine Eq.trans ?_ (this.trans ?_)
  · rfl
  · interval_cases i <;> rfl

/-- Wire bit `k` of a packed string is bit `k` of the string, and 0 past its end. -/
theorem inBit_pack (bits : List Bool) {k : Nat} (h : k < 8 * (pack bits).length) :
    inBit (pack bits) k = bitAt bits k := by
  have hk : k / 8 < (bits.length + 7) / 8 := by simp at h; omega
  have : memRead (pack bits) (k / 8) = packByte bits (k / 8) := by
    simp [memRead, pack, List.getD, hk]
  rw [inBit, this, getLsbD_packByte _ _ (by omega)]
  congr 1; omega

/-! ### Reading -/

theorem readLoop_spec (inp : List Byte) (n p r : Nat) :
    readLoop inp n p r = r * 2 ^ n + readLoop inp n p 0 ∧ readLoop inp n p 0 < 2 ^ n := by
  induction n generalizing p r with
  | zero => simp [readLoop]
  | succ n ih =>
    have h1 := (ih (p + 1) (2 * r + (inBit inp p).toNat)).1
    have h2 := ih (p + 1) (2 * 0 + (inBit inp p).toNat)
    have hb : (inBit inp p).toNat ≤ 1 := Bool.toNat_le _
    have h3 : (inBit inp p).toNat * 2 ^ n ≤ 1 * 2 ^ n := Nat.mul_le_mul_right _ hb
    simp only [readLoop]
    rw [h1, h2.1]
    constructor
    · rw [Nat.pow_succ]; ring
    · have := h2.2
      simp only [Nat.mul_zero, Nat.zero_add]
      rw [Nat.pow_succ]; omega

/-- Bit `n-1-i` of a natural read is wire bit `p+i`. -/
theorem testBit_readLoop (inp : List Byte) (n p : Nat) {i : Nat} (h : i < n) :
    (readLoop inp n p 0).testBit (n - 1 - i) = inBit inp (p + i) := by
  induction n generalizing p i with
  | zero => omega
  | succ n ih =>
    have h2 := readLoop_spec inp n (p + 1) (2 * 0 + (inBit inp p).toNat)
    simp only [readLoop]
    rw [h2.1, Nat.mul_comm, Nat.testBit_two_pow_mul_add _ h2.2]
    cases i with
    | zero => cases inBit inp p <;> simp
    | succ i =>
      have : n + 1 - 1 - (i + 1) = n - 1 - i := by omega
      rw [this, if_pos (by omega), ih (p + 1) (by omega)]
      congr 1; omega

theorem srcReadBits_ok {inp : List Byte} {p n : Nat} (h : p + n ≤ 8 * inp.length) :
    srcReadBits inp p n = .ok (readLoop inp n p 0, p + n) := by
  unfold srcReadBits bitsLeft
  by_cases hn : n = 0
  · subst hn; simp [readLoop]
  · simp [hn, show ¬ 8 * inp.length - p = 0 by omega, show ¬ 8 * inp.length - p < n by omega]

theorem srcReadBits_inv {inp : List Byte} {p n r q : Nat} (h : srcReadBits inp p n = .ok (r, q)) :
    q = p + n ∧ r = readLoop inp n p 0 ∧ (n = 0 ∨ q ≤ 8 * inp.length) := by
  unfold srcReadBits bitsLeft at h
  split at h
  · simp at h; subst_vars; simp [readLoop, ← h.1, ← h.2]
  · split at h
    · cases h
    · split at h
      · cases h
      · simp at h
        omega

/-- A reversed read gives the field's value: bit `i` is wire bit `p+i`. -/
theorem srcReadRev_inv {inp : List Byte} {p n v q : Nat} (h : srcReadRev inp p n = .ok (v, q)) :
    q = p + n ∧ v < 2 ^ n ∧ (∀ i < n, v.testBit i = inBit inp (p + i)) ∧ (n = 0 ∨ q ≤ 8 * inp.length) := by
  unfold srcReadRev at h
  cases hr : srcReadBits inp p n with
  | error e => simp [hr] at h
  | ok rq =>
    obtain ⟨r, q'⟩ := rq
    simp only [hr, Except.ok.injEq, Prod.mk.injEq] at h
    obtain ⟨rfl, rfl⟩ := h
    obtain ⟨h1, h2, h3⟩ := srcReadBits_inv hr
    refine ⟨h1, revBits_lt _ _, fun i hi => ?_, h3⟩
    rw [testBit_revBits _ hi, h2, testBit_readLoop _ _ _ hi]

theorem srcReadRev_ok {inp : List Byte} {p n : Nat} (h : p + n ≤ 8 * inp.length) :
    ∃ v, srcReadRev inp p n = .ok (v, p + n) := by
  simp [srcReadRev, srcReadBits_ok h]

/-- A reversed read is settled by the bits it covers. -/
theorem srcReadRev_of_bits {inp : List Byte} {p n v : Nat} (hv : v < 2 ^ n)
    (hb : ∀ i < n, v.testBit i = inBit inp (p + i)) (h : p + n ≤ 8 * inp.length) :
    srcReadRev inp p n = .ok (v, p + n) := by
  obtain ⟨w, hw⟩ := srcReadRev_ok h
  obtain ⟨-, hlt, hbits, -⟩ := srcReadRev_inv hw
  have : w = v := by
    apply Nat.eq_of_testBit_eq; intro i
    by_cases hi : i < n
    · rw [hbits i hi, hb i hi]
    · have hp : 2 ^ n ≤ 2 ^ i := Nat.pow_le_pow_right (by omega) (by omega)
      rw [Nat.testBit_lt_two_pow (by omega), Nat.testBit_lt_two_pow (by omega)]
  rw [hw, this]

end Sys2Proof
end

