-- ==== Sys2Proof/Laws/Decode.lean ====
section
/-! SUPPORT. Inversion of the decoder: what a decoded token is made of, and where decoding stops. -/

namespace Sys2Proof

theorem msbFirst_eq_map (n v : Nat) : msbFirst n v = (List.range n).map (fun i => v.testBit (n-1-i)) := by
  apply List.ext_getElem?; intro i
  by_cases h : i < n
  · rw [getElem?_msbFirst v h]; simp [h]
  · simp [h]

/-- Two inputs with the same bits read the same. -/
theorem srcReadRev_agree {inp inp' : List Byte} {p n v q} (h : srcReadRev inp p n = .ok (v, q))
    (hb : ∀ k < q, inBit inp' k = inBit inp k) (hq : q ≤ 8 * inp'.length) : srcReadRev inp' p n = .ok (v, q) := by
  obtain ⟨e1, lt1, b1, l1⟩ := srcReadRev_inv h
  rw [e1]
  exact srcReadRev_of_bits lt1 (fun i hi => by rw [b1 i hi, hb _ (by omega)]) (by omega)

/-- A read that fails asked for bits past the end. -/
theorem srcReadRev_error {inp p n e} (h : srcReadRev inp p n = .error e) : n ≠ 0 ∧ 8 * inp.length < p + n := by
  unfold srcReadRev at h
  cases hr : srcReadBits inp p n with
  | ok r => obtain ⟨a,b⟩ := r; simp [hr] at h
  | error e' =>
    by_cases h0 : n = 0
    · subst h0; simp [srcReadBits] at hr
    refine ⟨h0, ?_⟩
    by_contra hle
    rw [srcReadBits_ok (by omega)] at hr; cases hr

/-- All a decoded token can be, and the reads it was made of. -/
theorem decodeToken_token {first W inp p i q} (h : decodeToken first W inp p = .token i q) :
    ∃ c p1, srcReadRev inp p W = .ok (c, p1) ∧
    ((c = 0 ∧ ∃ v, srcReadRev inp p1 8 = .ok (v, q) ∧ i = .lit8 (BitVec.ofNat 8 v)) ∨
    (c = 1 ∧ ∃ v, srcReadRev inp p1 16 = .ok (v, q) ∧ i = .lit16 (BitVec.ofNat 16 v)) ∨
    (c = 2 ∧ q = p1 ∧ i = .eos) ∨
    (3 ≤ c ∧ q = p1 ∧ first = true ∧ i = .illegalFirst) ∨
    (3 ≤ c ∧ q = p1 ∧ first = false ∧ i = .idx c)) := by
  unfold decodeToken at h
  cases hr : srcReadRev inp p W with
  | error e => simp [hr] at h
  | ok cp =>
    obtain ⟨c, p1⟩ := cp
    refine ⟨c, p1, rfl, ?_⟩
    simp only [hr] at h
    unfold decodeCode at h
    simp only [codeLit8, codeLit16, codeEos] at h
    by_cases h0 : c = 0
    · left
      simp only [h0, if_true, decodeLit8, lit8Bits] at h
      cases h2 : srcReadRev inp p1 8 with
      | error e => simp [h2] at h
      | ok vq => obtain ⟨v, q'⟩ := vq; simp only [h2] at h; cases h; exact ⟨h0, v, rfl, rfl⟩
    by_cases h1 : c = 1
    · right; left
      simp only [h1, if_true, decodeLit16, lit16Bits, one_ne_zero, if_false] at h
      cases h2 : srcReadRev inp p1 16 with
      | error e => simp [h2] at h
      | ok vq => obtain ⟨v, q'⟩ := vq; simp only [h2] at h; cases h; exact ⟨h1, v, rfl, rfl⟩
    by_cases h2 : c = 2
    · right; right; left
      simp [h2] at h; exact ⟨h2, h.2.symm, h.1.symm⟩
    · right; right; right
      simp only [h0, h1, h2, if_false] at h
      cases first
      · right; simp at h; exact ⟨by omega, h.2.symm, rfl, h.1.symm⟩
      · left; simp at h; exact ⟨by omega, h.2.symm, rfl, h.1.symm⟩

/-- Where decoding stopped: at the CODE field or at a literal's operand. -/
theorem decodeToken_stop {first W inp p e q} (h : decodeToken first W inp p = .stop e q) :
    (q = p ∧ srcReadRev inp p W = .error e) ∨ (∃ c, srcReadRev inp p W = .ok (c, q) ∧
        ((c = 0 ∧ srcReadRev inp q 8 = .error e) ∨ (c = 1 ∧ srcReadRev inp q 16 = .error e))) := by
  unfold decodeToken at h
  cases hr : srcReadRev inp p W with
  | error e' => simp [hr] at h; exact .inl ⟨h.2.symm, by rw [h.1]⟩
  | ok cp =>
    obtain ⟨c, p1⟩ := cp
    simp only [hr] at h
    unfold decodeCode at h
    simp only [codeLit8, codeLit16, codeEos] at h
    by_cases h0 : c = 0
    · simp only [h0, if_true] at h
      unfold decodeLit8 at h
      simp only [lit8Bits] at h
      cases h2 : srcReadRev inp p1 8 with
      | error e' => simp [h2] at h; obtain ⟨rfl, rfl⟩ := h; exact .inr ⟨c, rfl, .inl ⟨h0, h2⟩⟩
      | ok v => obtain ⟨a,b⟩ := v; simp [h2] at h
    by_cases h1 : c = 1
    · simp only [h1, one_ne_zero, if_false, if_true] at h
      unfold decodeLit16 at h
      simp only [lit16Bits] at h
      cases h2 : srcReadRev inp p1 16 with
      | error e' => simp [h2] at h; obtain ⟨rfl, rfl⟩ := h; exact .inr ⟨c, rfl, .inr ⟨h1, h2⟩⟩
      | ok v => obtain ⟨a,b⟩ := v; simp [h2] at h
    by_cases h2 : c = 2
    · simp [h2] at h
    · cases first <;> simp [h0, h1, h2] at h

/-- The cursor does not go back, and what is read is a token. -/
theorem decodeToken_le {first W inp p i q} (h : decodeToken first W inp p = .token i q) : p ≤ q ∧ i.isToken = true := by
  obtain ⟨c, p1, h1, h2⟩ := decodeToken_token h
  have := (srcReadRev_inv h1).1
  rcases h2 with ⟨rfl, v, h2, rfl⟩ | ⟨rfl, v, h2, rfl⟩ | ⟨rfl, rfl, rfl⟩ | ⟨hc, rfl, hf, rfl⟩ | ⟨hc, rfl, hf, rfl⟩
  · have := (srcReadRev_inv h2).1; exact ⟨by omega, rfl⟩
  · have := (srcReadRev_inv h2).1; exact ⟨by omega, rfl⟩
  all_goals exact ⟨by omega, rfl⟩

theorem decodeToken_stop_le {first W inp p e q} (h : decodeToken first W inp p = .stop e q) : p ≤ q := by
  rcases decodeToken_stop h with ⟨rfl, -⟩ | ⟨c, h1, -⟩
  · exact le_rfl
  · have := (srcReadRev_inv h1).1; omega

/-- A read that moves the cursor ends inside the input. -/
theorem srcReadRev_within {inp p n v q} (h : srcReadRev inp p n = .ok (v, q)) : q = p ∨ q ≤ 8 * inp.length := by
  unfold srcReadRev at h
  cases hr : srcReadBits inp p n with
  | error e => simp [hr] at h
  | ok x =>
    obtain ⟨r, q'⟩ := x
    simp only [hr] at h; cases h
    unfold srcReadBits bitsLeft at hr
    split at hr
    · simp at hr; exact .inl hr.2.symm
    · split at hr
      · cases hr
      · split at hr
        · cases hr
        · simp at hr; exact .inr (by omega)

/-- A token that moves the cursor ends inside the input. -/
theorem decodeToken_within {first W inp p i q} (h : decodeToken first W inp p = .token i q) :
    q = p ∨ q ≤ 8 * inp.length := by
  obtain ⟨c, p1, h1, h2⟩ := decodeToken_token h
  have a := srcReadRev_within h1
  rcases h2 with ⟨rfl, v, h2, rfl⟩ | ⟨rfl, v, h2, rfl⟩ | ⟨rfl, rfl, rfl⟩ | ⟨hc, rfl, hf, rfl⟩ | ⟨hc, rfl, hf, rfl⟩
  · have := srcReadRev_within h2; omega
  · have := srcReadRev_within h2; omega
  all_goals exact a

/-- Where decoding stops, the cursor has not moved or is inside the input. -/
theorem decodeToken_stop_within {first W inp p e q} (h : decodeToken first W inp p = .stop e q) :
    q = p ∨ q ≤ 8 * inp.length := by
  rcases decodeToken_stop h with ⟨rfl, -⟩ | ⟨c, h1, -⟩
  · exact .inl rfl
  · exact srcReadRev_within h1

end Sys2Proof
end

