-- ==== Sys2Proof/Laws/State.lean ====
section
/-! SUPPORT. What each register write does to each field: one lemma per field per write, true by rfl. -/

namespace Sys2Proof.Machine.State

variable (s : State)

@[simp] theorem setPhase_phase (v : Phase) : (s.setPhase v).phase = v := rfl
@[simp] theorem setPhase_dir (v : Phase) : (s.setPhase v).dir = s.dir := rfl
@[simp] theorem setPhase_err (v : Phase) : (s.setPhase v).err = s.err := rfl
@[simp] theorem setPhase_indexBits (v : Phase) : (s.setPhase v).indexBits = s.indexBits := rfl
@[simp] theorem setPhase_enlargeIn (v : Phase) : (s.setPhase v).enlargeIn = s.enlargeIn := rfl
@[simp] theorem setPhase_count (v : Phase) : (s.setPhase v).count = s.count := rfl
@[simp] theorem setPhase_encDict (v : Phase) : (s.setPhase v).encDict = s.encDict := rfl
@[simp] theorem setPhase_decDict (v : Phase) : (s.setPhase v).decDict = s.decDict := rfl
@[simp] theorem setPhase_pending (v : Phase) : (s.setPhase v).pending = s.pending := rfl
@[simp] theorem setPhase_word (v : Phase) : (s.setPhase v).word = s.word := rfl
@[simp] theorem setPhase_U (v : Phase) : (s.setPhase v).U = s.U := rfl
@[simp] theorem setPhase_ipos (v : Phase) : (s.setPhase v).ipos = s.ipos := rfl
@[simp] theorem setPhase_IN (v : Phase) : (s.setPhase v).IN = s.IN := rfl
@[simp] theorem setPhase_bpos (v : Phase) : (s.setPhase v).bpos = s.bpos := rfl
@[simp] theorem setPhase_obits (v : Phase) : (s.setPhase v).obits = s.obits := rfl
@[simp] theorem setPhase_out (v : Phase) : (s.setPhase v).out = s.out := rfl
@[simp] theorem setPhase_RESULT (v : Phase) : (s.setPhase v).RESULT = s.RESULT := rfl
@[simp] theorem setPhase_bounds (v : Phase) : (s.setPhase v).bounds = s.bounds := rfl
@[simp] theorem setPhase_host (v : Phase) : (s.setPhase v).host = s.host := rfl
@[simp] theorem setPhase_seen (v : Phase) : (s.setPhase v).seen = s.seen := rfl

@[simp] theorem setDir_phase (v : Direction) : (s.setDir v).phase = s.phase := rfl
@[simp] theorem setDir_dir (v : Direction) : (s.setDir v).dir = v := rfl
@[simp] theorem setDir_err (v : Direction) : (s.setDir v).err = s.err := rfl
@[simp] theorem setDir_indexBits (v : Direction) : (s.setDir v).indexBits = s.indexBits := rfl
@[simp] theorem setDir_enlargeIn (v : Direction) : (s.setDir v).enlargeIn = s.enlargeIn := rfl
@[simp] theorem setDir_count (v : Direction) : (s.setDir v).count = s.count := rfl
@[simp] theorem setDir_encDict (v : Direction) : (s.setDir v).encDict = s.encDict := rfl
@[simp] theorem setDir_decDict (v : Direction) : (s.setDir v).decDict = s.decDict := rfl
@[simp] theorem setDir_pending (v : Direction) : (s.setDir v).pending = s.pending := rfl
@[simp] theorem setDir_word (v : Direction) : (s.setDir v).word = s.word := rfl
@[simp] theorem setDir_U (v : Direction) : (s.setDir v).U = s.U := rfl
@[simp] theorem setDir_ipos (v : Direction) : (s.setDir v).ipos = s.ipos := rfl
@[simp] theorem setDir_IN (v : Direction) : (s.setDir v).IN = s.IN := rfl
@[simp] theorem setDir_bpos (v : Direction) : (s.setDir v).bpos = s.bpos := rfl
@[simp] theorem setDir_obits (v : Direction) : (s.setDir v).obits = s.obits := rfl
@[simp] theorem setDir_out (v : Direction) : (s.setDir v).out = s.out := rfl
@[simp] theorem setDir_RESULT (v : Direction) : (s.setDir v).RESULT = s.RESULT := rfl
@[simp] theorem setDir_bounds (v : Direction) : (s.setDir v).bounds = s.bounds := rfl
@[simp] theorem setDir_host (v : Direction) : (s.setDir v).host = s.host := rfl
@[simp] theorem setDir_seen (v : Direction) : (s.setDir v).seen = s.seen := rfl

@[simp] theorem setErr_phase (v : ErrKind) : (s.setErr v).phase = s.phase := rfl
@[simp] theorem setErr_dir (v : ErrKind) : (s.setErr v).dir = s.dir := rfl
@[simp] theorem setErr_err (v : ErrKind) : (s.setErr v).err = v := rfl
@[simp] theorem setErr_indexBits (v : ErrKind) : (s.setErr v).indexBits = s.indexBits := rfl
@[simp] theorem setErr_enlargeIn (v : ErrKind) : (s.setErr v).enlargeIn = s.enlargeIn := rfl
@[simp] theorem setErr_count (v : ErrKind) : (s.setErr v).count = s.count := rfl
@[simp] theorem setErr_encDict (v : ErrKind) : (s.setErr v).encDict = s.encDict := rfl
@[simp] theorem setErr_decDict (v : ErrKind) : (s.setErr v).decDict = s.decDict := rfl
@[simp] theorem setErr_pending (v : ErrKind) : (s.setErr v).pending = s.pending := rfl
@[simp] theorem setErr_word (v : ErrKind) : (s.setErr v).word = s.word := rfl
@[simp] theorem setErr_U (v : ErrKind) : (s.setErr v).U = s.U := rfl
@[simp] theorem setErr_ipos (v : ErrKind) : (s.setErr v).ipos = s.ipos := rfl
@[simp] theorem setErr_IN (v : ErrKind) : (s.setErr v).IN = s.IN := rfl
@[simp] theorem setErr_bpos (v : ErrKind) : (s.setErr v).bpos = s.bpos := rfl
@[simp] theorem setErr_obits (v : ErrKind) : (s.setErr v).obits = s.obits := rfl
@[simp] theorem setErr_out (v : ErrKind) : (s.setErr v).out = s.out := rfl
@[simp] theorem setErr_RESULT (v : ErrKind) : (s.setErr v).RESULT = s.RESULT := rfl
@[simp] theorem setErr_bounds (v : ErrKind) : (s.setErr v).bounds = s.bounds := rfl
@[simp] theorem setErr_host (v : ErrKind) : (s.setErr v).host = s.host := rfl
@[simp] theorem setErr_seen (v : ErrKind) : (s.setErr v).seen = s.seen := rfl

@[simp] theorem setIndexBits_phase (v : Nat) : (s.setIndexBits v).phase = s.phase := rfl
@[simp] theorem setIndexBits_dir (v : Nat) : (s.setIndexBits v).dir = s.dir := rfl
@[simp] theorem setIndexBits_err (v : Nat) : (s.setIndexBits v).err = s.err := rfl
@[simp] theorem setIndexBits_indexBits (v : Nat) : (s.setIndexBits v).indexBits = some v := rfl
@[simp] theorem setIndexBits_enlargeIn (v : Nat) : (s.setIndexBits v).enlargeIn = s.enlargeIn := rfl
@[simp] theorem setIndexBits_count (v : Nat) : (s.setIndexBits v).count = s.count := rfl
@[simp] theorem setIndexBits_encDict (v : Nat) : (s.setIndexBits v).encDict = s.encDict := rfl
@[simp] theorem setIndexBits_decDict (v : Nat) : (s.setIndexBits v).decDict = s.decDict := rfl
@[simp] theorem setIndexBits_pending (v : Nat) : (s.setIndexBits v).pending = s.pending := rfl
@[simp] theorem setIndexBits_word (v : Nat) : (s.setIndexBits v).word = s.word := rfl
@[simp] theorem setIndexBits_U (v : Nat) : (s.setIndexBits v).U = s.U := rfl
@[simp] theorem setIndexBits_ipos (v : Nat) : (s.setIndexBits v).ipos = s.ipos := rfl
@[simp] theorem setIndexBits_IN (v : Nat) : (s.setIndexBits v).IN = s.IN := rfl
@[simp] theorem setIndexBits_bpos (v : Nat) : (s.setIndexBits v).bpos = s.bpos := rfl
@[simp] theorem setIndexBits_obits (v : Nat) : (s.setIndexBits v).obits = s.obits := rfl
@[simp] theorem setIndexBits_out (v : Nat) : (s.setIndexBits v).out = s.out := rfl
@[simp] theorem setIndexBits_RESULT (v : Nat) : (s.setIndexBits v).RESULT = s.RESULT := rfl
@[simp] theorem setIndexBits_bounds (v : Nat) : (s.setIndexBits v).bounds = s.bounds := rfl
@[simp] theorem setIndexBits_host (v : Nat) : (s.setIndexBits v).host = s.host := rfl
@[simp] theorem setIndexBits_seen (v : Nat) : (s.setIndexBits v).seen = s.seen := rfl

@[simp] theorem setEnlargeIn_phase (v : Nat) : (s.setEnlargeIn v).phase = s.phase := rfl
@[simp] theorem setEnlargeIn_dir (v : Nat) : (s.setEnlargeIn v).dir = s.dir := rfl
@[simp] theorem setEnlargeIn_err (v : Nat) : (s.setEnlargeIn v).err = s.err := rfl
@[simp] theorem setEnlargeIn_indexBits (v : Nat) : (s.setEnlargeIn v).indexBits = s.indexBits := rfl
@[simp] theorem setEnlargeIn_enlargeIn (v : Nat) : (s.setEnlargeIn v).enlargeIn = some v := rfl
@[simp] theorem setEnlargeIn_count (v : Nat) : (s.setEnlargeIn v).count = s.count := rfl
@[simp] theorem setEnlargeIn_encDict (v : Nat) : (s.setEnlargeIn v).encDict = s.encDict := rfl
@[simp] theorem setEnlargeIn_decDict (v : Nat) : (s.setEnlargeIn v).decDict = s.decDict := rfl
@[simp] theorem setEnlargeIn_pending (v : Nat) : (s.setEnlargeIn v).pending = s.pending := rfl
@[simp] theorem setEnlargeIn_word (v : Nat) : (s.setEnlargeIn v).word = s.word := rfl
@[simp] theorem setEnlargeIn_U (v : Nat) : (s.setEnlargeIn v).U = s.U := rfl
@[simp] theorem setEnlargeIn_ipos (v : Nat) : (s.setEnlargeIn v).ipos = s.ipos := rfl
@[simp] theorem setEnlargeIn_IN (v : Nat) : (s.setEnlargeIn v).IN = s.IN := rfl
@[simp] theorem setEnlargeIn_bpos (v : Nat) : (s.setEnlargeIn v).bpos = s.bpos := rfl
@[simp] theorem setEnlargeIn_obits (v : Nat) : (s.setEnlargeIn v).obits = s.obits := rfl
@[simp] theorem setEnlargeIn_out (v : Nat) : (s.setEnlargeIn v).out = s.out := rfl
@[simp] theorem setEnlargeIn_RESULT (v : Nat) : (s.setEnlargeIn v).RESULT = s.RESULT := rfl
@[simp] theorem setEnlargeIn_bounds (v : Nat) : (s.setEnlargeIn v).bounds = s.bounds := rfl
@[simp] theorem setEnlargeIn_host (v : Nat) : (s.setEnlargeIn v).host = s.host := rfl
@[simp] theorem setEnlargeIn_seen (v : Nat) : (s.setEnlargeIn v).seen = s.seen := rfl

@[simp] theorem setCount_phase (v : Nat) : (s.setCount v).phase = s.phase := rfl
@[simp] theorem setCount_dir (v : Nat) : (s.setCount v).dir = s.dir := rfl
@[simp] theorem setCount_err (v : Nat) : (s.setCount v).err = s.err := rfl
@[simp] theorem setCount_indexBits (v : Nat) : (s.setCount v).indexBits = s.indexBits := rfl
@[simp] theorem setCount_enlargeIn (v : Nat) : (s.setCount v).enlargeIn = s.enlargeIn := rfl
@[simp] theorem setCount_count (v : Nat) : (s.setCount v).count = some v := rfl
@[simp] theorem setCount_encDict (v : Nat) : (s.setCount v).encDict = s.encDict := rfl
@[simp] theorem setCount_decDict (v : Nat) : (s.setCount v).decDict = s.decDict := rfl
@[simp] theorem setCount_pending (v : Nat) : (s.setCount v).pending = s.pending := rfl
@[simp] theorem setCount_word (v : Nat) : (s.setCount v).word = s.word := rfl
@[simp] theorem setCount_U (v : Nat) : (s.setCount v).U = s.U := rfl
@[simp] theorem setCount_ipos (v : Nat) : (s.setCount v).ipos = s.ipos := rfl
@[simp] theorem setCount_IN (v : Nat) : (s.setCount v).IN = s.IN := rfl
@[simp] theorem setCount_bpos (v : Nat) : (s.setCount v).bpos = s.bpos := rfl
@[simp] theorem setCount_obits (v : Nat) : (s.setCount v).obits = s.obits := rfl
@[simp] theorem setCount_out (v : Nat) : (s.setCount v).out = s.out := rfl
@[simp] theorem setCount_RESULT (v : Nat) : (s.setCount v).RESULT = s.RESULT := rfl
@[simp] theorem setCount_bounds (v : Nat) : (s.setCount v).bounds = s.bounds := rfl
@[simp] theorem setCount_host (v : Nat) : (s.setCount v).host = s.host := rfl
@[simp] theorem setCount_seen (v : Nat) : (s.setCount v).seen = s.seen := rfl

@[simp] theorem setEncDict_phase (v : EncDict) : (s.setEncDict v).phase = s.phase := rfl
@[simp] theorem setEncDict_dir (v : EncDict) : (s.setEncDict v).dir = s.dir := rfl
@[simp] theorem setEncDict_err (v : EncDict) : (s.setEncDict v).err = s.err := rfl
@[simp] theorem setEncDict_indexBits (v : EncDict) : (s.setEncDict v).indexBits = s.indexBits := rfl
@[simp] theorem setEncDict_enlargeIn (v : EncDict) : (s.setEncDict v).enlargeIn = s.enlargeIn := rfl
@[simp] theorem setEncDict_count (v : EncDict) : (s.setEncDict v).count = s.count := rfl
@[simp] theorem setEncDict_encDict (v : EncDict) : (s.setEncDict v).encDict = some v := rfl
@[simp] theorem setEncDict_decDict (v : EncDict) : (s.setEncDict v).decDict = s.decDict := rfl
@[simp] theorem setEncDict_pending (v : EncDict) : (s.setEncDict v).pending = s.pending := rfl
@[simp] theorem setEncDict_word (v : EncDict) : (s.setEncDict v).word = s.word := rfl
@[simp] theorem setEncDict_U (v : EncDict) : (s.setEncDict v).U = s.U := rfl
@[simp] theorem setEncDict_ipos (v : EncDict) : (s.setEncDict v).ipos = s.ipos := rfl
@[simp] theorem setEncDict_IN (v : EncDict) : (s.setEncDict v).IN = s.IN := rfl
@[simp] theorem setEncDict_bpos (v : EncDict) : (s.setEncDict v).bpos = s.bpos := rfl
@[simp] theorem setEncDict_obits (v : EncDict) : (s.setEncDict v).obits = s.obits := rfl
@[simp] theorem setEncDict_out (v : EncDict) : (s.setEncDict v).out = s.out := rfl
@[simp] theorem setEncDict_RESULT (v : EncDict) : (s.setEncDict v).RESULT = s.RESULT := rfl
@[simp] theorem setEncDict_bounds (v : EncDict) : (s.setEncDict v).bounds = s.bounds := rfl
@[simp] theorem setEncDict_host (v : EncDict) : (s.setEncDict v).host = s.host := rfl
@[simp] theorem setEncDict_seen (v : EncDict) : (s.setEncDict v).seen = s.seen := rfl

@[simp] theorem setDecDict_phase (v : DecDict) : (s.setDecDict v).phase = s.phase := rfl
@[simp] theorem setDecDict_dir (v : DecDict) : (s.setDecDict v).dir = s.dir := rfl
@[simp] theorem setDecDict_err (v : DecDict) : (s.setDecDict v).err = s.err := rfl
@[simp] theorem setDecDict_indexBits (v : DecDict) : (s.setDecDict v).indexBits = s.indexBits := rfl
@[simp] theorem setDecDict_enlargeIn (v : DecDict) : (s.setDecDict v).enlargeIn = s.enlargeIn := rfl
@[simp] theorem setDecDict_count (v : DecDict) : (s.setDecDict v).count = s.count := rfl
@[simp] theorem setDecDict_encDict (v : DecDict) : (s.setDecDict v).encDict = s.encDict := rfl
@[simp] theorem setDecDict_decDict (v : DecDict) : (s.setDecDict v).decDict = some v := rfl
@[simp] theorem setDecDict_pending (v : DecDict) : (s.setDecDict v).pending = s.pending := rfl
@[simp] theorem setDecDict_word (v : DecDict) : (s.setDecDict v).word = s.word := rfl
@[simp] theorem setDecDict_U (v : DecDict) : (s.setDecDict v).U = s.U := rfl
@[simp] theorem setDecDict_ipos (v : DecDict) : (s.setDecDict v).ipos = s.ipos := rfl
@[simp] theorem setDecDict_IN (v : DecDict) : (s.setDecDict v).IN = s.IN := rfl
@[simp] theorem setDecDict_bpos (v : DecDict) : (s.setDecDict v).bpos = s.bpos := rfl
@[simp] theorem setDecDict_obits (v : DecDict) : (s.setDecDict v).obits = s.obits := rfl
@[simp] theorem setDecDict_out (v : DecDict) : (s.setDecDict v).out = s.out := rfl
@[simp] theorem setDecDict_RESULT (v : DecDict) : (s.setDecDict v).RESULT = s.RESULT := rfl
@[simp] theorem setDecDict_bounds (v : DecDict) : (s.setDecDict v).bounds = s.bounds := rfl
@[simp] theorem setDecDict_host (v : DecDict) : (s.setDecDict v).host = s.host := rfl
@[simp] theorem setDecDict_seen (v : DecDict) : (s.setDecDict v).seen = s.seen := rfl

@[simp] theorem setPending_phase (v : List CodeUnit) : (s.setPending v).phase = s.phase := rfl
@[simp] theorem setPending_dir (v : List CodeUnit) : (s.setPending v).dir = s.dir := rfl
@[simp] theorem setPending_err (v : List CodeUnit) : (s.setPending v).err = s.err := rfl
@[simp] theorem setPending_indexBits (v : List CodeUnit) : (s.setPending v).indexBits = s.indexBits := rfl
@[simp] theorem setPending_enlargeIn (v : List CodeUnit) : (s.setPending v).enlargeIn = s.enlargeIn := rfl
@[simp] theorem setPending_count (v : List CodeUnit) : (s.setPending v).count = s.count := rfl
@[simp] theorem setPending_encDict (v : List CodeUnit) : (s.setPending v).encDict = s.encDict := rfl
@[simp] theorem setPending_decDict (v : List CodeUnit) : (s.setPending v).decDict = s.decDict := rfl
@[simp] theorem setPending_pending (v : List CodeUnit) : (s.setPending v).pending = some v := rfl
@[simp] theorem setPending_word (v : List CodeUnit) : (s.setPending v).word = s.word := rfl
@[simp] theorem setPending_U (v : List CodeUnit) : (s.setPending v).U = s.U := rfl
@[simp] theorem setPending_ipos (v : List CodeUnit) : (s.setPending v).ipos = s.ipos := rfl
@[simp] theorem setPending_IN (v : List CodeUnit) : (s.setPending v).IN = s.IN := rfl
@[simp] theorem setPending_bpos (v : List CodeUnit) : (s.setPending v).bpos = s.bpos := rfl
@[simp] theorem setPending_obits (v : List CodeUnit) : (s.setPending v).obits = s.obits := rfl
@[simp] theorem setPending_out (v : List CodeUnit) : (s.setPending v).out = s.out := rfl
@[simp] theorem setPending_RESULT (v : List CodeUnit) : (s.setPending v).RESULT = s.RESULT := rfl
@[simp] theorem setPending_bounds (v : List CodeUnit) : (s.setPending v).bounds = s.bounds := rfl
@[simp] theorem setPending_host (v : List CodeUnit) : (s.setPending v).host = s.host := rfl
@[simp] theorem setPending_seen (v : List CodeUnit) : (s.setPending v).seen = s.seen := rfl

@[simp] theorem setWord_phase (v : List CodeUnit) : (s.setWord v).phase = s.phase := rfl
@[simp] theorem setWord_dir (v : List CodeUnit) : (s.setWord v).dir = s.dir := rfl
@[simp] theorem setWord_err (v : List CodeUnit) : (s.setWord v).err = s.err := rfl
@[simp] theorem setWord_indexBits (v : List CodeUnit) : (s.setWord v).indexBits = s.indexBits := rfl
@[simp] theorem setWord_enlargeIn (v : List CodeUnit) : (s.setWord v).enlargeIn = s.enlargeIn := rfl
@[simp] theorem setWord_count (v : List CodeUnit) : (s.setWord v).count = s.count := rfl
@[simp] theorem setWord_encDict (v : List CodeUnit) : (s.setWord v).encDict = s.encDict := rfl
@[simp] theorem setWord_decDict (v : List CodeUnit) : (s.setWord v).decDict = s.decDict := rfl
@[simp] theorem setWord_pending (v : List CodeUnit) : (s.setWord v).pending = s.pending := rfl
@[simp] theorem setWord_word (v : List CodeUnit) : (s.setWord v).word = some v := rfl
@[simp] theorem setWord_U (v : List CodeUnit) : (s.setWord v).U = s.U := rfl
@[simp] theorem setWord_ipos (v : List CodeUnit) : (s.setWord v).ipos = s.ipos := rfl
@[simp] theorem setWord_IN (v : List CodeUnit) : (s.setWord v).IN = s.IN := rfl
@[simp] theorem setWord_bpos (v : List CodeUnit) : (s.setWord v).bpos = s.bpos := rfl
@[simp] theorem setWord_obits (v : List CodeUnit) : (s.setWord v).obits = s.obits := rfl
@[simp] theorem setWord_out (v : List CodeUnit) : (s.setWord v).out = s.out := rfl
@[simp] theorem setWord_RESULT (v : List CodeUnit) : (s.setWord v).RESULT = s.RESULT := rfl
@[simp] theorem setWord_bounds (v : List CodeUnit) : (s.setWord v).bounds = s.bounds := rfl
@[simp] theorem setWord_host (v : List CodeUnit) : (s.setWord v).host = s.host := rfl
@[simp] theorem setWord_seen (v : List CodeUnit) : (s.setWord v).seen = s.seen := rfl

@[simp] theorem setU_phase (v : List CodeUnit) : (s.setU v).phase = s.phase := rfl
@[simp] theorem setU_dir (v : List CodeUnit) : (s.setU v).dir = s.dir := rfl
@[simp] theorem setU_err (v : List CodeUnit) : (s.setU v).err = s.err := rfl
@[simp] theorem setU_indexBits (v : List CodeUnit) : (s.setU v).indexBits = s.indexBits := rfl
@[simp] theorem setU_enlargeIn (v : List CodeUnit) : (s.setU v).enlargeIn = s.enlargeIn := rfl
@[simp] theorem setU_count (v : List CodeUnit) : (s.setU v).count = s.count := rfl
@[simp] theorem setU_encDict (v : List CodeUnit) : (s.setU v).encDict = s.encDict := rfl
@[simp] theorem setU_decDict (v : List CodeUnit) : (s.setU v).decDict = s.decDict := rfl
@[simp] theorem setU_pending (v : List CodeUnit) : (s.setU v).pending = s.pending := rfl
@[simp] theorem setU_word (v : List CodeUnit) : (s.setU v).word = s.word := rfl
@[simp] theorem setU_U (v : List CodeUnit) : (s.setU v).U = some v := rfl
@[simp] theorem setU_ipos (v : List CodeUnit) : (s.setU v).ipos = s.ipos := rfl
@[simp] theorem setU_IN (v : List CodeUnit) : (s.setU v).IN = s.IN := rfl
@[simp] theorem setU_bpos (v : List CodeUnit) : (s.setU v).bpos = s.bpos := rfl
@[simp] theorem setU_obits (v : List CodeUnit) : (s.setU v).obits = s.obits := rfl
@[simp] theorem setU_out (v : List CodeUnit) : (s.setU v).out = s.out := rfl
@[simp] theorem setU_RESULT (v : List CodeUnit) : (s.setU v).RESULT = s.RESULT := rfl
@[simp] theorem setU_bounds (v : List CodeUnit) : (s.setU v).bounds = s.bounds := rfl
@[simp] theorem setU_host (v : List CodeUnit) : (s.setU v).host = s.host := rfl
@[simp] theorem setU_seen (v : List CodeUnit) : (s.setU v).seen = s.seen := rfl

@[simp] theorem setIpos_phase (v : Nat) : (s.setIpos v).phase = s.phase := rfl
@[simp] theorem setIpos_dir (v : Nat) : (s.setIpos v).dir = s.dir := rfl
@[simp] theorem setIpos_err (v : Nat) : (s.setIpos v).err = s.err := rfl
@[simp] theorem setIpos_indexBits (v : Nat) : (s.setIpos v).indexBits = s.indexBits := rfl
@[simp] theorem setIpos_enlargeIn (v : Nat) : (s.setIpos v).enlargeIn = s.enlargeIn := rfl
@[simp] theorem setIpos_count (v : Nat) : (s.setIpos v).count = s.count := rfl
@[simp] theorem setIpos_encDict (v : Nat) : (s.setIpos v).encDict = s.encDict := rfl
@[simp] theorem setIpos_decDict (v : Nat) : (s.setIpos v).decDict = s.decDict := rfl
@[simp] theorem setIpos_pending (v : Nat) : (s.setIpos v).pending = s.pending := rfl
@[simp] theorem setIpos_word (v : Nat) : (s.setIpos v).word = s.word := rfl
@[simp] theorem setIpos_U (v : Nat) : (s.setIpos v).U = s.U := rfl
@[simp] theorem setIpos_ipos (v : Nat) : (s.setIpos v).ipos = some v := rfl
@[simp] theorem setIpos_IN (v : Nat) : (s.setIpos v).IN = s.IN := rfl
@[simp] theorem setIpos_bpos (v : Nat) : (s.setIpos v).bpos = s.bpos := rfl
@[simp] theorem setIpos_obits (v : Nat) : (s.setIpos v).obits = s.obits := rfl
@[simp] theorem setIpos_out (v : Nat) : (s.setIpos v).out = s.out := rfl
@[simp] theorem setIpos_RESULT (v : Nat) : (s.setIpos v).RESULT = s.RESULT := rfl
@[simp] theorem setIpos_bounds (v : Nat) : (s.setIpos v).bounds = s.bounds := rfl
@[simp] theorem setIpos_host (v : Nat) : (s.setIpos v).host = s.host := rfl
@[simp] theorem setIpos_seen (v : Nat) : (s.setIpos v).seen = s.seen := rfl

@[simp] theorem setIN_phase (v : List Byte) : (s.setIN v).phase = s.phase := rfl
@[simp] theorem setIN_dir (v : List Byte) : (s.setIN v).dir = s.dir := rfl
@[simp] theorem setIN_err (v : List Byte) : (s.setIN v).err = s.err := rfl
@[simp] theorem setIN_indexBits (v : List Byte) : (s.setIN v).indexBits = s.indexBits := rfl
@[simp] theorem setIN_enlargeIn (v : List Byte) : (s.setIN v).enlargeIn = s.enlargeIn := rfl
@[simp] theorem setIN_count (v : List Byte) : (s.setIN v).count = s.count := rfl
@[simp] theorem setIN_encDict (v : List Byte) : (s.setIN v).encDict = s.encDict := rfl
@[simp] theorem setIN_decDict (v : List Byte) : (s.setIN v).decDict = s.decDict := rfl
@[simp] theorem setIN_pending (v : List Byte) : (s.setIN v).pending = s.pending := rfl
@[simp] theorem setIN_word (v : List Byte) : (s.setIN v).word = s.word := rfl
@[simp] theorem setIN_U (v : List Byte) : (s.setIN v).U = s.U := rfl
@[simp] theorem setIN_ipos (v : List Byte) : (s.setIN v).ipos = s.ipos := rfl
@[simp] theorem setIN_IN (v : List Byte) : (s.setIN v).IN = some v := rfl
@[simp] theorem setIN_bpos (v : List Byte) : (s.setIN v).bpos = s.bpos := rfl
@[simp] theorem setIN_obits (v : List Byte) : (s.setIN v).obits = s.obits := rfl
@[simp] theorem setIN_out (v : List Byte) : (s.setIN v).out = s.out := rfl
@[simp] theorem setIN_RESULT (v : List Byte) : (s.setIN v).RESULT = s.RESULT := rfl
@[simp] theorem setIN_bounds (v : List Byte) : (s.setIN v).bounds = s.bounds := rfl
@[simp] theorem setIN_host (v : List Byte) : (s.setIN v).host = s.host := rfl
@[simp] theorem setIN_seen (v : List Byte) : (s.setIN v).seen = s.seen := rfl

@[simp] theorem setBpos_phase (v : Nat) : (s.setBpos v).phase = s.phase := rfl
@[simp] theorem setBpos_dir (v : Nat) : (s.setBpos v).dir = s.dir := rfl
@[simp] theorem setBpos_err (v : Nat) : (s.setBpos v).err = s.err := rfl
@[simp] theorem setBpos_indexBits (v : Nat) : (s.setBpos v).indexBits = s.indexBits := rfl
@[simp] theorem setBpos_enlargeIn (v : Nat) : (s.setBpos v).enlargeIn = s.enlargeIn := rfl
@[simp] theorem setBpos_count (v : Nat) : (s.setBpos v).count = s.count := rfl
@[simp] theorem setBpos_encDict (v : Nat) : (s.setBpos v).encDict = s.encDict := rfl
@[simp] theorem setBpos_decDict (v : Nat) : (s.setBpos v).decDict = s.decDict := rfl
@[simp] theorem setBpos_pending (v : Nat) : (s.setBpos v).pending = s.pending := rfl
@[simp] theorem setBpos_word (v : Nat) : (s.setBpos v).word = s.word := rfl
@[simp] theorem setBpos_U (v : Nat) : (s.setBpos v).U = s.U := rfl
@[simp] theorem setBpos_ipos (v : Nat) : (s.setBpos v).ipos = s.ipos := rfl
@[simp] theorem setBpos_IN (v : Nat) : (s.setBpos v).IN = s.IN := rfl
@[simp] theorem setBpos_bpos (v : Nat) : (s.setBpos v).bpos = some v := rfl
@[simp] theorem setBpos_obits (v : Nat) : (s.setBpos v).obits = s.obits := rfl
@[simp] theorem setBpos_out (v : Nat) : (s.setBpos v).out = s.out := rfl
@[simp] theorem setBpos_RESULT (v : Nat) : (s.setBpos v).RESULT = s.RESULT := rfl
@[simp] theorem setBpos_bounds (v : Nat) : (s.setBpos v).bounds = s.bounds := rfl
@[simp] theorem setBpos_host (v : Nat) : (s.setBpos v).host = s.host := rfl
@[simp] theorem setBpos_seen (v : Nat) : (s.setBpos v).seen = s.seen := rfl

@[simp] theorem setObits_phase (v : List Bool) : (s.setObits v).phase = s.phase := rfl
@[simp] theorem setObits_dir (v : List Bool) : (s.setObits v).dir = s.dir := rfl
@[simp] theorem setObits_err (v : List Bool) : (s.setObits v).err = s.err := rfl
@[simp] theorem setObits_indexBits (v : List Bool) : (s.setObits v).indexBits = s.indexBits := rfl
@[simp] theorem setObits_enlargeIn (v : List Bool) : (s.setObits v).enlargeIn = s.enlargeIn := rfl
@[simp] theorem setObits_count (v : List Bool) : (s.setObits v).count = s.count := rfl
@[simp] theorem setObits_encDict (v : List Bool) : (s.setObits v).encDict = s.encDict := rfl
@[simp] theorem setObits_decDict (v : List Bool) : (s.setObits v).decDict = s.decDict := rfl
@[simp] theorem setObits_pending (v : List Bool) : (s.setObits v).pending = s.pending := rfl
@[simp] theorem setObits_word (v : List Bool) : (s.setObits v).word = s.word := rfl
@[simp] theorem setObits_U (v : List Bool) : (s.setObits v).U = s.U := rfl
@[simp] theorem setObits_ipos (v : List Bool) : (s.setObits v).ipos = s.ipos := rfl
@[simp] theorem setObits_IN (v : List Bool) : (s.setObits v).IN = s.IN := rfl
@[simp] theorem setObits_bpos (v : List Bool) : (s.setObits v).bpos = s.bpos := rfl
@[simp] theorem setObits_obits (v : List Bool) : (s.setObits v).obits = some v := rfl
@[simp] theorem setObits_out (v : List Bool) : (s.setObits v).out = s.out := rfl
@[simp] theorem setObits_RESULT (v : List Bool) : (s.setObits v).RESULT = s.RESULT := rfl
@[simp] theorem setObits_bounds (v : List Bool) : (s.setObits v).bounds = s.bounds := rfl
@[simp] theorem setObits_host (v : List Bool) : (s.setObits v).host = s.host := rfl
@[simp] theorem setObits_seen (v : List Bool) : (s.setObits v).seen = s.seen := rfl

@[simp] theorem setOut_phase (v : List CodeUnit) : (s.setOut v).phase = s.phase := rfl
@[simp] theorem setOut_dir (v : List CodeUnit) : (s.setOut v).dir = s.dir := rfl
@[simp] theorem setOut_err (v : List CodeUnit) : (s.setOut v).err = s.err := rfl
@[simp] theorem setOut_indexBits (v : List CodeUnit) : (s.setOut v).indexBits = s.indexBits := rfl
@[simp] theorem setOut_enlargeIn (v : List CodeUnit) : (s.setOut v).enlargeIn = s.enlargeIn := rfl
@[simp] theorem setOut_count (v : List CodeUnit) : (s.setOut v).count = s.count := rfl
@[simp] theorem setOut_encDict (v : List CodeUnit) : (s.setOut v).encDict = s.encDict := rfl
@[simp] theorem setOut_decDict (v : List CodeUnit) : (s.setOut v).decDict = s.decDict := rfl
@[simp] theorem setOut_pending (v : List CodeUnit) : (s.setOut v).pending = s.pending := rfl
@[simp] theorem setOut_word (v : List CodeUnit) : (s.setOut v).word = s.word := rfl
@[simp] theorem setOut_U (v : List CodeUnit) : (s.setOut v).U = s.U := rfl
@[simp] theorem setOut_ipos (v : List CodeUnit) : (s.setOut v).ipos = s.ipos := rfl
@[simp] theorem setOut_IN (v : List CodeUnit) : (s.setOut v).IN = s.IN := rfl
@[simp] theorem setOut_bpos (v : List CodeUnit) : (s.setOut v).bpos = s.bpos := rfl
@[simp] theorem setOut_obits (v : List CodeUnit) : (s.setOut v).obits = s.obits := rfl
@[simp] theorem setOut_out (v : List CodeUnit) : (s.setOut v).out = some v := rfl
@[simp] theorem setOut_RESULT (v : List CodeUnit) : (s.setOut v).RESULT = s.RESULT := rfl
@[simp] theorem setOut_bounds (v : List CodeUnit) : (s.setOut v).bounds = s.bounds := rfl
@[simp] theorem setOut_host (v : List CodeUnit) : (s.setOut v).host = s.host := rfl
@[simp] theorem setOut_seen (v : List CodeUnit) : (s.setOut v).seen = s.seen := rfl

@[simp] theorem setRESULT_phase (v : Result) : (s.setRESULT v).phase = s.phase := rfl
@[simp] theorem setRESULT_dir (v : Result) : (s.setRESULT v).dir = s.dir := rfl
@[simp] theorem setRESULT_err (v : Result) : (s.setRESULT v).err = s.err := rfl
@[simp] theorem setRESULT_indexBits (v : Result) : (s.setRESULT v).indexBits = s.indexBits := rfl
@[simp] theorem setRESULT_enlargeIn (v : Result) : (s.setRESULT v).enlargeIn = s.enlargeIn := rfl
@[simp] theorem setRESULT_count (v : Result) : (s.setRESULT v).count = s.count := rfl
@[simp] theorem setRESULT_encDict (v : Result) : (s.setRESULT v).encDict = s.encDict := rfl
@[simp] theorem setRESULT_decDict (v : Result) : (s.setRESULT v).decDict = s.decDict := rfl
@[simp] theorem setRESULT_pending (v : Result) : (s.setRESULT v).pending = s.pending := rfl
@[simp] theorem setRESULT_word (v : Result) : (s.setRESULT v).word = s.word := rfl
@[simp] theorem setRESULT_U (v : Result) : (s.setRESULT v).U = s.U := rfl
@[simp] theorem setRESULT_ipos (v : Result) : (s.setRESULT v).ipos = s.ipos := rfl
@[simp] theorem setRESULT_IN (v : Result) : (s.setRESULT v).IN = s.IN := rfl
@[simp] theorem setRESULT_bpos (v : Result) : (s.setRESULT v).bpos = s.bpos := rfl
@[simp] theorem setRESULT_obits (v : Result) : (s.setRESULT v).obits = s.obits := rfl
@[simp] theorem setRESULT_out (v : Result) : (s.setRESULT v).out = s.out := rfl
@[simp] theorem setRESULT_RESULT (v : Result) : (s.setRESULT v).RESULT = some v := rfl
@[simp] theorem setRESULT_bounds (v : Result) : (s.setRESULT v).bounds = s.bounds := rfl
@[simp] theorem setRESULT_host (v : Result) : (s.setRESULT v).host = s.host := rfl
@[simp] theorem setRESULT_seen (v : Result) : (s.setRESULT v).seen = s.seen := rfl

@[simp] theorem setHost_phase (v : List HostMove) : (s.setHost v).phase = s.phase := rfl
@[simp] theorem setHost_dir (v : List HostMove) : (s.setHost v).dir = s.dir := rfl
@[simp] theorem setHost_err (v : List HostMove) : (s.setHost v).err = s.err := rfl
@[simp] theorem setHost_indexBits (v : List HostMove) : (s.setHost v).indexBits = s.indexBits := rfl
@[simp] theorem setHost_enlargeIn (v : List HostMove) : (s.setHost v).enlargeIn = s.enlargeIn := rfl
@[simp] theorem setHost_count (v : List HostMove) : (s.setHost v).count = s.count := rfl
@[simp] theorem setHost_encDict (v : List HostMove) : (s.setHost v).encDict = s.encDict := rfl
@[simp] theorem setHost_decDict (v : List HostMove) : (s.setHost v).decDict = s.decDict := rfl
@[simp] theorem setHost_pending (v : List HostMove) : (s.setHost v).pending = s.pending := rfl
@[simp] theorem setHost_word (v : List HostMove) : (s.setHost v).word = s.word := rfl
@[simp] theorem setHost_U (v : List HostMove) : (s.setHost v).U = s.U := rfl
@[simp] theorem setHost_ipos (v : List HostMove) : (s.setHost v).ipos = s.ipos := rfl
@[simp] theorem setHost_IN (v : List HostMove) : (s.setHost v).IN = s.IN := rfl
@[simp] theorem setHost_bpos (v : List HostMove) : (s.setHost v).bpos = s.bpos := rfl
@[simp] theorem setHost_obits (v : List HostMove) : (s.setHost v).obits = s.obits := rfl
@[simp] theorem setHost_out (v : List HostMove) : (s.setHost v).out = s.out := rfl
@[simp] theorem setHost_RESULT (v : List HostMove) : (s.setHost v).RESULT = s.RESULT := rfl
@[simp] theorem setHost_bounds (v : List HostMove) : (s.setHost v).bounds = s.bounds := rfl
@[simp] theorem setHost_host (v : List HostMove) : (s.setHost v).host = v := rfl
@[simp] theorem setHost_seen (v : List HostMove) : (s.setHost v).seen = s.seen := rfl

@[simp] theorem setSeen_phase (v : List Reading) : (s.setSeen v).phase = s.phase := rfl
@[simp] theorem setSeen_dir (v : List Reading) : (s.setSeen v).dir = s.dir := rfl
@[simp] theorem setSeen_err (v : List Reading) : (s.setSeen v).err = s.err := rfl
@[simp] theorem setSeen_indexBits (v : List Reading) : (s.setSeen v).indexBits = s.indexBits := rfl
@[simp] theorem setSeen_enlargeIn (v : List Reading) : (s.setSeen v).enlargeIn = s.enlargeIn := rfl
@[simp] theorem setSeen_count (v : List Reading) : (s.setSeen v).count = s.count := rfl
@[simp] theorem setSeen_encDict (v : List Reading) : (s.setSeen v).encDict = s.encDict := rfl
@[simp] theorem setSeen_decDict (v : List Reading) : (s.setSeen v).decDict = s.decDict := rfl
@[simp] theorem setSeen_pending (v : List Reading) : (s.setSeen v).pending = s.pending := rfl
@[simp] theorem setSeen_word (v : List Reading) : (s.setSeen v).word = s.word := rfl
@[simp] theorem setSeen_U (v : List Reading) : (s.setSeen v).U = s.U := rfl
@[simp] theorem setSeen_ipos (v : List Reading) : (s.setSeen v).ipos = s.ipos := rfl
@[simp] theorem setSeen_IN (v : List Reading) : (s.setSeen v).IN = s.IN := rfl
@[simp] theorem setSeen_bpos (v : List Reading) : (s.setSeen v).bpos = s.bpos := rfl
@[simp] theorem setSeen_obits (v : List Reading) : (s.setSeen v).obits = s.obits := rfl
@[simp] theorem setSeen_out (v : List Reading) : (s.setSeen v).out = s.out := rfl
@[simp] theorem setSeen_RESULT (v : List Reading) : (s.setSeen v).RESULT = s.RESULT := rfl
@[simp] theorem setSeen_bounds (v : List Reading) : (s.setSeen v).bounds = s.bounds := rfl
@[simp] theorem setSeen_host (v : List Reading) : (s.setSeen v).host = s.host := rfl
@[simp] theorem setSeen_seen (v : List Reading) : (s.setSeen v).seen = v := rfl

@[simp] theorem clearWord_phase : s.clearWord.phase = s.phase := rfl
@[simp] theorem clearWord_dir : s.clearWord.dir = s.dir := rfl
@[simp] theorem clearWord_err : s.clearWord.err = s.err := rfl
@[simp] theorem clearWord_indexBits : s.clearWord.indexBits = s.indexBits := rfl
@[simp] theorem clearWord_enlargeIn : s.clearWord.enlargeIn = s.enlargeIn := rfl
@[simp] theorem clearWord_count : s.clearWord.count = s.count := rfl
@[simp] theorem clearWord_encDict : s.clearWord.encDict = s.encDict := rfl
@[simp] theorem clearWord_decDict : s.clearWord.decDict = s.decDict := rfl
@[simp] theorem clearWord_pending : s.clearWord.pending = s.pending := rfl
@[simp] theorem clearWord_word : s.clearWord.word = none := rfl
@[simp] theorem clearWord_U : s.clearWord.U = s.U := rfl
@[simp] theorem clearWord_ipos : s.clearWord.ipos = s.ipos := rfl
@[simp] theorem clearWord_IN : s.clearWord.IN = s.IN := rfl
@[simp] theorem clearWord_bpos : s.clearWord.bpos = s.bpos := rfl
@[simp] theorem clearWord_obits : s.clearWord.obits = s.obits := rfl
@[simp] theorem clearWord_out : s.clearWord.out = s.out := rfl
@[simp] theorem clearWord_RESULT : s.clearWord.RESULT = s.RESULT := rfl
@[simp] theorem clearWord_bounds : s.clearWord.bounds = s.bounds := rfl
@[simp] theorem clearWord_host : s.clearWord.host = s.host := rfl
@[simp] theorem clearWord_seen : s.clearWord.seen = s.seen := rfl

@[simp] theorem clearResult_phase : s.clearResult.phase = s.phase := rfl
@[simp] theorem clearResult_dir : s.clearResult.dir = s.dir := rfl
@[simp] theorem clearResult_err : s.clearResult.err = s.err := rfl
@[simp] theorem clearResult_indexBits : s.clearResult.indexBits = s.indexBits := rfl
@[simp] theorem clearResult_enlargeIn : s.clearResult.enlargeIn = s.enlargeIn := rfl
@[simp] theorem clearResult_count : s.clearResult.count = s.count := rfl
@[simp] theorem clearResult_encDict : s.clearResult.encDict = s.encDict := rfl
@[simp] theorem clearResult_decDict : s.clearResult.decDict = s.decDict := rfl
@[simp] theorem clearResult_pending : s.clearResult.pending = s.pending := rfl
@[simp] theorem clearResult_word : s.clearResult.word = s.word := rfl
@[simp] theorem clearResult_U : s.clearResult.U = s.U := rfl
@[simp] theorem clearResult_ipos : s.clearResult.ipos = s.ipos := rfl
@[simp] theorem clearResult_IN : s.clearResult.IN = s.IN := rfl
@[simp] theorem clearResult_bpos : s.clearResult.bpos = s.bpos := rfl
@[simp] theorem clearResult_obits : s.clearResult.obits = s.obits := rfl
@[simp] theorem clearResult_out : s.clearResult.out = s.out := rfl
@[simp] theorem clearResult_RESULT : s.clearResult.RESULT = none := rfl
@[simp] theorem clearResult_bounds : s.clearResult.bounds = s.bounds := rfl
@[simp] theorem clearResult_host : s.clearResult.host = s.host := rfl
@[simp] theorem clearResult_seen : s.clearResult.seen = s.seen := rfl

end Sys2Proof.Machine.State
end

