-- ==== Sys2Proof/Laws/Monad.lean ====
section
/-! SUPPORT. How a sequence of operations runs: forward rules for simp, inversion rules, and two ways to say something of
every run at once, `Keeps` for what it does to the state and `StopsOnly` for how it may stop. -/

namespace Sys2Proof.Machine

variable {α β : Type}

/-! ### Running forward -/

@[simp] theorem bind_run (m : M α) (f : α → M β) (s : State) :
    (m >>= f) s = match m s with | .ok a t => f a t | .error e t => .error e t := by
  change EStateM.bind m f s = _
  unfold EStateM.bind
  cases m s <;> rfl

@[simp] theorem pure_run (a : α) (s : State) : (pure a : M α) s = .ok a s := rfl

@[simp] theorem write_run (f : State → State) (s : State) : write f s = .ok () (f s) := rfl

@[simp] theorem raiseJob_run (e : JobError) (s : State) : (raiseJob e : M α) s = .error (.job e) s := rfl

@[simp] theorem stopFault_run (f : Fault) (s : State) : (stopFault f : M α) s = .error (.fault f) s := rfl

@[simp] theorem held_some (r : Reg) (a : α) (s : State) : held r (some a) s = .ok a s := rfl

@[simp] theorem held_none (r : Reg) (s : State) : (held r (none : Option α)) s = .error (.fault (.noValue r)) s := rfl

@[simp] theorem readBounds_run (s : State) : readBounds s = .ok s.bounds s := rfl
@[simp] theorem readPhase_run (s : State) : readPhase s = .ok s.phase s := rfl
@[simp] theorem readIndexBits_run (s : State) : readIndexBits s = held .indexBits s.indexBits s := rfl
@[simp] theorem readEnlargeIn_run (s : State) : readEnlargeIn s = held .enlargeIn s.enlargeIn s := rfl
@[simp] theorem readCount_run (s : State) : readCount s = held .count s.count s := rfl
@[simp] theorem readEncDict_run (s : State) : readEncDict s = held .encDict s.encDict s := rfl
@[simp] theorem readDecDict_run (s : State) : readDecDict s = held .decDict s.decDict s := rfl
@[simp] theorem readPending_run (s : State) : readPending s = held .pending s.pending s := rfl
@[simp] theorem readWord_run (s : State) : readWord s = held .word s.word s := rfl
@[simp] theorem readU_run (s : State) : readU s = held .U s.U s := rfl
@[simp] theorem readIpos_run (s : State) : readIpos s = held .ipos s.ipos s := rfl
@[simp] theorem readIN_run (s : State) : readIN s = held .IN s.IN s := rfl
@[simp] theorem readBpos_run (s : State) : readBpos s = held .bpos s.bpos s := rfl
@[simp] theorem readObits_run (s : State) : readObits s = held .obits s.obits s := rfl
@[simp] theorem readOut_run (s : State) : readOut s = held .out s.out s := rfl

/-- A capacity check that passes does nothing. -/
theorem checkCapacity_pass {ok : Bool} (h : ok = true) (info : Nat) (s : State) :
    checkCapacity ok info s = .ok () s := by simp [checkCapacity, h]

/-- A capacity check that fails raises. -/
theorem checkCapacity_raise {ok : Bool} (h : ok = false) (info : Nat) (s : State) :
    checkCapacity ok info s = .error (.job (.capacityExceeded info)) s := by simp [checkCapacity, h]

/-! ### Running backward -/

theorem bind_ok {m : M α} {f : α → M β} {s u : State} {b : β} :
    (m >>= f) s = .ok b u ↔ ∃ a t, m s = .ok a t ∧ f a t = .ok b u := by
  rw [bind_run]; cases m s <;> simp

theorem bind_error {m : M α} {f : α → M β} {s u : State} {e : Stop} :
    (m >>= f) s = .error e u ↔ m s = .error e u ∨ ∃ a t, m s = .ok a t ∧ f a t = .error e u := by
  rw [bind_run]; cases m s <;> simp

theorem held_ok {r : Reg} {v : Option α} {s t : State} {a : α} :
    held r v s = .ok a t ↔ v = some a ∧ s = t := by
  cases v <;> simp

theorem held_error {r : Reg} {v : Option α} {s t : State} {e : Stop} :
    held r v s = .error e t ↔ v = none ∧ .fault (.noValue r) = e ∧ s = t := by
  cases v <;> simp

theorem checkCapacity_ok {ok : Bool} {info : Nat} {s t : State} :
    checkCapacity ok info s = .ok () t ↔ ok = true ∧ s = t := by
  cases ok <;> simp [checkCapacity]

theorem checkCapacity_error {ok : Bool} {info : Nat} {s t : State} {e : Stop} :
    checkCapacity ok info s = .error e t ↔ ok = false ∧ .job (.capacityExceeded info) = e ∧ s = t := by
  cases ok <;> simp [checkCapacity]

/-- A rule answers a next state in two ways: it ran to its end, or it raised a job error. -/
theorem perform_next {m : M Unit} {s t : State} :
    perform m s = .next t ↔ m s = .ok () t ∨ ∃ e u, m s = .error (.job e) u ∧ t = u.raise e := by
  unfold perform
  split <;> simp_all [eq_comm]

theorem perform_of_ok {m : M Unit} {s t : State} (h : m s = .ok () t) : perform m s = .next t := by
  simp [perform, h]

theorem perform_of_job {m : M Unit} {s t : State} {e : JobError} (h : m s = .error (.job e) t) :
    perform m s = .next (t.raise e) := by
  simp [perform, h]

/-! ### Every run at once -/

/-- Whatever way the operation ends, the states before and after are related by `R`. -/
def Keeps (R : State → State → Prop) (m : M α) : Prop :=
  ∀ s, (∀ a t, m s = .ok a t → R s t) ∧ (∀ e t, m s = .error e t → R s t)

/-- A relation that a sequence of operations keeps once each of them does. -/
structure Composes (R : State → State → Prop) : Prop where
  same  : ∀ s, R s s
  trans : ∀ {s t u}, R s t → R t u → R s u

variable {R : State → State → Prop}

theorem keeps_bind (hR : Composes R) {m : M α} {f : α → M β} (hm : Keeps R m) (hf : ∀ a, Keeps R (f a)) :
    Keeps R (m >>= f) := by
  refine fun s => ⟨fun b u h => ?_, fun e u h => ?_⟩
  · obtain ⟨a, t, h1, h2⟩ := bind_ok.mp h
    exact hR.trans ((hm s).1 a t h1) ((hf a t).1 b u h2)
  · rcases bind_error.mp h with h1 | ⟨a, t, h1, h2⟩
    · exact (hm s).2 e u h1
    · exact hR.trans ((hm s).1 a t h1) ((hf a t).2 e u h2)

theorem keeps_pure (hR : Composes R) (a : α) : Keeps R (pure a : M α) := by
  intro s; simp [hR.same]

theorem keeps_write {f : State → State} (h : ∀ s, R s (f s)) : Keeps R (write f) := by
  intro s; simp [h]

theorem keeps_raiseJob (hR : Composes R) (e : JobError) : Keeps R (raiseJob e : M α) := by
  intro s; simp [hR.same]

theorem keeps_stopFault (hR : Composes R) (f : Fault) : Keeps R (stopFault f : M α) := by
  intro s; simp [hR.same]

/-- A read keeps every relation. -/
theorem keeps_read (hR : Composes R) (r : Reg) (g : State → Option α) : Keeps R (fun s => held r (g s) s : M α) := by
  intro s; cases h : g s <;> simp [hR.same, h]

theorem keeps_checkCapacity (hR : Composes R) (ok : Bool) (info : Nat) : Keeps R (checkCapacity ok info) := by
  unfold checkCapacity; split
  · exact keeps_pure hR ()
  · exact keeps_raiseJob hR _

theorem keeps_readBounds (hR : Composes R) : Keeps R readBounds := by intro s; simp [hR.same]

/-- Every way the operation stops satisfies `P`. -/
def StopsOnly (P : Stop → Prop) (m : M α) : Prop := ∀ s e t, m s = .error e t → P e

variable {P : Stop → Prop}

theorem stopsOnly_bind {m : M α} {f : α → M β} (hm : StopsOnly P m) (hf : ∀ a, StopsOnly P (f a)) :
    StopsOnly P (m >>= f) := by
  intro s e u h
  rcases bind_error.mp h with h1 | ⟨a, t, -, h2⟩
  · exact hm s e u h1
  · exact hf a t e u h2

theorem stopsOnly_pure (a : α) : StopsOnly P (pure a : M α) := by intro s e t h; simp at h

theorem stopsOnly_write (f : State → State) : StopsOnly P (write f) := by intro s e t h; simp at h

theorem stopsOnly_read {r : Reg} (hP : P (.fault (.noValue r))) (g : State → Option α) :
    StopsOnly P (fun s => held r (g s) s : M α) := by
  intro s e t h
  obtain ⟨-, rfl, -⟩ := held_error.mp h
  exact hP

theorem stopsOnly_raiseJob {e : JobError} (hP : P (.job e)) : StopsOnly P (raiseJob e : M α) := by
  intro s e' t h; simp at h; exact h.1 ▸ hP

theorem stopsOnly_stopFault {f : Fault} (hP : P (.fault f)) : StopsOnly P (stopFault f : M α) := by
  intro s e' t h; simp at h; exact h.1 ▸ hP

theorem stopsOnly_checkCapacity {ok : Bool} {info : Nat} (hP : P (.job (.capacityExceeded info))) :
    StopsOnly P (checkCapacity ok info) := by
  unfold checkCapacity; split
  · exact stopsOnly_pure ()
  · exact stopsOnly_raiseJob hP

end Sys2Proof.Machine
end

