-- ==== Sys2Proof/Laws/Ops.lean ====
section
/-! SUPPORT. One set of lemmas per shared operation: how it runs when its registers hold values and the bounds allow
(`_run`), all it can have done when it went through (`_ok`), the registers it may touch (`keeps_`), and how it may stop. -/

namespace Sys2Proof.Machine

variable {s t : State}

/-! ### TICK -/

theorem scheduleTick_one (w : Nat) : scheduleTick ⟨w, 1⟩ = ⟨w + 1, 2 ^ w⟩ := rfl

theorem scheduleTick_many {w e : Nat} (h : 2 ≤ e) : scheduleTick ⟨w, e⟩ = ⟨w, e - 1⟩ := by
  simp [scheduleTick, show ¬ e - 1 = 0 by omega]

/-- The state after a tick at schedule `x`. -/
def ticked (x : Schedule) (s : State) : State :=
  (s.setEnlargeIn (scheduleTick x).enlargeIn).setIndexBits (scheduleTick x).indexBits

theorem tick_run {w e : Nat} (hw : s.indexBits = some w) (he : s.enlargeIn = some e) (h0 : e ≠ 0)
    (hb : tickFits s.bounds ⟨w, e⟩ = true) : tick s = .ok () (ticked ⟨w, e⟩ s) := by
  simp [tick, hw, he, h0, checkCapacity_pass hb, ticked]

theorem tick_ok (h : tick s = .ok () t) :
    ∃ w e, s.indexBits = some w ∧ s.enlargeIn = some e ∧ e ≠ 0 ∧ tickFits s.bounds ⟨w, e⟩ = true ∧
      t = ticked ⟨w, e⟩ s := by
  cases hw : s.indexBits with
  | none => simp [tick, hw] at h
  | some w =>
    cases he : s.enlargeIn with
    | none => simp [tick, hw, he] at h
    | some e =>
      by_cases h0 : e = 0
      · simp [tick, hw, he, h0] at h
      · cases hb : tickFits s.bounds ⟨w, e⟩ with
        | false => simp [tick, hw, he, h0, checkCapacity_raise hb] at h
        | true =>
          rw [tick_run hw he h0 hb] at h
          simp only [EStateM.Result.ok.injEq, true_and] at h
          exact ⟨w, e, rfl, rfl, h0, hb, h.symm⟩

theorem tick_raise {w : Nat} (hw : s.indexBits = some w) (he : s.enlargeIn = some 1)
    (hb : Bounds.allows s.bounds.maxIndexBits (w + 1) = false) :
    tick s = .error (.job (.capacityExceeded w)) s := by
  have : tickFits s.bounds ⟨w, 1⟩ = false := by simp [tickFits, hb]
  simp [tick, hw, he, checkCapacity_raise this]

/-- Where the bounds are ∞ no check fails. -/
@[simp] theorem tickFits_unbounded (x : Schedule) : tickFits Bounds.unbounded x = true := by
  simp [tickFits, Bounds.unbounded, Bounds.allows]

@[simp] theorem entryFits_unbounded (n l : Nat) : entryFits Bounds.unbounded n l = true := rfl

theorem keeps_tick {R : State → State → Prop} (hR : Composes R) (h1 : ∀ s v, R s (s.setEnlargeIn v))
    (h2 : ∀ s v, R s (s.setIndexBits v)) : Keeps R tick := by
  refine keeps_bind hR (keeps_read hR _ _) fun w => keeps_bind hR (keeps_read hR _ _) fun e =>
    keeps_bind hR (keeps_readBounds hR) fun b => ?_
  split
  · exact keeps_stopFault hR _
  · exact keeps_bind hR (keeps_checkCapacity hR _ _) fun _ => keeps_bind hR (keeps_write (fun s => h1 s _)) fun _ =>
      keeps_write fun s => h2 s _

/-- How an operation of the Encoder may stop: by a capacity error, or by a fault of the model. -/
def CapacityOnly (e : Stop) : Prop := ∀ j, e = .job j → ∃ info, j = .capacityExceeded info

theorem capacityOnly_capacity (i : Nat) : CapacityOnly (.job (.capacityExceeded i)) := by
  intro j h; cases h; exact ⟨i, rfl⟩

theorem capacityOnly_fault (f : Fault) : CapacityOnly (.fault f) := by intro j h; cases h

theorem stopsOnly_readBounds {P : Stop → Prop} : StopsOnly P readBounds := by intro s e t h; simp at h

theorem tick_stops : StopsOnly CapacityOnly tick := by
  refine stopsOnly_bind (stopsOnly_read (capacityOnly_fault _) _) fun w =>
    stopsOnly_bind (stopsOnly_read (capacityOnly_fault _) _) fun e =>
    stopsOnly_bind stopsOnly_readBounds fun b => ?_
  split
  · exact stopsOnly_stopFault (capacityOnly_fault _)
  · exact stopsOnly_bind (stopsOnly_checkCapacity (capacityOnly_capacity _)) fun _ =>
      stopsOnly_bind (stopsOnly_write _) fun _ => stopsOnly_write _

/-! ### BitSink -/

theorem checkOutCapacity_run {L : Nat} (h : Bounds.allows s.bounds.maxOutBytes ((L + 7) / 8) = true) :
    checkOutCapacity L s = .ok () s := by simp [checkOutCapacity, checkCapacity_pass h]

theorem checkOutUnits_run {L : Nat} (h : Bounds.allows s.bounds.maxOutUnits L = true) :
    checkOutUnits L s = .ok () s := by simp [checkOutUnits, checkCapacity_pass h]

theorem checkOutUnits_ok {L : Nat} (h : checkOutUnits L s = .ok () t) :
    t = s ∧ Bounds.allows s.bounds.maxOutUnits L = true := by
  simp only [checkOutUnits, bind_run, readBounds_run] at h
  obtain ⟨h1, h2⟩ := checkCapacity_ok.mp h
  exact ⟨h2.symm, h1⟩

theorem sinkWriteBits_run {bits : List Bool} {v n : Nat} (hs : s.obits = some bits)
    (hb : Bounds.allows s.bounds.maxOutBytes ((bits.length + n + 7) / 8) = true) :
    sinkWriteBits v n s = .ok () (s.setObits (bits ++ msbFirst n v)) := by
  by_cases hn : n = 0
  · subst hn
    have : s.setObits bits = s := by cases s; simp_all [State.setObits]
    simp [sinkWriteBits, msbFirst, this]
  · simp [sinkWriteBits, hn, hs, checkOutCapacity_run hb]

theorem sinkWriteBits_zero (v : Nat) : sinkWriteBits v 0 s = .ok () s := by simp [sinkWriteBits]

theorem sinkWriteBits_raise {bits : List Bool} {v n : Nat} (hs : s.obits = some bits) (hn : n ≠ 0)
    (hb : Bounds.allows s.bounds.maxOutBytes ((bits.length + n + 7) / 8) = false) :
    sinkWriteBits v n s = .error (.job (.capacityExceeded (bits.length + n))) s := by
  simp [sinkWriteBits, hn, hs, checkOutCapacity, checkCapacity_raise hb]

theorem sinkWriteBits_ok {v n : Nat} (hn : n ≠ 0) (h : sinkWriteBits v n s = .ok () t) :
    ∃ bits, s.obits = some bits ∧ Bounds.allows s.bounds.maxOutBytes ((bits.length + n + 7) / 8) = true ∧
      t = s.setObits (bits ++ msbFirst n v) := by
  cases hs : s.obits with
  | none => simp [sinkWriteBits, hn, hs] at h
  | some bits =>
    cases hb : Bounds.allows s.bounds.maxOutBytes ((bits.length + n + 7) / 8) with
    | false => rw [sinkWriteBits_raise hs hn hb] at h; cases h
    | true =>
      rw [sinkWriteBits_run hs hb] at h
      simp only [EStateM.Result.ok.injEq, true_and] at h
      exact ⟨bits, rfl, hb, h.symm⟩

/-- The reversed write appends the field least significant bit first. -/
theorem sinkWriteRev_run {bits : List Bool} {v n : Nat} (hs : s.obits = some bits)
    (hb : Bounds.allows s.bounds.maxOutBytes ((bits.length + n + 7) / 8) = true) :
    sinkWriteRev v n s = .ok () (s.setObits (bits ++ lsbFirst n v)) := by
  rw [sinkWriteRev, sinkWriteBits_run hs hb, msbFirst_revBits]

theorem sinkWriteRev_ok {v n : Nat} (hn : n ≠ 0) (h : sinkWriteRev v n s = .ok () t) :
    ∃ bits, s.obits = some bits ∧ Bounds.allows s.bounds.maxOutBytes ((bits.length + n + 7) / 8) = true ∧
      t = s.setObits (bits ++ lsbFirst n v) := by
  obtain ⟨bits, h1, h2, h3⟩ := sinkWriteBits_ok hn h
  exact ⟨bits, h1, h2, by rw [h3, msbFirst_revBits]⟩

theorem keeps_sinkWriteBits {R : State → State → Prop} (hR : Composes R) (h : ∀ s v, R s (s.setObits v))
    (v n : Nat) : Keeps R (sinkWriteBits v n) := by
  unfold sinkWriteBits
  split
  · exact keeps_pure hR ()
  · exact keeps_bind hR (keeps_read hR _ _) fun bits => keeps_bind hR
      (keeps_bind hR (keeps_readBounds hR) fun _ => keeps_checkCapacity hR _ _) fun _ => keeps_write fun s => h s _

theorem sinkWriteBits_stops (v n : Nat) : StopsOnly CapacityOnly (sinkWriteBits v n) := by
  unfold sinkWriteBits
  split
  · exact stopsOnly_pure ()
  · exact stopsOnly_bind (stopsOnly_read (capacityOnly_fault _) _) fun _ => stopsOnly_bind
      (stopsOnly_bind stopsOnly_readBounds fun _ => stopsOnly_checkCapacity (capacityOnly_capacity _)) fun _ =>
      stopsOnly_write _

/-! ### ASSIGN and INSERT -/

theorem assignKey_run {key : List CodeUnit} {n : Nat} {d : EncDict} (hn : s.count = some n) (hd : s.encDict = some d)
    (hb : entryFits s.bounds n key.length = true) :
    assignKey key s = .ok () ((s.setEncDict (d ++ [(key, n)])).setCount (n + 1)) := by
  simp [assignKey, hn, hd, checkCapacity_pass hb]

theorem assignKey_ok {key : List CodeUnit} (h : assignKey key s = .ok () t) :
    ∃ n d, s.count = some n ∧ s.encDict = some d ∧ entryFits s.bounds n key.length = true ∧
      t = (s.setEncDict (d ++ [(key, n)])).setCount (n + 1) := by
  cases hn : s.count with
  | none => simp [assignKey, hn] at h
  | some n =>
    cases hb : entryFits s.bounds n key.length with
    | false => simp [assignKey, hn, checkCapacity_raise hb] at h
    | true =>
      cases hd : s.encDict with
      | none => simp [assignKey, hn, checkCapacity_pass hb, hd] at h
      | some d =>
        rw [assignKey_run hn hd hb] at h
        simp only [EStateM.Result.ok.injEq, true_and] at h
        exact ⟨n, d, rfl, rfl, hb, h.symm⟩

theorem assignKey_raise {key : List CodeUnit} {n : Nat} (hn : s.count = some n)
    (hb : entryFits s.bounds n key.length = false) :
    assignKey key s = .error (.job (.capacityExceeded n)) s := by
  simp [assignKey, hn, checkCapacity_raise hb]

theorem keeps_assignKey {R : State → State → Prop} (hR : Composes R) (h1 : ∀ s v, R s (s.setCount v))
    (key : List CodeUnit) (h2 : ∀ s d n, s.encDict = some d → R s (s.setEncDict (d ++ [(key, n)]))) :
    Keeps R (assignKey key) := by
  refine keeps_bind hR (keeps_read hR _ _) fun n => keeps_bind hR (keeps_readBounds hR) fun b =>
    keeps_bind hR (keeps_checkCapacity hR _ _) fun _ => ?_
  intro s
  cases hd : s.encDict with
  | none => simp [hd, hR.same]
  | some d =>
    refine ⟨fun a t h => ?_, fun e t h => ?_⟩
    · simp only [bind_run, readEncDict_run, hd, held_some, write_run, EStateM.Result.ok.injEq, true_and] at h
      subst h
      exact hR.trans (h2 s d n hd) (h1 _ _)
    · simp [hd] at h

theorem assignKey_stops (key : List CodeUnit) : StopsOnly CapacityOnly (assignKey key) :=
  stopsOnly_bind (stopsOnly_read (capacityOnly_fault _) _) fun _ => stopsOnly_bind stopsOnly_readBounds fun _ =>
    stopsOnly_bind (stopsOnly_checkCapacity (capacityOnly_capacity _)) fun _ =>
    stopsOnly_bind (stopsOnly_read (capacityOnly_fault _) _) fun _ =>
    stopsOnly_bind (stopsOnly_write _) fun _ => stopsOnly_write _

/-- The state after the entry of an INSERT is appended, before its tick. -/
def appended (entry : List CodeUnit) (d : DecDict) (n : Nat) (s : State) : State :=
  (s.setDecDict (d ++ [entry])).setCount (n + 1)

theorem insertEntry_run {entry : List CodeUnit} {n w e : Nat} {d : DecDict} (hn : s.count = some n)
    (hd : s.decDict = some d) (hw : s.indexBits = some w) (he : s.enlargeIn = some e) (h0 : e ≠ 0)
    (hb : entryFits s.bounds n entry.length = true) (ht : tickFits s.bounds ⟨w, e⟩ = true) :
    insertEntry entry s = .ok () (ticked ⟨w, e⟩ (appended entry d n s)) := by
  have := tick_run (s := appended entry d n s) hw he h0 ht
  simp only [appended] at this
  simp [insertEntry, hn, hd, checkCapacity_pass hb, this, appended]

theorem insertEntry_ok {entry : List CodeUnit} (h : insertEntry entry s = .ok () t) :
    ∃ n d w e, s.count = some n ∧ s.decDict = some d ∧ s.indexBits = some w ∧ s.enlargeIn = some e ∧ e ≠ 0 ∧
      entryFits s.bounds n entry.length = true ∧ tickFits s.bounds ⟨w, e⟩ = true ∧
      t = ticked ⟨w, e⟩ (appended entry d n s) := by
  cases hn : s.count with
  | none => simp [insertEntry, hn] at h
  | some n =>
    cases hb : entryFits s.bounds n entry.length with
    | false => simp [insertEntry, hn, checkCapacity_raise hb] at h
    | true =>
      cases hd : s.decDict with
      | none => simp [insertEntry, hn, checkCapacity_pass hb, hd] at h
      | some d =>
        have h' : tick (appended entry d n s) = .ok () t := by
          simpa [insertEntry, hn, checkCapacity_pass hb, hd, appended] using h
        obtain ⟨w, e, hw, he, h0, hf, rfl⟩ := tick_ok h'
        exact ⟨n, d, w, e, rfl, rfl, hw, he, h0, hb, hf, rfl⟩

theorem keeps_insertEntry {R : State → State → Prop} (hR : Composes R) (entry : List CodeUnit)
    (h1 : ∀ s v, R s (s.setCount v)) (h2 : ∀ s d, s.decDict = some d → R s (s.setDecDict (d ++ [entry])))
    (h3 : ∀ s v, R s (s.setEnlargeIn v)) (h4 : ∀ s v, R s (s.setIndexBits v)) : Keeps R (insertEntry entry) := by
  refine keeps_bind hR (keeps_read hR _ _) fun n => keeps_bind hR (keeps_readBounds hR) fun b =>
    keeps_bind hR (keeps_checkCapacity hR _ _) fun _ => ?_
  have hk : Keeps R (write (State.setCount (n + 1)) >>= fun _ => tick) :=
    keeps_bind hR (keeps_write fun s => h1 s _) fun _ => keeps_tick hR h3 h4
  intro s
  cases hd : s.decDict with
  | none => simp [hd, hR.same]
  | some d =>
    have hstart : ((readDecDict >>= fun d => write (State.setDecDict (d ++ [entry])) >>= fun _ =>
        write (State.setCount (n + 1)) >>= fun _ => tick : M Unit)) s
        = (write (State.setCount (n + 1)) >>= fun _ => tick : M Unit) (s.setDecDict (d ++ [entry])) := by
      simp [hd]
    have hfirst := h2 s d hd
    refine ⟨fun a t h => ?_, fun e t h => ?_⟩
    · exact hR.trans hfirst ((hk _).1 a t (hstart ▸ h))
    · exact hR.trans hfirst ((hk _).2 e t (hstart ▸ h))

theorem insertEntry_stops (entry : List CodeUnit) : StopsOnly CapacityOnly (insertEntry entry) :=
  stopsOnly_bind (stopsOnly_read (capacityOnly_fault _) _) fun _ => stopsOnly_bind stopsOnly_readBounds fun _ =>
    stopsOnly_bind (stopsOnly_checkCapacity (capacityOnly_capacity _)) fun _ =>
    stopsOnly_bind (stopsOnly_read (capacityOnly_fault _) _) fun _ =>
    stopsOnly_bind (stopsOnly_write _) fun _ => stopsOnly_bind (stopsOnly_write _) fun _ => tick_stops

end Sys2Proof.Machine
end

