-- ==== Sys2Proof/Laws/Dictionary.lean ====
section
/-! SUPPORT. The width schedule, the bounds and the Encoder's dictionary as plain data. -/

namespace Sys2Proof.Machine

/-! ### The bounds -/

/-- A bound that allows a value allows the smaller ones. -/
theorem allows_mono {b : Option Nat} {m n} (h : Bounds.allows b n = true) (hm : m ≤ n) : Bounds.allows b m = true := by
  unfold Bounds.allows at *; cases b <;> simp_all; omega

/-- A smaller dictionary and a shorter entry fit where larger ones do. -/
theorem entryFits_mono {b : Bounds} {n m l l'} (h : entryFits b n l = true) (hm : m ≤ n) (hl : l' ≤ l) : entryFits b m
    l' = true := by
  simp only [entryFits, Bool.and_eq_true] at *
  obtain ⟨h1, h2⟩ := h
  unfold Bounds.allows at *
  constructor
  · cases hb : b.maxEntries <;> simp_all; omega
  · cases hb : b.maxEntryLen <;> simp_all; omega

theorem allows_false {b : Option Nat} {n} (h : Bounds.allows b n = false) : b ≠ none := by
  rintro rfl; simp [Bounds.allows] at h

theorem tickFits_false {b x} (h : tickFits b x = false) : b ≠ Bounds.unbounded := by
  rintro rfl; simp at h

theorem entryFits_false {b n l} (h : entryFits b n l = false) : b ≠ Bounds.unbounded := by
  rintro rfl; simp at h

/-! ### The schedule -/

theorem ticks_succ (n x) : ticks (n+1) x = ticks n (scheduleTick x) := rfl

theorem ticks_add (m n x) : ticks (m+n) x = ticks n (ticks m x) := by
  induction m generalizing x with
  | zero => simp [ticks]
  | succ m ih => rw [Nat.succ_add, ticks_succ, ih, ticks_succ]

/-- A tick of a countdown that is not 0, in the two cases of R160. -/
theorem scheduleTick_cases (w e : Nat) (h : 1 ≤ e) : scheduleTick ⟨w,e⟩
    = ⟨if e = 1 then w+1 else w, if e = 1 then 2^w else e-1⟩ := by
  by_cases h1 : e = 1
  · subst h1; simp [scheduleTick]
  · simp [scheduleTick, h1, show ¬ e - 1 = 0 by omega]

/-- No tick leaves the countdown at 0. -/
theorem scheduleTick_pos (x : Schedule) : 1 ≤ (scheduleTick x).enlargeIn := by
  unfold scheduleTick; split
  · exact Nat.one_le_two_pow
  · simp; omega

theorem scheduleOk_tick {w e} (h : ScheduleOk w e) : ScheduleOk (scheduleTick ⟨w,e⟩).indexBits
    (scheduleTick ⟨w,e⟩).enlargeIn := by
  obtain ⟨h1, h2, h3⟩ := h
  unfold scheduleTick
  dsimp only
  split
  · refine ⟨by simp; omega, Nat.one_le_two_pow, by simp⟩
  · exact ⟨h1, by dsimp only; omega, by dsimp only; omega⟩

theorem tick_balance {w e} (h : 1 ≤ e) (x y : Nat) (hb : x + e = 2^w + (y + 1)) : x + (scheduleTick ⟨w,e⟩).enlargeIn
    = 2^(scheduleTick ⟨w,e⟩).indexBits + y := by
  unfold scheduleTick
  dsimp only
  split
  · simp only [Nat.pow_succ]; omega
  · simp only; omega

/-! ### The dictionary -/

/-- A pair appended last is found last. -/
theorem encLookup_append (d : EncDict) (x) (k) : encLookup (d ++ [x]) k = (encLookup d k).or
    (if x.1 = k then some x.2 else none) := by
  induction d with
  | nil => simp [encLookup]
  | cons a d ih => obtain ⟨a1,a2⟩ := a; by_cases h : a1 = k <;> simp [encLookup, h, ih]

/-- What a lookup finds is in the dictionary. -/
theorem mem_of_encLookup {d : EncDict} {k n} (h : encLookup d k = some n) : (k, n) ∈ d := by
  induction d with
  | nil => simp [encLookup] at h
  | cons x r ih =>
    obtain ⟨k', n'⟩ := x
    simp only [encLookup] at h
    split at h
    · rename_i hk; cases h; simp [hk]
    · simp [ih h]

/-- A lookup fails on the keys that are not there. -/
theorem encLookup_eq_none {d : EncDict} {k} : encLookup d k = none ↔ k ∉ keysOf d := by
  induction d with
  | nil => simp [encLookup, keysOf]
  | cons x r ih =>
    obtain ⟨k', n'⟩ := x
    simp only [encLookup, keysOf, List.map_cons, List.mem_cons] at *
    split
    · rename_i h; simp [h]
    · rename_i h; rw [ih]; simp [Ne.symm (h : k' ≠ k)]

theorem encLookup_of_mem {d : EncDict} {k} (h : k ∈ keysOf d) : ∃ n, encLookup d k = some n := by
  cases hl : encLookup d k with
  | none => exact absurd h (encLookup_eq_none.mp hl)
  | some n => exact ⟨n, rfl⟩

/-- An index in a dictionary lies between 3 and its count. -/
theorem encLookup_range {d : EncDict} {n} (ok : EncDictOk d n) {k m} (h : encLookup d k = some m) : 3 ≤ m ∧ m < n := by
  have h1 := mem_of_encLookup h
  have h2 : m ∈ d.map Prod.snd := List.mem_map_of_mem (f := Prod.snd) h1
  rw [ok.indices] at h2
  simp [List.mem_range'] at h2
  obtain ⟨i, hi, rfl⟩ := h2
  have := ok.count
  omega

/-- The keys after ASSIGN. -/
theorem mem_keys_append {d : EncDict} {k k' n} : k ∈ keysOf (d ++ [(k', n)]) ↔ k ∈ keysOf d ∨ k = k' := by
  simp [keysOf]

/-- ASSIGN of a new non-empty key keeps the dictionary well made. -/
theorem encDictOk_append {d : EncDict} {n k} (h : EncDictOk d n) (hk : k ∉ keysOf d) (h0 : k ≠ [])
    (hu : ∀ c ∈ k, [c] ∈ keysOf d ∨ [c] = k) :
    EncDictOk (d ++ [(k, n)]) (n+1) := by
  refine ⟨?_, ?_, ?_, ?_, ?_⟩
  · have := h.count; simp; omega
  · simp [h.indices, h.count, List.range'_concat]
  · simp only [keysOf, List.map_append, List.map_cons, List.map_nil]
    exact List.nodup_append.mpr ⟨h.distinct, by simp, by intro a ha b hb; simp at hb; subst hb; rintro rfl; exact hk ha⟩
  · intro x hx; rcases mem_keys_append.mp hx with hx | rfl
    · exact h.nonempty x hx
    · exact h0
  · intro x hx c hc; apply mem_keys_append.mpr
    rcases mem_keys_append.mp hx with hx | rfl
    · exact .inl (h.units x hx c hc)
    · exact hu c hc

/-- A word that is sent as an index has one that fits the width (R109). -/
theorem index_lt_two_pow {v : EncView} (ok : EncMatching v) {m} (hnp : ∀ c, v.word = [c] → c ∉ v.pending)
    (h : encLookup v.encDict v.word = some m) :
    3 ≤ m ∧ m < 2 ^ v.indexBits := by
  have h1 := encLookup_range ok.dict h
  refine ⟨h1.1, ?_⟩
  have h2 := ok.balance
  have h3 : v.pending.length = 0 := by
    rcases ok.pending with h | ⟨c, hc, hw⟩
    · simp [h]
    · exact absurd (by simp [hc]) (hnp c hw)
  have := ok.schedule.low
  omega

/-! ### `pending` -/

theorem pendingSingleton_some {p : List CodeUnit} {w u} (h : pendingSingleton p w = some u) : w = [u] ∧ u ∈ p := by
  unfold pendingSingleton at h; split at h
  · split at h <;> simp_all
  · cases h

theorem pendingSingleton_none {p : List CodeUnit} {w} (h : pendingSingleton p w = none) : ∀ u, w = [u] → u ∉ p := by
  rintro u rfl; simpa [pendingSingleton] using h

theorem pendingErase_singleton (x : CodeUnit) : pendingErase [x] x = [] := by simp [pendingErase]

theorem pendingErase_pair {x c : CodeUnit} (h : x ≠ c) : pendingErase [x, c] x
    = [c] := by simp [pendingErase, Ne.symm h]

end Sys2Proof.Machine
end

