-- ==== Sys2Proof/Laws/Rules.lean ====
section
/-! SUPPORT. The rules of the Encoder and the Decoder: how each runs when its registers hold values and the bounds
    allow, and which registers it may touch. -/

namespace Sys2Proof.Machine

/-! ### Units -/

theorem setWidth_of_toNat_eq (v : Byte) (c : CodeUnit) (h : v.toNat = c.toNat) : v.setWidth 16 = c := by
  apply BitVec.eq_of_toNat_eq; simp [h]; omega

theorem toNat_setWidth_of_lt (u : CodeUnit) (h : u.toNat < 256) : (u.setWidth 8 : Byte).toNat = u.toNat := by
  simp; omega

/-! ### Performing -/

/-- A rule never refuses. -/
theorem perform_ne_refused {m : M Unit} {s r} : perform m s ≠ .refused r := by
  unfold perform; split <;> simp

variable {R : State → State → Prop}

/-- A relation an operation keeps, `raise` with it, holds across its performance. -/
theorem perform_keeps {m : M Unit} (hm : Keeps R m) (hR : Composes R) (hr : ∀ s e, R s (State.raise e s)) {s t}
    (h : perform m s = .next t) : R s t := by
  rcases perform_next.mp h with h1 | ⟨e, u, h1, rfl⟩
  · exact (hm s).1 () t h1
  · exact hR.trans ((hm s).2 _ u h1) (hr u e)

/-! ### The Encoder -/

/-- A literal's emission, run to its end. -/
theorem emitLit_run {s : State} {w e : Nat} {p : List CodeUnit} {bits : List Bool} {code v m} {c : CodeUnit}
    (hw : s.indexBits = some w) (he : s.enlargeIn = some e) (h1 : 1 ≤ e) (hp : s.pending = some p)
        (hb : s.obits = some bits)
    (ht : tickFits s.bounds ⟨w, e⟩ = true) (ht2 : tickFits s.bounds (ticks 1 ⟨w, e⟩) = true)
    (ho : Bounds.allows s.bounds.maxOutBytes ((bits.length + (w + m) + 7) / 8) = true) :
    (do sinkWriteRev code w; sinkWriteRev v m; tick; clearPending c; tick : M Unit) s = .ok ()
     { s with obits := some (bits ++ lsbFirst w code ++ lsbFirst m v), indexBits := some (ticks 2 ⟨w, e⟩).indexBits, enlargeIn := some (ticks 2 ⟨w, e⟩).enlargeIn, pending := some (pendingErase p c) } := by
  have a1 := sinkWriteRev_run (v := code) (n := w) hb (allows_mono ho (by omega))
  have a2 := sinkWriteRev_run (s := s.setObits (bits ++ lsbFirst w code)) (v := v) (n := m)
      (bits := bits ++ lsbFirst w code) rfl (allows_mono ho (by simp; omega))
  have a3 := tick_run (s := (s.setObits (bits ++ lsbFirst w code)).setObits (bits ++ lsbFirst w code ++ lsbFirst m v))
      hw he (by omega) ht
  have a4 := tick_run (s := (ticked ⟨w,e⟩ ((s.setObits (bits ++ lsbFirst w code)).setObits
      (bits ++ lsbFirst w code ++ lsbFirst m v))).setPending (pendingErase p c))
     (w := (scheduleTick ⟨w,e⟩).indexBits) (e := (scheduleTick ⟨w,e⟩).enlargeIn) rfl rfl
         (by have := scheduleTick_pos ⟨w,e⟩; omega) ht2
  have hp' : (ticked ⟨w,e⟩ ((s.setObits (bits ++ lsbFirst w code)).setObits
      (bits ++ lsbFirst w code ++ lsbFirst m v))).pending = some p := hp
  simp only [bind_run, a1, a2, a3, clearPending, readPending_run, hp', held_some, write_run, a4]
  simp [ticked, ticks, State.setPending, State.setObits, State.setIndexBits, State.setEnlargeIn]

/-- An index's emission, run to its end. -/
theorem emitIdx_run {s : State} {n w e : Nat} {bits : List Bool}
    (hw : s.indexBits = some w) (he : s.enlargeIn = some e) (h1 : 1 ≤ e) (hb : s.obits = some bits)
    (ht : tickFits s.bounds ⟨w, e⟩ = true)
    (ho : Bounds.allows s.bounds.maxOutBytes ((bits.length + w + 7) / 8) = true) :
    emitIdx n w s = .ok () (ticked ⟨w,e⟩ (s.setObits (bits ++ lsbFirst w n))) := by
  have a1 := sinkWriteRev_run (v := n) (n := w) hb ho
  have a3 := tick_run (s := (s.setObits (bits ++ lsbFirst w n))) hw he (by omega) ht
  simp only [emitIdx, bind_run, a1, a3]

theorem perform_emit_ok {w s t} (h : perform (emit w) s = .next t) (hp : t.phase ≠ .fail) : emit w s = .ok () t := by
  rcases perform_next.mp h with h1 | ⟨e, u, h1, rfl⟩
  · exact h1
  · simp [State.raise] at hp

theorem firstSight_known {s : State} {c d n} (hd : s.encDict = some d) (h : encLookup d [c] = some n) : firstSight c s
    = .ok () s := by
  simp only [firstSight, bind_run, readEncDict_run, hd, held_some, h, pure_run]

theorem firstSight_new {s : State} {c d n p} (hd : s.encDict = some d) (h : encLookup d [c] = none)
    (hn : s.count = some n) (hp : s.pending = some p)
    (hf : entryFits s.bounds n 1 = true) : firstSight c s = .ok ()
        (((s.setEncDict (d ++ [([c], n)])).setCount (n+1)).setPending (pendingInsert p c)) := by
  have := assignKey_run (key := [c]) hn hd hf
  simp only [firstSight, bind_run, readEncDict_run, hd, held_some, h, this, readPending_run, State.setCount_pending,
      State.setEncDict_pending, hp, write_run]

theorem extend_known {s : State} {c w d n} (hw : s.word = some w) (hd : s.encDict = some d)
    (h : encLookup d (w ++ [c]) = some n) :
    extendOrEmit c s = .ok () (s.setWord (w ++ [c])) := by
  simp only [extendOrEmit, bind_run, readWord_run, hw, readEncDict_run, hd, held_some, h, write_run]

theorem extend_new {s m : State} {c w d d' n} (hw : s.word = some w) (hd : s.encDict = some d)
    (h : encLookup d (w ++ [c]) = none)
    (he : emit w s = .ok () m) (hn : m.count = some n) (hd' : m.encDict = some d')
        (hf : entryFits m.bounds n (w.length + 1) = true) :
    extendOrEmit c s = .ok () (((m.setEncDict (d' ++ [(w ++ [c], n)])).setCount (n+1)).setWord [c]) := by
  have := assignKey_run (key := w ++ [c]) hn hd' (by simpa using hf)
  simp only [extendOrEmit, bind_run, readWord_run, hw, readEncDict_run, hd, held_some, h, he, this, write_run]

/-- ENC_UNIT, from the runs of its two parts. -/
theorem encUnit_run {s m1 m2 : State} {u i c} (hu : s.U = some u) (hi : s.ipos = some i) (hc : u[i]? = some c)
    (h1 : firstSight c s = .ok () m1) (h2 : extendOrEmit c m1 = .ok () m2) :
    encUnit s = .ok () (if i + 1 = u.length then (m2.setIpos (i+1)).setPhase .encFlush else m2.setIpos (i+1)) := by
  by_cases h : i + 1 = u.length
  all_goals
    simp only [encUnit, bind_run, readU_run, hu, readIpos_run, hi, held_some, hc, h1, h2, write_run]
    simp [h]

/-! ### The Decoder -/

/-- A first literal, run to its end. -/
theorem firstLiteral_run {s : State} {n w e : Nat} {d : DecDict} {o : List CodeUnit} {c : CodeUnit}
    (hn : s.count = some n) (hd : s.decDict = some d) (hw : s.indexBits = some w) (he : s.enlargeIn = some e)
        (h1 : 1 ≤ e)
    (ho : s.out = some o) (hf : entryFits s.bounds n 1 = true) (ht : tickFits s.bounds ⟨w, e⟩ = true)
    (hu : Bounds.allows s.bounds.maxOutUnits (o.length + 1) = true) :
    firstLiteral c s = .ok () ((((ticked ⟨w,e⟩ (appended [c] d n s)).setWord [c]).setOut (o ++ [c])).setPhase
        .decLoop) := by
  simp [firstLiteral, ho, checkOutUnits_run hu, insertEntry_run (entry := [c]) hn hd hw he (by omega) hf ht]

/-- COMMIT, run to its end. -/
theorem commit_run {s : State} {n w e : Nat} {d : DecDict} {o word rest: List CodeUnit} {c : CodeUnit}
    (hn : s.count = some n) (hd : s.decDict = some d) (hw : s.indexBits = some w) (he : s.enlargeIn = some e)
        (h1 : 1 ≤ e)
    (ho : s.out = some o) (hword : s.word = some word) (hf : entryFits s.bounds n (word.length + 1) = true)
        (ht : tickFits s.bounds ⟨w, e⟩ = true)
    (hu : Bounds.allows s.bounds.maxOutUnits (o.length + (c :: rest).length) = true) :
    commit (c :: rest) s = .ok () ((ticked ⟨w,e⟩ (appended (word ++ [c]) d n (s.setOut (o ++ c :: rest)))).setWord
        (c :: rest)) := by
  have hf' : entryFits s.bounds n (word ++ [c]).length = true := by simpa using hf
  have := insertEntry_run (s := s.setOut (o ++ c :: rest)) (entry := word ++ [c]) hn hd hw he (by omega) hf' ht
  simp only [commit, bind_run, readOut_run, ho, held_some, checkOutUnits_run hu, write_run, readWord_run,
      State.setOut_word, hword, headUnit, pure_run, this]

/-- RESOLVE raises only beyond the count, and then writes nothing. -/
theorem resolve_stop {s t : State} {target n e} (hn : s.count = some n) (h : resolve target s = .error (.job e) t) : n
    < target ∧ t = s ∧ e = .corruptTarget target n := by
  simp only [resolve, bind_run, readCount_run, hn, held_some] at h
  by_cases h1 : target < n
  · simp only [h1, if_true, bind_run, readDecDict_run] at h
    cases hd : s.decDict with
    | none => simp [hd] at h
    | some d =>
      simp only [hd, held_some, decGet] at h
      cases he : d[target]? <;> simp [he] at h
  · by_cases h2 : target = n
    · simp only [h2, lt_irrefl, if_false, if_true, bind_run, readWord_run] at h
      cases hw : s.word with
      | none => simp [hw] at h
      | some w => cases w <;> simp [hw, headUnit] at h
    · simp [h1, h2] at h; exact ⟨by omega, h.2.symm, h.1.symm⟩

/-! ### Past a bound -/

/-- An operation that ends the job with CAPACITY_EXCEEDED. -/
def Overflows {α : Type} (m : M α) (s : State) : Prop := ∃ i u, m s = .error (.job (.capacityExceeded i)) u

theorem overflows_left {α β : Type} {m : M α} {f : α → M β} {s} (h : Overflows m s) : Overflows (m >>= f) s := by
  obtain ⟨i, u, h⟩ := h; exact ⟨i, u, by simp [h]⟩

theorem overflows_right {α β : Type} {m : M α} {f : α → M β} {s t a} (hm : m s = .ok a t) (h : Overflows (f a) t) :
    Overflows (m >>= f) s := by
  obtain ⟨i, u, h⟩ := h; exact ⟨i, u, by simp [hm, h]⟩

/-- The next state of a rule that ends so. -/
theorem perform_overflows {m : M Unit} {s} (h : Overflows m s) : ∃ t, perform m s = .next t ∧ t.PastCapacity := by
  obtain ⟨i, u, h⟩ := h; exact ⟨_, perform_of_job h, rfl, rfl, rfl⟩

theorem tick_overflows {s : State} {w e} (hw : s.indexBits = some w) (he : s.enlargeIn = some e) (h1 : 1 ≤ e)
    (ht : tickFits s.bounds ⟨w, e⟩ = false) : Overflows tick s :=
  ⟨w, s, by simp [tick, hw, he, show e ≠ 0 by omega, checkCapacity_raise ht]⟩

theorem sinkWriteRev_overflows {s : State} {bits v n} (hs : s.obits = some bits) (hn : n ≠ 0)
    (hb : Bounds.allows s.bounds.maxOutBytes ((bits.length + n + 7) / 8) = false) : Overflows (sinkWriteRev v n) s :=
  ⟨_, _, sinkWriteBits_raise hs hn hb⟩

theorem checkOutUnits_overflows {s : State} {L} (h : Bounds.allows s.bounds.maxOutUnits L = false) :
    Overflows (checkOutUnits L) s := ⟨L, s, by simp [checkOutUnits, checkCapacity_raise h]⟩

theorem assignKey_overflows {s : State} {key n} (hn : s.count = some n)
    (hf : entryFits s.bounds n key.length = false) : Overflows (assignKey key) s := ⟨_, _, assignKey_raise hn hf⟩

theorem insertEntry_overflows {s : State} {entry : List CodeUnit} {n w e d} (hn : s.count = some n)
    (hd : s.decDict = some d) (hw : s.indexBits = some w) (he : s.enlargeIn = some e) (h1 : 1 ≤ e)
    (hf : (entryFits s.bounds n entry.length && tickFits s.bounds ⟨w, e⟩) = false) :
    Overflows (insertEntry entry) s := by
  cases hb : entryFits s.bounds n entry.length with
  | false => exact ⟨n, s, by simp [insertEntry, hn, checkCapacity_raise hb]⟩
  | true =>
    obtain ⟨i, u, h⟩ := tick_overflows (s := appended entry d n s) (w := w) (e := e) hw he h1
      (by simpa [hb, appended] using hf)
    exact ⟨i, u, by simpa [insertEntry, hn, hd, checkCapacity_pass hb, appended] using h⟩

/-- A literal's emission past a bound, whichever check is first. -/
theorem emitLit_overflows {s : State} {w e : Nat} {p : List CodeUnit} {bits : List Bool} {code v m} {c : CodeUnit}
    (hw : s.indexBits = some w) (he : s.enlargeIn = some e) (h1 : 1 ≤ e) (hp : s.pending = some p)
    (hb : s.obits = some bits) (hm : m ≠ 0)
    (h : (Bounds.allows s.bounds.maxOutBytes ((bits.length + (w + m) + 7) / 8) && tickFits s.bounds ⟨w, e⟩ &&
      tickFits s.bounds (ticks 1 ⟨w, e⟩)) = false) :
    Overflows (do sinkWriteRev code w; sinkWriteRev v m; tick; clearPending c; tick : M Unit) s := by
  have hb1 : (s.setObits (bits ++ lsbFirst w code)).obits = some (bits ++ lsbFirst w code) := rfl
  cases ho : Bounds.allows s.bounds.maxOutBytes ((bits.length + (w + m) + 7) / 8) with
  | false =>
    cases ho1 : Bounds.allows s.bounds.maxOutBytes ((bits.length + w + 7) / 8) with
    | false =>
      by_cases h0 : w = 0
      · subst h0
        have hz : sinkWriteRev code 0 s = .ok () s := sinkWriteBits_zero _
        exact overflows_right hz (overflows_left (sinkWriteRev_overflows hb hm (by simpa using ho)))
      · exact overflows_left (sinkWriteRev_overflows hb h0 ho1)
    | true =>
      refine overflows_right (sinkWriteRev_run hb ho1) (overflows_left (sinkWriteRev_overflows hb1 hm ?_))
      simpa [Nat.add_assoc] using ho
  | true =>
    refine overflows_right (sinkWriteRev_run hb (allows_mono ho (by omega))) ?_
    refine overflows_right (sinkWriteRev_run hb1 (allows_mono ho (by simp; omega))) ?_
    cases ht : tickFits s.bounds ⟨w, e⟩ with
    | false => exact overflows_left (tick_overflows (w := w) (e := e) hw he h1 ht)
    | true =>
      refine overflows_right (tick_run (w := w) (e := e) hw he (by omega) ht) ?_
      refine overflows_right (a := ()) (t := (ticked ⟨w, e⟩ ((s.setObits (bits ++ lsbFirst w code)).setObits
          (bits ++ lsbFirst w code ++ lsbFirst m v))).setPending (pendingErase p c)) ?_ ?_
      · have hp' : (ticked ⟨w, e⟩ ((s.setObits (bits ++ lsbFirst w code)).setObits
            (bits ++ lsbFirst w code ++ lsbFirst m v))).pending = some p := hp
        simp only [clearPending, bind_run, readPending_run, hp', held_some, write_run]
      · have h2 : tickFits s.bounds (ticks 1 ⟨w, e⟩) = false := by simpa [ho, ht] using h
        exact tick_overflows (w := (scheduleTick ⟨w, e⟩).indexBits) (e := (scheduleTick ⟨w, e⟩).enlargeIn) rfl rfl
          (scheduleTick_pos _) h2

/-- An index's emission past a bound. -/
theorem emitIdx_overflows {s : State} {n w e : Nat} {bits : List Bool} (hw : s.indexBits = some w)
    (he : s.enlargeIn = some e) (h1 : 1 ≤ e) (hb : s.obits = some bits)
    (h : ((w == 0 || Bounds.allows s.bounds.maxOutBytes ((bits.length + w + 7) / 8)) && tickFits s.bounds ⟨w, e⟩)
      = false) : Overflows (emitIdx n w) s := by
  by_cases h0 : w = 0
  · subst h0
    have hz : sinkWriteRev n 0 s = .ok () s := sinkWriteBits_zero _
    exact overflows_right hz (tick_overflows hw he h1 (by simpa using h))
  · cases ho : Bounds.allows s.bounds.maxOutBytes ((bits.length + w + 7) / 8) with
    | false => exact overflows_left (sinkWriteRev_overflows hb h0 ho)
    | true => exact overflows_right (sinkWriteRev_run hb ho) (tick_overflows (w := w) (e := e) hw he h1
        (by simpa [h0, ho] using h))

/-- COMMIT past a bound. -/
theorem commit_overflows {s : State} {n w e : Nat} {d : DecDict} {o word rest : List CodeUnit} {c : CodeUnit}
    (hn : s.count = some n) (hd : s.decDict = some d) (hw : s.indexBits = some w) (he : s.enlargeIn = some e)
    (h1 : 1 ≤ e) (ho : s.out = some o) (hword : s.word = some word)
    (h : (Bounds.allows s.bounds.maxOutUnits (o.length + (c :: rest).length) &&
      entryFits s.bounds n (word.length + 1) && tickFits s.bounds ⟨w, e⟩) = false) :
    Overflows (commit (c :: rest)) s := by
  have hr : readOut s = .ok o s := by simp [ho]
  unfold commit
  refine overflows_right hr ?_
  cases hu : Bounds.allows s.bounds.maxOutUnits (o.length + (c :: rest).length) with
  | false => exact overflows_left (checkOutUnits_overflows hu)
  | true =>
    refine overflows_right (checkOutUnits_run hu) (overflows_right (write_run _ _) ?_)
    have hr2 : readWord (s.setOut (o ++ c :: rest)) = .ok word (s.setOut (o ++ c :: rest)) := by simp [hword]
    refine overflows_right hr2 (overflows_right (a := c) (t := s.setOut (o ++ c :: rest)) (by simp [headUnit]) ?_)
    exact overflows_left (insertEntry_overflows (n := n) (d := d) (w := w) (e := e) hn hd hw he h1
      (by simpa only [hu, Bool.true_and, List.length_append, List.length_singleton, State.setOut_bounds] using h))

/-- A first literal past a bound. -/
theorem firstLiteral_overflows {s : State} {n w e : Nat} {d : DecDict} {o : List CodeUnit} {c : CodeUnit}
    (hn : s.count = some n) (hd : s.decDict = some d) (hw : s.indexBits = some w) (he : s.enlargeIn = some e)
    (h1 : 1 ≤ e) (ho : s.out = some o)
    (h : (Bounds.allows s.bounds.maxOutUnits (o.length + 1) && entryFits s.bounds n 1 && tickFits s.bounds ⟨w, e⟩)
      = false) : Overflows (firstLiteral c) s := by
  have hr : readOut s = .ok o s := by simp [ho]
  unfold firstLiteral
  refine overflows_right hr ?_
  cases hu : Bounds.allows s.bounds.maxOutUnits (o.length + 1) with
  | false => exact overflows_left (checkOutUnits_overflows hu)
  | true =>
    exact overflows_right (checkOutUnits_run hu) (overflows_left (insertEntry_overflows (entry := [c]) hn hd hw he h1
      (by simpa [hu] using h)))

/-! ### What an emission keeps -/

theorem keeps_clearPending (hR : Composes R) (h : ∀ s v, R s (s.setPending v)) (u) : Keeps R (clearPending u) :=
  keeps_bind hR (keeps_read hR _ _) fun _ => keeps_write fun s => h s _

theorem keeps_emitLit (hR : Composes R) (h1 : ∀ s v, R s (s.setObits v)) (h2 : ∀ s v, R s (s.setPending v))
    (h3 : ∀ s v, R s (s.setIndexBits v)) (h4 : ∀ s v, R s (s.setEnlargeIn v)) (code v m w u) :
    Keeps R (do sinkWriteRev code w; sinkWriteRev v m; tick; clearPending u; tick : M Unit) :=
  keeps_bind hR (keeps_sinkWriteBits hR h1 _ _) fun _ => keeps_bind hR (keeps_sinkWriteBits hR h1 _ _) fun _ =>
   keeps_bind hR (keeps_tick hR h4 h3) fun _ => keeps_bind hR (keeps_clearPending hR h2 _) fun _ => keeps_tick hR h4 h3

theorem keeps_emitIdx (hR : Composes R) (h1 : ∀ s v, R s (s.setObits v))
    (h3 : ∀ s v, R s (s.setIndexBits v)) (h4 : ∀ s v, R s (s.setEnlargeIn v)) (n w) :
    Keeps R (emitIdx n w) :=
  keeps_bind hR (keeps_sinkWriteBits hR h1 _ _) fun _ => keeps_tick hR h4 h3

theorem keeps_emit (hR : Composes R) (h1 : ∀ s v, R s (s.setObits v)) (h2 : ∀ s v, R s (s.setPending v))
    (h3 : ∀ s v, R s (s.setIndexBits v)) (h4 : ∀ s v, R s (s.setEnlargeIn v)) (w) : Keeps R (emit w) := by
  refine keeps_bind hR (keeps_read hR _ _) fun W => keeps_bind hR (keeps_read hR _ _) fun p => ?_
  split
  · split
    · exact keeps_emitLit hR h1 h2 h3 h4 _ _ _ _ _
    · exact keeps_emitLit hR h1 h2 h3 h4 _ _ _ _ _
  · refine keeps_bind hR (keeps_read hR _ _) fun d => ?_
    split
    · exact keeps_emitIdx hR h1 h3 h4 _ _
    · exact keeps_stopFault hR _

/-! ### What the Decoder's operations keep -/

theorem keeps_headUnit (hR : Composes R) (l) : Keeps R (headUnit l) := by
  cases l
  · exact keeps_stopFault hR _
  · exact keeps_pure hR _

theorem keeps_resolve (hR : Composes R) (n) : Keeps R (resolve n) := by
  refine keeps_bind hR (keeps_read hR _ _) fun k => ?_
  split
  · refine keeps_bind hR (keeps_read hR _ _) fun d => ?_
    unfold decGet; split
    · exact keeps_pure hR _
    · exact keeps_stopFault hR _
  · split
    · exact keeps_bind hR (keeps_read hR _ _) fun d => keeps_bind hR (keeps_headUnit hR _) fun _ => keeps_pure hR _
    · exact keeps_raiseJob hR _

theorem keeps_checkOutUnits (hR : Composes R) (L) : Keeps R (checkOutUnits L) :=
  keeps_bind hR (keeps_readBounds hR) fun _ => keeps_checkCapacity hR _ _

/-! ### Frames -/

/-- The Encoder's registers, the input, the cursor, the direction, the bounds and the host's side are as before. -/
def LeavesEncoder (s t : State) : Prop := (t.encDict = s.encDict ∧ t.pending = s.pending ∧ t.U = s.U ∧ t.ipos = s.ipos
    ∧ t.obits = s.obits) ∧
    (t.IN = s.IN ∧ t.bpos = s.bpos ∧ t.dir = s.dir) ∧
    (t.bounds = s.bounds ∧ t.host = s.host ∧ t.seen = s.seen)

/-- The same, with the error and the result. -/
def LeavesEncoderSide (s t : State) : Prop := LeavesEncoder s t ∧ t.err = s.err ∧ t.RESULT = s.RESULT

theorem leavesEncoderSide_composes : Composes LeavesEncoderSide :=
    ⟨by intro s; simp [LeavesEncoderSide, LeavesEncoder], by
  rintro s t u ⟨⟨⟨a,b,c,d,e⟩,⟨f,g,h⟩,i,j,k⟩,l,m⟩ ⟨⟨⟨a',b',c',d',e'⟩,⟨f',g',h'⟩,i',j',k'⟩,l',m'⟩
  simp only [LeavesEncoderSide, LeavesEncoder]
  refine ⟨⟨⟨?_,?_,?_,?_,?_⟩,⟨?_,?_,?_⟩,?_,?_,?_⟩,?_,?_⟩ <;> simp [*]⟩

theorem insertEntry_leavesEncoderSide (l) : Keeps LeavesEncoderSide (insertEntry l) :=
  keeps_insertEntry leavesEncoderSide_composes _ (by intros; simp [LeavesEncoderSide, LeavesEncoder])
      (by intros; simp [LeavesEncoderSide, LeavesEncoder]) (by intros; simp [LeavesEncoderSide, LeavesEncoder])
      (by intros; simp [LeavesEncoderSide, LeavesEncoder])

theorem commit_leavesEncoderSide (l) : Keeps LeavesEncoderSide (commit l) :=
  keeps_bind leavesEncoderSide_composes (keeps_read leavesEncoderSide_composes _ _) fun _ => keeps_bind
      leavesEncoderSide_composes (keeps_checkOutUnits leavesEncoderSide_composes _) fun _ =>
   keeps_bind leavesEncoderSide_composes (keeps_write (by intros; simp [LeavesEncoderSide, LeavesEncoder])) fun _ =>
       keeps_bind leavesEncoderSide_composes (keeps_read leavesEncoderSide_composes _ _) fun _ =>
   keeps_bind leavesEncoderSide_composes (keeps_headUnit leavesEncoderSide_composes _) fun _ => keeps_bind
       leavesEncoderSide_composes (insertEntry_leavesEncoderSide _) fun _ =>
       (keeps_write (by intros; simp [LeavesEncoderSide, LeavesEncoder]))

theorem firstLiteral_leavesEncoderSide (v) : Keeps LeavesEncoderSide (firstLiteral v) :=
  keeps_bind leavesEncoderSide_composes (keeps_read leavesEncoderSide_composes _ _) fun _ => keeps_bind
      leavesEncoderSide_composes (keeps_checkOutUnits leavesEncoderSide_composes _) fun _ =>
   keeps_bind leavesEncoderSide_composes (insertEntry_leavesEncoderSide _) fun _ => keeps_bind
       leavesEncoderSide_composes (keeps_write (by intros; simp [LeavesEncoderSide, LeavesEncoder])) fun _ =>
   keeps_bind leavesEncoderSide_composes (keeps_write (by intros; simp [LeavesEncoderSide, LeavesEncoder])) fun _ =>
       (keeps_write (by intros; simp [LeavesEncoderSide, LeavesEncoder]))

theorem loopLiteral_leavesEncoderSide (v) : Keeps LeavesEncoderSide (loopLiteral v) :=
  keeps_bind leavesEncoderSide_composes (keeps_read leavesEncoderSide_composes _ _) fun _ => keeps_bind
      leavesEncoderSide_composes (insertEntry_leavesEncoderSide _) fun _ =>
   keeps_bind leavesEncoderSide_composes (keeps_resolve leavesEncoderSide_composes _) fun _ =>
       commit_leavesEncoderSide _

theorem loopIdx_leavesEncoderSide (v) : Keeps LeavesEncoderSide (loopIdx v) :=
   keeps_bind leavesEncoderSide_composes (keeps_resolve leavesEncoderSide_composes _) fun _ =>
       commit_leavesEncoderSide _

/-- What a rule that leaves the Encoder's side alone has done once it is performed. -/
theorem df2_concl {m : M Unit} (hm : Keeps LeavesEncoderSide m) {s t} (h : perform m s = .next t) :
    LeavesEncoder s t ∧ (t.busy = true → t.err = s.err ∧ t.RESULT = s.RESULT) := by
  rcases perform_next.mp h with h1 | ⟨e, u, h1, rfl⟩
  · have := (hm s).1 () t h1; exact ⟨this.1, fun _ => this.2⟩
  · have := (hm s).2 _ u h1; exact
        ⟨by have := this.1; simp_all [LeavesEncoder, State.raise], by simp [State.raise, State.busy, Phase.busy]⟩

/-- The Decoder's registers, and those of the Encoder's own that no token touches, are as before. -/
def LeavesDecoder (s t : State) : Prop := (t.decDict = s.decDict ∧ t.IN = s.IN ∧ t.bpos = s.bpos ∧ t.out = s.out) ∧
    (t.U = s.U ∧ t.ipos = s.ipos ∧ t.encDict = s.encDict ∧ t.count = s.count ∧ t.word = s.word ∧
      t.dir = s.dir) ∧
    (t.bounds = s.bounds ∧ t.host = s.host ∧ t.seen = s.seen)

/-- The same, with the phase, the error and the result. -/
def LeavesDecoderSide (s t : State) : Prop := LeavesDecoder s t ∧ t.phase = s.phase ∧ t.err = s.err ∧ t.RESULT
    = s.RESULT

theorem leavesDecoderSide_composes : Composes LeavesDecoderSide :=
    ⟨by intro s; simp [LeavesDecoderSide, LeavesDecoder], by
  rintro s t u ⟨⟨⟨a,b,c,d⟩,⟨e,f,g,h,h1,h2⟩,i,j,k⟩,l,m,n⟩ ⟨⟨⟨a',b',c',d'⟩,⟨e',f',g',h',h1',h2'⟩,i',j',k'⟩,l',m',n'⟩
  simp only [LeavesDecoderSide, LeavesDecoder]
  simp [*]⟩

theorem emit_leavesDecoderSide (w : List CodeUnit) : Keeps LeavesDecoderSide (emit w) := keeps_emit
    leavesDecoderSide_composes (by intros; simp [LeavesDecoderSide, LeavesDecoder])
    (by intros; simp [LeavesDecoderSide, LeavesDecoder]) (by intros; simp [LeavesDecoderSide, LeavesDecoder])
    (by intros; simp [LeavesDecoderSide, LeavesDecoder]) w

end Sys2Proof.Machine
end

