-- ==== Sys2Proof/Laws/Step.lean ====
section
/-! SUPPORT. All a step can do: the inversion of the step, and relations that every step keeps. -/

namespace Sys2Proof.Machine

/-! ### Relations kept from one state -/

variable {R : State → State → Prop} {α β : Type}

/-- `Keeps` from one state. -/
def KeepsAt (R : State → State → Prop) (m : M α) (s : State) : Prop :=
  (∀ a t, m s = .ok a t → R s t) ∧ (∀ e t, m s = .error e t → R s t)

theorem keepsAt_of (h : Keeps R (m : M α)) (s) : KeepsAt R m s := h s

theorem keepsAt_bind (hR : Composes R) {m : M α} {f : α → M β} {s} (hm : KeepsAt R m s)
    (hf : ∀ a t, m s = .ok a t → KeepsAt R (f a) t) :
    KeepsAt R (m >>= f) s := by
  refine ⟨fun b u h => ?_, fun e u h => ?_⟩
  · obtain ⟨a, t, h1, h2⟩ := bind_ok.mp h
    exact hR.trans (hm.1 a t h1) ((hf a t h1).1 b u h2)
  · rcases bind_error.mp h with h1 | ⟨a, t, h1, h2⟩
    · exact hm.2 e u h1
    · exact hR.trans (hm.1 a t h1) ((hf a t h1).2 e u h2)

theorem keepsAt_read (hR : Composes R) {r : Reg} {g : State → Option α} {f : α → M β} {s}
    (hf : ∀ a, g s = some a → KeepsAt R (f a) s) :
    KeepsAt R ((fun s => held r (g s) s : M α) >>= f) s := by
  refine keepsAt_bind hR (keepsAt_of (keeps_read hR _ _) _) fun a t h => ?_
  obtain ⟨h1, rfl⟩ := held_ok.mp h
  exact hf a h1

theorem keepsAt_bounds (hR : Composes R) {f : Bounds → M β} {s} (hf : KeepsAt R (f s.bounds) s) :
    KeepsAt R (readBounds >>= f) s := by
  refine keepsAt_bind hR (keepsAt_of (keeps_readBounds hR) _) fun a t h => ?_
  simp at h; obtain ⟨rfl, rfl⟩ := h; exact hf

theorem keepsAt_check (hR : Composes R) {ok i} {f : Unit → M β} {s} (hf : ok = true → KeepsAt R (f ()) s) :
    KeepsAt R (checkCapacity ok i >>= f) s := by
  refine keepsAt_bind hR (keepsAt_of (keeps_checkCapacity hR _ _) _) fun a t h => ?_
  obtain ⟨h1, rfl⟩ := checkCapacity_ok.mp h; exact hf h1

theorem keepsAt_write_bind (hR : Composes R) {g : State → State} {f : Unit → M β} {s} (h : R s (g s))
    (hf : KeepsAt R (f ()) (g s)) :
    KeepsAt R (write g >>= f) s := by
  refine keepsAt_bind hR ⟨by simp [h], by simp⟩ fun a t h => ?_
  simp at h; subst h; exact hf

theorem keepsAt_write {g : State → State} {s} (h : R s (g s)) : KeepsAt R (write g) s := ⟨by simp [h], by simp⟩

theorem keepsAt_pure (hR : Composes R) {a : α} {s} : KeepsAt R (pure a) s := keepsAt_of (keeps_pure hR a) s

theorem perform_keepsAt (hR : Composes R) (hr : ∀ s e, R s (s.raise e)) {m : M Unit} {s t} (hm : KeepsAt R m s)
    (h : perform m s = .next t) : R s t := by
  rcases perform_next.mp h with h1 | ⟨e, u, h1, rfl⟩
  · exact hm.1 () t h1
  · exact hR.trans (hm.2 _ u h1) (hr u e)

/-! ### Footprints -/

/-- A sequence no longer than some entry of a dictionary. -/
def State.Backs (s : State) (v : List CodeUnit) : Prop :=
  (∃ d, s.decDict = some d ∧ ∃ e ∈ d, v.length ≤ e.length) ∨
  (∃ d, s.encDict = some d ∧ ∃ k ∈ keysOf d, v.length ≤ k.length)

/-- What RESOLVE gives: an entry, or the word and one unit more. -/
def State.Resolves (s : State) (v : List CodeUnit) : Prop :=
  (∃ d, s.decDict = some d ∧ v ∈ d) ∨ (∃ w, s.word = some w ∧ v.length = w.length + 1)

/-- What `finish` is given: no unit, the output, or the packed bit string. -/
def State.Yields (s : State) (r : Result) : Prop :=
  r = .units [] ∨ (∃ o, s.out = some o ∧ r = .units o) ∨ (∃ b, s.obits = some b ∧ r = .bytes (pack b))

/-- What RESOLVE gives, from where it gives it. -/
theorem resolve_gives {n s v t} (h : resolve n s = .ok v t) : t = s ∧ s.Resolves v := by
  simp only [resolve, bind_ok, readCount_run, held_ok] at h
  obtain ⟨k, _, ⟨hk, rfl⟩, h⟩ := h
  split at h
  · simp only [bind_ok, readDecDict_run, held_ok] at h
    obtain ⟨d, _, ⟨hd, rfl⟩, h⟩ := h
    simp only [decGet] at h
    cases he : d[n]? with
    | none => simp [he] at h
    | some e =>
      simp [he] at h; obtain ⟨rfl, rfl⟩ := h
      exact ⟨rfl, .inl ⟨d, hd, List.mem_of_getElem? he⟩⟩
  · split at h
    · simp only [bind_ok, readWord_run, held_ok] at h
      obtain ⟨w, _, ⟨hw, rfl⟩, c, u, h1, h2⟩ := h
      cases w with
      | nil => simp [headUnit] at h1
      | cons a r =>
        simp [headUnit] at h1 h2
        obtain ⟨rfl, rfl⟩ := h1
        obtain ⟨rfl, rfl⟩ := h2
        exact ⟨rfl, .inr ⟨_, hw, by simp⟩⟩
    · simp at h

/-- What each piece of a rule may do to the state, each from the states it does it in. A relation with these
    properties is kept by every rule of the core. -/
structure Footprint (R : State → State → Prop) : Prop where
  comp : Composes R
  tick : ∀ s w e, s.indexBits = some w → s.enlargeIn = some e → e ≠ 0 → tickFits s.bounds ⟨w, e⟩ = true → R s
      (ticked ⟨w, e⟩ s)
  obits : ∀ s b n v, s.obits = some b → Bounds.allows s.bounds.maxOutBytes ((b.length + n + 7) / 8) = true → R s
      (s.setObits (b ++ msbFirst n v))
  pending : ∀ s v, R s (s.setPending v)
  word : ∀ s v, s.Backs v → R s (s.setWord v)
  assign : ∀ s d n key, s.encDict = some d → s.count = some n → entryFits s.bounds n key.length = true → R s
      ((s.setEncDict (d ++ [(key, n)])).setCount (n+1))
  insert : ∀ s d n entry, s.decDict = some d → s.count = some n → entryFits s.bounds n entry.length = true → R s
      (appended entry d n s)
  out : ∀ s o x, s.out = some o → Bounds.allows s.bounds.maxOutUnits (o.length + x.length) = true → R s
      (s.setOut (o ++ x))

section

variable (F : Footprint R)
include F

theorem Footprint.tickAt (s) : KeepsAt R Machine.tick s := by
  refine ⟨fun a t h => ?_, fun e t h => ?_⟩
  · obtain ⟨w, e, hw, he, h0, hb, rfl⟩ := tick_ok h; exact F.tick s w e hw he h0 hb
  · simp only [Machine.tick, bind_error, readIndexBits_run, readEnlargeIn_run, held_error, held_ok, readBounds_run] at h
    rcases h with ⟨-, -, rfl⟩ | ⟨w, _, ⟨-, rfl⟩, ⟨-, -, rfl⟩ | ⟨e, _, ⟨-, rfl⟩, h | ⟨b, _, h1, h⟩⟩⟩
    · exact F.comp.same _
    · exact F.comp.same _
    · simp at h
    · simp at h1; obtain ⟨rfl, rfl⟩ := h1
      split at h
      · simp at h; rw [h.2]; exact F.comp.same _
      · simp only [bind_error, checkCapacity_error] at h
        rcases h with ⟨-, -, rfl⟩ | ⟨_, _, h1, h⟩
        · exact F.comp.same _
        · simp at h

theorem Footprint.sinkAt (v n s) : KeepsAt R (sinkWriteBits v n) s := by
  unfold sinkWriteBits
  split
  · exact keepsAt_pure F.comp
  · refine keepsAt_read F.comp fun b hb => keepsAt_bind F.comp
        (keepsAt_of (keeps_bind F.comp (keeps_readBounds F.comp) fun _ => keeps_checkCapacity F.comp _ _) _) fun _ t h
        => ?_
    simp only [checkOutCapacity, bind_run, readBounds_run] at h
    obtain ⟨h1, rfl⟩ := checkCapacity_ok.mp h
    exact keepsAt_write (F.obits _ _ _ _ hb h1)

theorem Footprint.assignAt (key s) : KeepsAt R (assignKey key) s := by
  unfold assignKey
  refine keepsAt_read F.comp fun n hn => keepsAt_bounds F.comp
      (keepsAt_check F.comp fun h => keepsAt_read F.comp fun d hd => ?_)
  have := F.assign s d n key hd hn h
  exact ⟨fun a t h => by simp at h; subst h; exact this, fun e t h => by simp at h⟩

theorem Footprint.insertAt (entry s) : KeepsAt R (insertEntry entry) s := by
  unfold insertEntry
  refine keepsAt_read F.comp fun n hn => keepsAt_bounds F.comp
      (keepsAt_check F.comp fun h => keepsAt_read F.comp fun d hd => ?_)
  have hh := F.insert s d n entry hd hn h
  have ht := F.tickAt (appended entry d n s)
  refine ⟨fun a t h => ?_, fun e t h => ?_⟩
  · exact F.comp.trans hh (ht.1 () t (by simpa [appended] using h))
  · exact F.comp.trans hh (ht.2 e t (by simpa [appended] using h))

theorem Footprint.clearPendingAt (u s) : KeepsAt R (clearPending u) s := by
  unfold clearPending; exact keepsAt_read F.comp fun p hp => keepsAt_write (F.pending _ _)

theorem Footprint.emitLitAt (c v m w u s) : KeepsAt R (do sinkWriteRev c w; sinkWriteRev v m; Machine.tick; clearPending u; Machine.tick : M Unit) s :=
  keepsAt_bind F.comp (F.sinkAt _ _ _) fun _ _ _ => keepsAt_bind F.comp (F.sinkAt _ _ _) fun _ _ _ => keepsAt_bind F.comp (F.tickAt _) fun _ _ _ =>
    keepsAt_bind F.comp (F.clearPendingAt _ _) fun _ _ _ => F.tickAt _

theorem Footprint.emitIdxAt (n w s) : KeepsAt R (emitIdx n w) s :=
  keepsAt_bind F.comp (F.sinkAt _ _ _) fun _ _ _ => F.tickAt _

theorem Footprint.emitAt (w s) : KeepsAt R (emit w) s := by
  unfold emit
  refine keepsAt_read F.comp fun W hW => keepsAt_read F.comp fun p hp => ?_
  split
  · split
    · exact F.emitLitAt codeLit8 _ lit8Bits _ _ _
    · exact F.emitLitAt codeLit16 _ lit16Bits _ _ _
  · refine keepsAt_read F.comp fun d hd => ?_
    split
    · exact F.emitIdxAt _ _ _
    · exact keepsAt_of (keeps_stopFault F.comp _) _

theorem Footprint.firstSightAt (c s) : KeepsAt R (firstSight c) s := by
  unfold firstSight
  refine keepsAt_read F.comp fun d hd => ?_
  split
  · exact keepsAt_pure F.comp
  · exact keepsAt_bind F.comp (F.assignAt _ _) fun _ _ _ => keepsAt_read F.comp fun p hp => keepsAt_write
        (F.pending _ _)

theorem Footprint.extendAt (c s) : KeepsAt R (extendOrEmit c) s := by
  unfold extendOrEmit
  refine keepsAt_read F.comp fun w hw => keepsAt_read F.comp fun d hd => ?_
  split
  · rename_i n hn
    exact keepsAt_write (F.word _ _ (.inr ⟨d, hd, _, List.mem_map_of_mem (f := Prod.fst) (mem_of_encLookup hn), le_rfl⟩))
  · refine keepsAt_bind F.comp (F.emitAt _ _) fun _ _ _ => keepsAt_bind F.comp (F.assignAt _ _) fun _ t ht =>
        keepsAt_write (F.word _ _ ?_)
    obtain ⟨n, d', -, -, -, rfl⟩ := assignKey_ok ht
    exact .inr ⟨_, rfl, w ++ [c], by simp [keysOf], by simp⟩

theorem Footprint.resolveAt (n s) : KeepsAt R (resolve n) s := keepsAt_of (keeps_resolve F.comp n) s

theorem Footprint.commitAt (entry s) (he : s.Resolves entry) : KeepsAt R (commit entry) s := by
  unfold commit
  refine keepsAt_read F.comp fun o ho => keepsAt_bind F.comp (keepsAt_of (keeps_checkOutUnits F.comp _) _) fun _ s' h
      => ?_
  obtain ⟨rfl, h1⟩ := checkOutUnits_ok h
  refine keepsAt_write_bind F.comp (F.out _ _ _ ho h1) (keepsAt_read F.comp fun w hw => keepsAt_bind F.comp
      (keepsAt_of (keeps_headUnit F.comp _) _) fun c t h => ?_)
  refine keepsAt_bind F.comp (F.insertAt _ _) fun _ x hx => keepsAt_write (F.word _ _ ?_)
  obtain ⟨n, d, w', e', hn, hd, -, -, -, -, -, rfl⟩ := insertEntry_ok hx
  have ht : t = s'.setOut (o ++ entry) := by
    cases entry <;> simp [headUnit] at h
    exact h.2.symm
  subst ht
  left
  refine ⟨d ++ [w ++ [c]], rfl, ?_⟩
  rcases he with ⟨d', h1, h2⟩ | ⟨w', h1, h2⟩
  · have h3 : some d = some d' := hd.symm.trans h1
    cases h3
    exact ⟨entry, by simp [h2], le_rfl⟩
  · have h3 : some w = some w' := hw.symm.trans h1
    cases h3
    exact ⟨w ++ [c], by simp, by simp [h2]⟩

theorem Footprint.loopLitAt (v s) : KeepsAt R (loopLiteral v) s := by
  unfold loopLiteral
  exact keepsAt_read F.comp fun n hn => keepsAt_bind F.comp (F.insertAt _ _) fun _ _ _ => keepsAt_bind F.comp
      (F.resolveAt _ _) fun _ _ h => F.commitAt _ _ (by obtain ⟨rfl, h⟩ := resolve_gives h; exact h)

theorem Footprint.loopIdxAt (v s) : KeepsAt R (loopIdx v) s := by
  unfold loopIdx
  exact keepsAt_bind F.comp (F.resolveAt _ _) fun _ _ h =>
    F.commitAt _ _ (by obtain ⟨rfl, h⟩ := resolve_gives h; exact h)

theorem Footprint.firstLitAt (v s) (hp : R s s → ∀ s, R s (s.setPhase .decLoop)) : KeepsAt R (firstLiteral v) s := by
  unfold firstLiteral
  refine keepsAt_read F.comp fun o ho => keepsAt_bind F.comp (keepsAt_of (keeps_checkOutUnits F.comp _) _) fun _ t h
      => ?_
  obtain ⟨rfl, h1⟩ := checkOutUnits_ok h
  refine keepsAt_bind F.comp (F.insertAt _ _) fun _ t h => ?_
  obtain ⟨n, d, w, e, _, _, _, _, _, _, _, rfl⟩ := insertEntry_ok h
  refine keepsAt_write_bind F.comp (F.word _ _ (.inl ⟨d ++ [[v]], rfl, [v], by simp, le_rfl⟩)) (keepsAt_write_bind F.comp (F.out _ o [v] ho h1)
      (keepsAt_write (hp (F.comp.same _) _)))

end

/-- The same, with what a step adds around the rules. -/
structure StepFootprint (R : State → State → Prop) : Prop extends Footprint R where
  raise : ∀ s e, R s (s.raise e)
  phase : ∀ s p, R s (s.setPhase p)
  finish : ∀ s r, s.Yields r → R s (s.finish r)
  bpos : ∀ s p q inp, s.bpos = some p → s.IN = some inp → p ≤ q → (q = p ∨ q ≤ 8 * inp.length) → R s (s.setBpos q)
  ipos : ∀ s u i, s.U = some u → s.ipos = some i → i < u.length → R s (s.setIpos (i+1))

/-- No piece of a rule moves `ipos`, the phase, the input or the status registers. -/
theorem encUnit_statusFootprint : Footprint (fun s t => t.ipos = s.ipos ∧ t.phase = s.phase ∧ t.bounds = s.bounds ∧
    t.U = s.U ∧ t.host = s.host ∧ t.dir = s.dir ∧ t.err = s.err ∧ t.RESULT = s.RESULT) where
  comp := ⟨by simp, by rintro s t u ⟨a,b,c,d,e,f,g,h⟩ ⟨a',b',c',d',e',f',g',h'⟩; simp [*]⟩
  tick := by intros; simp [ticked]
  obits := by intros; simp
  pending := by intros; simp
  word := by intros; simp
  assign := by intros; simp
  insert := by intros; simp [appended]
  out := by intros; simp

/-- No step moves the bounds. -/
theorem bounds_footprint : StepFootprint (fun s t => t.bounds = s.bounds) := {
    comp := ⟨by simp, by rintro s t u h h'; simp [*]⟩
    tick := by intros; simp [ticked]
    obits := by intros; simp
    pending := by intros; simp
    word := by intros; simp
    assign := by intros; simp
    insert := by intros; simp [appended]
    out := by intros; simp
    raise := by intros; simp [State.raise]
    phase := by intros; simp
    finish := by intros; simp [State.finish]
    bpos := by intros; simp
    ipos := by intros; simp }

theorem encUnit_keeps_bounds (s : State) : KeepsAt (fun s t => t.bounds = s.bounds) encUnit s := by
  have hc := bounds_footprint.toFootprint.comp
  unfold encUnit
  refine keepsAt_read hc fun u hu => keepsAt_read hc fun i hi => ?_
  cases hx : u[i]? with
  | none => exact keepsAt_of (keeps_stopFault hc _) _
  | some c =>
    refine keepsAt_bind hc (bounds_footprint.firstSightAt _ _) fun _ _ _ => keepsAt_bind hc
        (bounds_footprint.extendAt _ _) fun _ _ _ => keepsAt_write_bind hc (by simp) ?_
    split
    · exact keepsAt_write (by simp)
    · exact keepsAt_pure hc

/-! ### Fetching -/

/-- Fetching where a token is read. -/
theorem fetchToken_token {s : State} {w p q : Nat} {inp : List Byte} {i : Instr} (hw : s.indexBits = some w)
    (hi : s.IN = some inp) (hb : s.bpos = some p)
    (hd : decodeToken (s.phase == .decFirst) w inp p = .token i q) : fetchToken s = .ok i (s.setBpos q) := by
  simp only [fetchToken, bind_run, readPhase_run, readIndexBits_run, readIN_run, readBpos_run, hw, hi, hb, held_some,
      hd, write_run, pure_run]

/-- Fetching where the read fails. -/
theorem fetchToken_stop {s : State} {w p q : Nat} {inp : List Byte} {e} (hw : s.indexBits = some w)
    (hi : s.IN = some inp) (hb : s.bpos = some p)
    (hd : decodeToken (s.phase == .decFirst) w inp p = .stop e q) : fetchToken s = .error (.job (readErrorJob e))
        (s.setBpos q) := by
  simp only [fetchToken, bind_run, readPhase_run, readIndexBits_run, readIN_run, readBpos_run, hw, hi, hb, held_some,
      hd, write_run, raiseJob_run]

/-! ### The inversion of a step -/

/-- All a step of a running job can be, its own reads and sub-operations spelled out. -/
inductive BusyStep (s : State) : State → Prop
  | encUnitOk (u i c m) : s.phase = .encScan → s.U = some u → s.ipos = some i → u[i]? = some c →
      (firstSight c >>= fun _ => extendOrEmit c) s = .ok () m →
      BusyStep s (if i + 1 = u.length then (m.setIpos (i+1)).setPhase .encFlush else m.setIpos (i+1))
  | encUnitErr (u i c m e) : s.phase = .encScan → s.U = some u → s.ipos = some i → u[i]? = some c →
      (firstSight c >>= fun _ => extendOrEmit c) s = .error (.job e) m → BusyStep s (m.raise e)
  | flushNone : s.phase = .encFlush → s.word = some [] → BusyStep s (s.setPhase .encEos)
  | flushOk (w m) : s.phase = .encFlush → s.word = some w → w ≠ [] → emit w s = .ok () m → BusyStep s
      (m.setPhase .encEos)
  | flushErr (w m e) : s.phase = .encFlush → s.word = some w → w ≠ [] → emit w s = .error (.job e) m → BusyStep s
      (m.raise e)
  | eosOk (w m b) : s.phase = .encEos → s.indexBits = some w → sinkWriteRev codeEos w s = .ok () m → m.obits = some b
      → BusyStep s (m.finish (.bytes (pack b)))
  | eosErr (w m e) : s.phase = .encEos → s.indexBits = some w → sinkWriteRev codeEos w s = .error (.job e) m →
      BusyStep s (m.raise e)
  | readErr (w p q inp e) : (s.phase = .decFirst ∨ s.phase = .decLoop) → s.indexBits = some w → s.IN = some inp →
      s.bpos = some p →
      decodeToken (s.phase == .decFirst) w inp p = .stop e q → BusyStep s ((s.setBpos q).raise (readErrorJob e))
  | token (w p q inp i t) : (s.phase = .decFirst ∨ s.phase = .decLoop) → s.indexBits = some w → s.IN = some inp → s.bpos = some p →
      decodeToken (s.phase == .decFirst) w inp p = .token i q → exec i (s.setBpos q) = .next t → BusyStep s t

/-- The inversion of the core's step, for a running job. -/
theorem busyStep {s t : State} (hb : s.busy = true) (h : coreStep s = .next t) : BusyStep s t := by
  unfold coreStep at h
  have hdec : (s.phase = .decFirst ∨ s.phase = .decLoop) → tokenStep s = .next t → BusyStep s t := by
    intro hp h
    unfold tokenStep at h
    cases hw : s.indexBits with
    | none => simp [fetchToken, hw] at h
    | some w =>
      cases hi : s.IN with
      | none => simp [fetchToken, hw, hi] at h
      | some inp =>
        cases hbp : s.bpos with
        | none => simp [fetchToken, hw, hi, hbp] at h
        | some p =>
          cases hd : decodeToken (s.phase == .decFirst) w inp p with
          | token i q => rw [fetchToken_token hw hi hbp hd] at h; exact .token w p q inp i t hp hw hi hbp hd h
          | stop e q => rw [fetchToken_stop hw hi hbp hd] at h; simp at h; subst h; exact .readErr w p q inp e hp hw hi hbp hd
  cases hp : s.phase <;> simp only [hp] at h
  · simp [State.busy, Phase.busy, hp] at hb
  · rcases perform_next.mp h with h' | ⟨e, m, h', rfl⟩ <;> clear h <;> rename' h' => h
    · unfold encUnit at h
      simp only [bind_ok, readU_run, readIpos_run, held_ok] at h
      obtain ⟨u, _, ⟨hu, rfl⟩, i, _, ⟨hi, rfl⟩, h⟩ := h
      cases hc : u[i]? with
      | none => simp only [hc] at h; simp at h
      | some c =>
        simp only [hc, bind_ok] at h
        obtain ⟨_, m1, h1, _, m2, h2, _, m3, h3, h4⟩ := h
        simp at h3; subst h3
        have := BusyStep.encUnitOk (s := s) u i c m2 hp hu hi hc (by simp only [bind_ok]; exact ⟨_, _, h1, h2⟩)
        split at h4
        · rename_i hl; rw [if_pos hl] at this; simp at h4; subst h4; exact this
        · rename_i hl; rw [if_neg hl] at this; simp at h4; subst h4; exact this
    · unfold encUnit at h
      simp only [bind_error, readU_run, readIpos_run, held_ok, held_error] at h
      rcases h with ⟨-, h, -⟩ | ⟨u, _, ⟨hu, rfl⟩, ⟨-, h, -⟩ | ⟨i, _, ⟨hi, rfl⟩, h⟩⟩
      · cases h
      · cases h
      cases hc : u[i]? with
      | none => simp only [hc] at h; simp at h
      | some c =>
        simp only [hc, bind_error] at h
        refine .encUnitErr u i c m e hp hu hi hc ?_
        simp only [bind_error]
        rcases h with h | ⟨_, m1, h1, h | ⟨_, m2, h2, h | ⟨_, m3, h3, h⟩⟩⟩
        · exact .inl h
        · exact .inr ⟨_, _, h1, h⟩
        · simp at h
        · split at h <;> simp at h
  · have hf : ∀ w, s.word = some w → encFlush s = (if w = [] then .ok () (s.setPhase .encEos) else
        (emit w >>= fun _ => write (State.setPhase .encEos)) s) := by
      intro w hw
      by_cases h0 : w = [] <;> simp [encFlush, hw, h0]
    cases hw : s.word with
    | none => simp [encFlush, perform, hw] at h
    | some w =>
      simp only [perform, hf w hw] at h
      by_cases h0 : w = []
      · subst h0; simp at h; subst h; exact .flushNone hp hw
      · simp only [h0, if_false, bind_run] at h
        cases he : emit w s with
        | ok a m => simp [he] at h; subst h; exact .flushOk w m hp hw h0 he
        | error e m =>
          cases e with
          | job e => simp [he] at h; subst h; exact .flushErr w m e hp hw h0 he
          | fault f => simp [he] at h
  · simp only [exec, execEos, hp] at h
    cases hw : s.indexBits with
    | none => simp [encEos, perform, hw] at h
    | some w =>
      simp only [perform, encEos, bind_run, readIndexBits_run, hw, held_some, sinkFinish, readObits_run, pure_run,
          write_run] at h
      cases he : sinkWriteRev codeEos w s with
      | ok a m =>
        cases hb : m.obits with
        | none => simp [he, hb] at h
        | some b => simp [he, hb] at h; subst h; exact .eosOk w m b hp hw he hb
      | error e m =>
        cases e with
        | job e => simp [he] at h; subst h; exact .eosErr w m e hp hw he
        | fault f => simp [he] at h
  · exact hdec (.inl hp) h
  · exact hdec (.inr hp) h
  · simp [State.busy, Phase.busy, hp] at hb
  · simp [State.busy, Phase.busy, hp] at hb

/-- The inversion of a step of a running job, the host's moves with it: nothing but a wait or READ_STATUS can be made.
    -/
theorem busy_step_cases {s t : State} (hb : s.busy = true) (h : step s = .next t) :
    (s.host = [] ∧ BusyStep s t) ∨ (∃ r, s.host = .wait :: r ∧ BusyStep (s.setHost r) t) ∨ (∃ r, s.host = .readStatus :: r ∧ t = (s.setHost r).setSeen (s.seen ++ [.status s.status])) := by
  unfold step at h
  cases hh : s.host with
  | nil => simp only [hh] at h; exact .inl ⟨rfl, busyStep hb h⟩
  | cons m r =>
    cases m with
    | wait => simp only [hh] at h; exact .inr (.inl ⟨r, rfl, busyStep hb h⟩)
    | readStatus => simp only [hh, readStatusMove] at h; simp at h; exact .inr (.inr ⟨r, rfl, by rw [← h]; simp [nextMove, State.status, State.isDone, State.busy]⟩)
    | readResult =>
      simp only [hh, readResultMove] at h
      have : (nextMove r s).isDone = false := by
        unfold State.busy Phase.busy at hb
        simp only [nextMove, State.isDone, State.setHost_phase]
        cases hp : s.phase <;> simp_all
      simp [this] at h
    | submit d =>
      simp only [hh, submitStep] at h
      have hb' : (nextMove r s).busy = true := hb
      cases hd : decodeJob d with
      | error e => simp [hd] at h
      | ok i =>
        simp only [hd] at h
        unfold decodeJob at hd
        cases hi : d.input with
        | units u => simp only [hi] at hd; split at hd <;> cases hd; simp [exec, execEncode, hb'] at h
        | bytes u => simp only [hi] at hd; split at hd <;> cases hd; simp [exec, execDecode, hb'] at h

/-- The inversion of any step: the core's own step after at most a wait, a read of the host, or one of the two jobs. -/
theorem step_cases {s t : State} (h : step s = .next t) :
    (∃ r, (s.host = r ∧ r = [] ∨ s.host = .wait :: r) ∧ ((s.busy = true ∧ BusyStep (s.setHost r) t) ∨
        (s.busy = false ∧ t = s.setHost r))) ∨
    (∃ r x, (s.host = .readStatus :: r ∨ s.host = .readResult :: r) ∧ t = (s.setHost r).setSeen x) ∨
    (∃ r u, s.host = .submit ⟨0#1, .units u⟩ :: r ∧ exec (.encode u) (s.setHost r) = .next t) ∨
    (∃ r u, s.host = .submit ⟨1#1, .bytes u⟩ :: r ∧ exec (.decode u) (s.setHost r) = .next t) := by
  have core : ∀ r, coreStep (s.setHost r) = .next t → ((s.busy = true ∧ BusyStep (s.setHost r) t) ∨
      (s.busy = false ∧ t = s.setHost r)) := by
    intro r h
    cases hb : s.busy with
    | true => exact .inl ⟨rfl, busyStep hb h⟩
    | false =>
      right; refine ⟨rfl, ?_⟩
      unfold State.busy Phase.busy at hb
      unfold coreStep at h
      simp only [State.setHost_phase] at h
      cases hp : s.phase <;> simp_all
  unfold step at h
  cases hh : s.host with
  | nil =>
    simp only [hh] at h
    have : s.setHost [] = s := by cases s; simp_all [State.setHost]
    left; refine ⟨[], .inl ⟨rfl, rfl⟩, core [] (by rw [this]; exact h)⟩
  | cons m r =>
    cases m with
    | wait => simp only [hh] at h; exact .inl ⟨r, .inr rfl, core r h⟩
    | readStatus => simp only [hh, readStatusMove] at h; simp at h; exact .inr (.inl ⟨r, _, .inl rfl, h.symm⟩)
    | readResult =>
      simp only [hh, readResultMove] at h
      split at h
      · cases hr : (nextMove r s).RESULT with
        | none => simp [hr] at h
        | some x => simp [hr] at h; exact .inr (.inl ⟨r, _, .inr rfl, h.symm⟩)
      · cases h
    | submit d =>
      simp only [hh, submitStep] at h
      right; right
      obtain ⟨dir, inp⟩ := d
      cases inp with
      | units u =>
        by_cases hd : dir = 0#1
        · subst hd; simp only [decodeJob, if_true] at h; exact .inl ⟨r, u, rfl, h⟩
        · simp [decodeJob, hd] at h
      | bytes u =>
        by_cases hd : dir = 1#1
        · subst hd; simp only [decodeJob, if_true] at h; exact .inr ⟨r, u, rfl, h⟩
        · simp [decodeJob, hd] at h

/-! ### What every step keeps -/

/-- A relation with a step's footprint holds across every token the Decoder runs. -/
theorem exec_token_keeps (F : StepFootprint R) {s t : State} {i} (hp : s.phase = .decFirst ∨ s.phase = .decLoop)
    (hi : i.isToken = true)
    (h : exec i s = .next t) : R s t := by
  have hc := F.toFootprint.comp
  have key : ∀ m : M Unit, KeepsAt R m s → perform m s = .next t → R s t := fun m hm h => perform_keepsAt hc F.raise
      hm h
  have hill : KeepsAt R firstIllegal s := by
    unfold firstIllegal; exact keepsAt_read hc fun p hp => keepsAt_of (keeps_raiseJob hc _) _
  cases i with
  | encode _ => simp [Instr.isToken] at hi
  | decode _ => simp [Instr.isToken] at hi
  | lit8 v =>
    rcases hp with hp | hp <;> simp only [exec, execLit8, hp] at h
    · exact key _ (F.firstLitAt _ _ (fun _ s => F.phase s _)) h
    · exact key _ (F.loopLitAt _ _) h
  | lit16 v =>
    rcases hp with hp | hp <;> simp only [exec, execLit16, hp] at h
    · exact key _ (F.firstLitAt _ _ (fun _ s => F.phase s _)) h
    · exact key _ (F.loopLitAt _ _) h
  | idx n =>
    by_cases hn : n < 3
    · simp [exec, execIdx, controlCodes, hn] at h
    rcases hp with hp | hp <;> simp only [exec, execIdx, controlCodes, hn, if_false, hp] at h
    · exact key _ hill h
    · exact key _ (F.loopIdxAt _ _) h
  | illegalFirst =>
    rcases hp with hp | hp <;> simp only [exec, execIllegalFirst, hp] at h
    · exact key _ hill h
    · cases h
  | eos =>
    rcases hp with hp | hp <;> simp only [exec, execEos, hp] at h
    · exact key _ (keepsAt_write (F.finish _ _ (.inl rfl))) h
    · exact key _ (keepsAt_read hc fun o ho => keepsAt_write (F.finish _ _ (.inr (.inl ⟨o, ho, rfl⟩)))) h

/-- A relation with a step's footprint holds across every step of a running job. -/
theorem BusyStep.keeps (F : StepFootprint R) {s t : State} (h : BusyStep s t) : R s t := by
  have hc := F.toFootprint.comp
  have hu : ∀ c, KeepsAt R (firstSight c >>= fun _ => extendOrEmit c) s := fun c => keepsAt_bind hc
      (F.firstSightAt _ _) fun _ _ _ => F.extendAt _ _
  have hu' : ∀ c, KeepsAt _ (firstSight c >>= fun _ => extendOrEmit c) s := fun c => keepsAt_bind
      encUnit_statusFootprint.comp (encUnit_statusFootprint.firstSightAt _ _) fun _ _ _ =>
      encUnit_statusFootprint.extendAt _ _
  cases h with
  | encUnitOk u i c m hp hU hi hu1 h1 =>
    have hm := (hu c).1 _ _ h1
    have hm' := (hu' c).1 _ _ h1
    have h2 := hc.trans hm (F.ipos m u i (by rw [hm'.2.2.2.1, hU]) (by rw [hm'.1, hi])
      (by by_contra hn; simp [List.getElem?_eq_none (by omega : u.length ≤ i)] at hu1))
    split
    · exact hc.trans h2 (F.phase _ _)
    · exact h2
  | encUnitErr u i c m e hp hU hi hu1 h1 => exact hc.trans ((hu c).2 _ _ h1) (F.raise _ _)
  | flushNone => exact F.phase _ _
  | flushOk w m hp hw h0 h1 => exact hc.trans ((F.emitAt w s).1 _ _ h1) (F.phase _ _)
  | flushErr w m e hp hw h0 h1 => exact hc.trans ((F.emitAt w s).2 _ _ h1) (F.raise _ _)
  | eosOk w m b hp hw h1 hb => exact hc.trans ((F.sinkAt _ _ s).1 _ _ h1) (F.finish _ _ (.inr (.inr ⟨b, hb, rfl⟩)))
  | eosErr w m e hp hw h1 => exact hc.trans ((F.sinkAt _ _ s).2 _ _ h1) (F.raise _ _)
  | readErr w p q inp e hp hw hi hb hd =>
    exact hc.trans (F.bpos s p q inp hb hi (decodeToken_stop_le hd) (decodeToken_stop_within hd)) (F.raise _ _)
  | token w p q inp i t hp hw hi hb hd h =>
    have := decodeToken_le hd
    exact hc.trans (F.bpos s p q inp hb hi this.1 (decodeToken_within hd)) (exec_token_keeps F hp this.2 h)

/-! ### Runs -/

theorem host_run_next (M : Host.Core) {k : Nat} {s t : M.State} (h : M.step s = .next t) : M.run (k+1) s = M.run k
    t := by
  simp [Host.Core.run, h]

theorem host_run_one (M : Host.Core) (s : M.State) : M.run 1 s = M.step s := by
  cases h : M.step s <;> simp [Host.Core.run, h]

/-- A run of a + b steps is a run of a and then one of b. -/
theorem host_run_add (M : Host.Core) (a b : Nat) (s t : M.State) (h : M.run a s = .next t) : M.run (a+b) s = M.run b
    t := by
  induction a generalizing s with
  | zero => simp [Host.Core.run] at h; subst h; simp
  | succ a ih =>
    rw [show a + 1 + b = (a + b) + 1 by omega]
    cases hs : M.step s with
    | next u => rw [host_run_next M hs] at h ⊢; exact ih u h
    | fault f => simp [Host.Core.run, hs] at h
    | refused f => simp [Host.Core.run, hs] at h

theorem core_run_zero (s : State) : Sys2Proof.core.run 0 s = .next s := rfl

theorem core_run_succ {k : Nat} {s t : State} (h : step s = .next t) : Sys2Proof.core.run (k+1) s = Sys2Proof.core.run
    k t := host_run_next Sys2Proof.core h

theorem core_run_one (s : State) : Sys2Proof.core.run 1 s = step s := host_run_one Sys2Proof.core s

end Sys2Proof.Machine
end

