-- ==== Sys2Proof/Laws/Leftover.lean ====
section
/-! SUPPORT. What the registers of the direction that is not running hold never matters: each operation commutes with a
change of them. -/

namespace Sys2Proof.Machine

variable {α β : Type}

/-- `s` with the Decoder's registers of `a`. -/
def withDecoderOf (a s : State) : State := { s with decDict := a.decDict, IN := a.IN, bpos := a.bpos, out := a.out, seen := a.seen }

/-- `s` with the Encoder's registers of `a`. -/
def withEncoderOf (a s : State) : State := { s with encDict := a.encDict, pending := a.pending, U := a.U, ipos := a.ipos, obits := a.obits, seen := a.seen }

/-- A change of the state, under a result. -/
def mapResult (g : State → State) : EStateM.Result Stop State α → EStateM.Result Stop State α
  | .ok a t => .ok a (g t)
  | .error e t => .error e (g t)

/-- The operation neither reads nor writes what `g` changes. -/
def Commutes (g : State → State) (m : M α) : Prop := ∀ s, m (g s) = mapResult g (m s)

theorem commutes_bind {g} {m : M α} {f : α → M β} (hm : Commutes g m) (hf : ∀ a, Commutes g (f a)) : Commutes g (m >>=
    f) := by
  intro s
  rw [bind_run, bind_run, hm s]
  cases h : m s with
  | ok a t => simp only [mapResult]; exact hf a t
  | error e t => rfl

theorem commutes_read {g} {r : Reg} {x : State → Option α} (h : ∀ s, x (g s) = x s) : Commutes g (fun s => held r (x
    s) s : M α) := by
  intro s; dsimp only; rw [h s]; cases x s <;> rfl

theorem commutes_pure {g} (a : α) : Commutes g (pure a : M α) := fun _ => rfl

theorem commutes_write {g f} (h : ∀ s, f (g s) = g (f s)) : Commutes g (write f) := by intro s; simp [mapResult, h]

theorem commutes_raise {g e} : Commutes g (raiseJob e : M α) := fun _ => rfl

theorem commutes_fault {g f} : Commutes g (stopFault f : M α) := fun _ => rfl

theorem commutes_bounds {g} (h : ∀ s : State, (g s).bounds = s.bounds) : Commutes g
    readBounds := by intro s; simp [mapResult, h]

theorem commutes_check {g ok i} : Commutes g (checkCapacity ok i) := by
  unfold checkCapacity; split; exact commutes_pure _; exact commutes_raise

/-- `g` changes no register that both directions use. -/
structure CommutesBase (g : State → State) : Prop where
  bounds : ∀ s : State, (g s).bounds = s.bounds
  indexBits : ∀ s : State, (g s).indexBits = s.indexBits
  enlargeIn : ∀ s : State, (g s).enlargeIn = s.enlargeIn
  count : ∀ s : State, (g s).count = s.count
  w1 : ∀ v s, State.setIndexBits v (g s) = g (s.setIndexBits v)
  w2 : ∀ v s, State.setEnlargeIn v (g s) = g (s.setEnlargeIn v)
  w3 : ∀ v s, State.setCount v (g s) = g (s.setCount v)

theorem commutes_tick {g} (h : CommutesBase g) : Commutes g tick := by
  refine commutes_bind (commutes_read h.indexBits) fun w => commutes_bind (commutes_read h.enlargeIn) fun e =>
      commutes_bind (commutes_bounds h.bounds) fun b => ?_
  split
  · exact commutes_fault
  · exact commutes_bind commutes_check fun _ => commutes_bind (commutes_write (h.w2 _)) fun _ => commutes_write (h.w1 _)

theorem commutes_insert {g} (h : CommutesBase g) (hd : ∀ s : State, (g s).decDict = s.decDict) (hw : ∀ v s,
    State.setDecDict v (g s) = g (s.setDecDict v)) (e) : Commutes g (insertEntry e) :=
  commutes_bind (commutes_read h.count) fun _ => commutes_bind (commutes_bounds h.bounds) fun _ => commutes_bind
      commutes_check fun _ => commutes_bind (commutes_read hd) fun _ =>
   commutes_bind (commutes_write (hw _)) fun _ => commutes_bind (commutes_write (h.w3 _)) fun _ => commutes_tick h

/-- A change of the state, under an outcome. -/
def mapOutcome (g : State → State) : Host.Outcome State Fault Refusal → Host.Outcome State Fault Refusal
  | .next t => .next (g t)
  | .fault f => .fault f
  | .refused r => .refused r

theorem commutes_perform {g} {m : M Unit} (h : Commutes g m) (hr : ∀ e s, State.raise e (g s) = g (s.raise e)) (s :
    State) :
    perform m (g s) = mapOutcome g (perform m s) := by
  unfold perform; rw [h s]
  cases m s with
  | ok a t => rfl
  | error e t => cases e with
    | job e => simp [mapResult, mapOutcome, hr]
    | fault f => rfl

section

variable (a : State)

theorem withDecoderOf_base : CommutesBase (withDecoderOf a) := ⟨fun _ => rfl, fun _ => rfl, fun _ => rfl, fun _ =>
    rfl, fun _ _ => rfl, fun _ _ => rfl, fun _ _ => rfl⟩

theorem sinkWriteBits_withDecoderOf (v n) : Commutes (withDecoderOf a) (sinkWriteBits v n) := by
  unfold sinkWriteBits; split
  · exact commutes_pure _
  · exact commutes_bind (commutes_read fun _ => rfl) fun _ => commutes_bind (commutes_bind (commutes_bounds fun _ =>
        rfl) fun _ => commutes_check) fun _ => commutes_write fun _ => rfl

theorem assignKey_withDecoderOf (k) : Commutes (withDecoderOf a) (assignKey k) :=
  commutes_bind (commutes_read fun _ => rfl) fun _ => commutes_bind (commutes_bounds fun _ => rfl) fun _ => commutes_bind commutes_check fun _ => commutes_bind (commutes_read fun _ => rfl) fun _ => commutes_bind (commutes_write fun _ => rfl) fun _ => commutes_write fun _ => rfl

theorem emit_withDecoderOf (w) : Commutes (withDecoderOf a) (emit w) := by
  have lit : ∀ c v m W u, Commutes (withDecoderOf a) (do sinkWriteRev c W; sinkWriteRev v m; tick; clearPending u; tick : M Unit) := fun c v m W u =>
    commutes_bind (sinkWriteBits_withDecoderOf a _ _) fun _ => commutes_bind (sinkWriteBits_withDecoderOf a _ _) fun _
        => commutes_bind (commutes_tick (withDecoderOf_base a)) fun _ => commutes_bind (commutes_bind (commutes_read
        fun _ => rfl) fun _ => commutes_write fun _ => rfl) fun _ => commutes_tick (withDecoderOf_base a)
  refine commutes_bind (commutes_read fun _ => rfl) fun _ => commutes_bind (commutes_read fun _ => rfl) fun _ => ?_
  split
  · split
    · exact lit codeLit8 _ lit8Bits _ _
    · exact lit codeLit16 _ lit16Bits _ _
  · refine commutes_bind (commutes_read fun _ => rfl) fun _ => ?_
    split
    · exact commutes_bind (sinkWriteBits_withDecoderOf a _ _) fun _ => commutes_tick (withDecoderOf_base a)
    · exact commutes_fault

theorem encUnit_withDecoderOf : Commutes (withDecoderOf a) encUnit := by
  refine commutes_bind (commutes_read fun _ => rfl) fun u => commutes_bind (commutes_read fun _ => rfl) fun i => ?_
  split
  · exact commutes_fault
  · refine commutes_bind (commutes_bind (commutes_read fun _ => rfl) fun _ => ?_) fun _ => commutes_bind
        (commutes_bind (commutes_read fun _ => rfl) fun _ => commutes_bind (commutes_read fun _ => rfl) fun _ => ?_)
        fun _ => commutes_bind (commutes_write fun _ => rfl) fun _ => ?_
    · split
      · exact commutes_pure _
      · exact commutes_bind (assignKey_withDecoderOf a _) fun _ => commutes_bind (commutes_read fun _ => rfl) fun _ =>
            commutes_write fun _ => rfl
    · split
      · exact commutes_write fun _ => rfl
      · exact commutes_bind (emit_withDecoderOf a _) fun _ => commutes_bind (assignKey_withDecoderOf a _) fun _ =>
            commutes_write fun _ => rfl
    · split
      · exact commutes_write fun _ => rfl
      · exact commutes_pure _

theorem encFlush_withDecoderOf : Commutes (withDecoderOf a) encFlush := by
  refine commutes_bind (commutes_read fun _ => rfl) fun w => ?_
  by_cases h : w = []
  · simp only [h, if_true]; exact commutes_write fun _ => rfl
  · simp only [h, if_false]; exact commutes_bind (emit_withDecoderOf a _) fun _ => commutes_write fun _ => rfl

theorem encEos_withDecoderOf : Commutes (withDecoderOf a) encEos :=
  commutes_bind (commutes_read fun _ => rfl) fun _ => commutes_bind (sinkWriteBits_withDecoderOf a _ _) fun _ =>
      commutes_bind (commutes_bind (commutes_read fun _ => rfl) fun _ => commutes_pure _) fun _ => commutes_write fun
      _ => rfl

/-- A step outside the Decoder's phases goes the same way whatever the Decoder's registers hold. -/
theorem step_withDecoderOf {s : State} (hh : s.host = []) (hd : s.phase ≠ .decFirst ∧ s.phase ≠ .decLoop) : step
    (withDecoderOf a s) = mapOutcome (withDecoderOf a) (step s) := by
  have hh' : (withDecoderOf a s).host = [] := hh
  simp only [step, hh, hh']
  unfold coreStep
  have hp' : (withDecoderOf a s).phase = s.phase := rfl
  rw [hp']
  cases hp : s.phase with
  | idle => rfl
  | done => rfl
  | fail => rfl
  | decFirst => exact absurd hp hd.1
  | decLoop => exact absurd hp hd.2
  | encScan => exact commutes_perform (encUnit_withDecoderOf a) (fun _ _ => rfl) s
  | encFlush => exact commutes_perform (encFlush_withDecoderOf a) (fun _ _ => rfl) s
  | encEos => simp only [exec, execEos, hp', hp]; exact commutes_perform (encEos_withDecoderOf a) (fun _ _ => rfl) s

end

section

variable (a : State)

theorem withEncoderOf_base : CommutesBase (withEncoderOf a) := ⟨fun _ => rfl, fun _ => rfl, fun _ => rfl, fun _ =>
    rfl, fun _ _ => rfl, fun _ _ => rfl, fun _ _ => rfl⟩

theorem insertEntry_withEncoderOf (e) : Commutes (withEncoderOf a) (insertEntry e) := commutes_insert
    (withEncoderOf_base a) (fun _ => rfl) (fun _ _ => rfl) e

theorem headUnit_withEncoderOf (l) : Commutes (withEncoderOf a) (headUnit
    l) := by cases l; exact commutes_fault; exact commutes_pure _

theorem checkOutUnits_withEncoderOf (L) : Commutes (withEncoderOf a) (checkOutUnits L) := commutes_bind
    (commutes_bounds fun _ => rfl) fun _ => commutes_check

theorem resolve_withEncoderOf (n) : Commutes (withEncoderOf a) (resolve n) := by
  refine commutes_bind (commutes_read fun _ => rfl) fun k => ?_
  split
  · refine commutes_bind (commutes_read fun _ => rfl) fun d => ?_
    unfold decGet; split; exact commutes_pure _; exact commutes_fault
  · split
    · exact commutes_bind (commutes_read fun _ => rfl) fun _ => commutes_bind (headUnit_withEncoderOf a _) fun _ =>
          commutes_pure _
    · exact commutes_raise

theorem commit_withEncoderOf (l) : Commutes (withEncoderOf a) (commit l) :=
  commutes_bind (commutes_read fun _ => rfl) fun _ => commutes_bind (checkOutUnits_withEncoderOf a _) fun _ =>
      commutes_bind (commutes_write fun _ => rfl) fun _ => commutes_bind (commutes_read fun _ => rfl) fun _ =>
   commutes_bind (headUnit_withEncoderOf a _) fun _ => commutes_bind (insertEntry_withEncoderOf a _) fun _ =>
       commutes_write fun _ => rfl

theorem firstLiteral_withEncoderOf (v) : Commutes (withEncoderOf a) (firstLiteral v) :=
  commutes_bind (commutes_read fun _ => rfl) fun _ => commutes_bind (checkOutUnits_withEncoderOf a _) fun _ =>
      commutes_bind (insertEntry_withEncoderOf a _) fun _ => commutes_bind (commutes_write fun _ => rfl) fun _ =>
      commutes_bind (commutes_write fun _ => rfl) fun _ => commutes_write fun _ => rfl

theorem loopLiteral_withEncoderOf (v) : Commutes (withEncoderOf a) (loopLiteral v) :=
  commutes_bind (commutes_read fun _ => rfl) fun _ => commutes_bind (insertEntry_withEncoderOf a _) fun _ =>
      commutes_bind (resolve_withEncoderOf a _) fun _ => commit_withEncoderOf a _

theorem loopIdx_withEncoderOf (n) : Commutes (withEncoderOf a) (loopIdx n) := commutes_bind (resolve_withEncoderOf a
    _) fun _ => commit_withEncoderOf a _

theorem fetchToken_withEncoderOf : Commutes (withEncoderOf a) fetchToken := by
  refine commutes_bind (fun _ => rfl) fun ph => commutes_bind (commutes_read fun _ => rfl) fun _ => commutes_bind
      (commutes_read fun _ => rfl) fun _ => commutes_bind (commutes_read fun _ => rfl) fun _ => ?_
  split
  · exact commutes_bind (commutes_write fun _ => rfl) fun _ => commutes_pure _
  · exact commutes_bind (commutes_write fun _ => rfl) fun _ => commutes_raise

theorem exec_withEncoderOf {s : State} (hp : s.phase = .decFirst ∨ s.phase = .decLoop) (i : Instr) (hi : i.isToken =
    true) : exec i (withEncoderOf a s) = mapOutcome (withEncoderOf a) (exec i s) := by
  have hp' : (withEncoderOf a s).phase = s.phase := rfl
  have il : Commutes (withEncoderOf a) firstIllegal := commutes_bind (commutes_read fun _ => rfl) fun _ => commutes_raise
  have go : ∀ {m : M Unit}, Commutes (withEncoderOf a) m → perform m (withEncoderOf a s) = mapOutcome (withEncoderOf a) (perform m s) := fun h => commutes_perform h (fun _ _ => rfl) s
  cases i with
  | encode _ => simp [Instr.isToken] at hi
  | decode _ => simp [Instr.isToken] at hi
  | lit8 v => rcases hp with hp | hp <;> simp only [exec, execLit8, hp', hp]; exact go (firstLiteral_withEncoderOf a _); exact go (loopLiteral_withEncoderOf a _)
  | lit16 v => rcases hp with hp | hp <;> simp only [exec, execLit16, hp', hp]; exact go (firstLiteral_withEncoderOf a _); exact go (loopLiteral_withEncoderOf a _)
  | eos =>
    rcases hp with hp | hp <;> simp only [exec, execEos, hp', hp]
    · exact go (commutes_write fun _ => rfl)
    · exact go (commutes_bind (commutes_read fun _ => rfl) fun _ => commutes_write fun _ => rfl)
  | illegalFirst => rcases hp with hp | hp <;> simp only [exec, execIllegalFirst, hp', hp]; exact go il; rfl
  | idx n =>
    by_cases h : n < 3
    · simp [exec, execIdx, controlCodes, h, mapOutcome]
    · rcases hp with hp | hp <;> simp only [exec, execIdx, controlCodes, h, if_false, hp', hp]; exact go il; exact go
          (loopIdx_withEncoderOf a _)

/-- A step outside the Encoder's phases goes the same way whatever the Encoder's registers hold. -/
theorem step_withEncoderOf {s : State} (hh : s.host = []) (hd : s.phase ≠ .encScan ∧ s.phase ≠ .encFlush ∧ s.phase ≠
    .encEos) : step (withEncoderOf a s) = mapOutcome (withEncoderOf a) (step s) := by
  have hh' : (withEncoderOf a s).host = [] := hh
  have tok : (s.phase = .decFirst ∨ s.phase = .decLoop) → tokenStep (withEncoderOf a s) = mapOutcome (withEncoderOf a)
      (tokenStep s) := by
    intro hp
    unfold tokenStep; rw [fetchToken_withEncoderOf a s]
    cases hf : fetchToken s with
    | error e t => cases e <;> rfl
    | ok i t =>
      simp only [mapResult]
      have : (t.phase = s.phase) ∧ i.isToken = true := by
        unfold fetchToken at hf
        simp only [bind_ok, readPhase_run, readIndexBits_run, readIN_run, readBpos_run, held_ok] at hf
        obtain ⟨_, _, h1, w, _, ⟨_, rfl⟩, inp, _, ⟨_, rfl⟩, p, _, ⟨_, rfl⟩, hf⟩ := hf
        cases h1
        cases hd : decodeToken (s.phase == .decFirst) w inp p with
        | token i' q =>
          simp only [hd, bind_run, write_run, pure_run] at hf
          cases hf
          exact ⟨rfl, (decodeToken_le hd).2⟩
        | stop e q => simp [hd] at hf
      exact exec_withEncoderOf a (by rw [this.1]; exact hp) i this.2
  simp only [step, hh, hh']
  unfold coreStep
  have hp' : (withEncoderOf a s).phase = s.phase := rfl
  rw [hp']
  cases hp : s.phase with
  | idle => rfl
  | done => rfl
  | fail => rfl
  | encScan => exact absurd hp hd.1
  | encFlush => exact absurd hp hd.2.1
  | encEos => exact absurd hp hd.2.2
  | decFirst => exact tok (.inl hp)
  | decLoop => exact tok (.inr hp)

end

end Sys2Proof.Machine
end

