-- ==== Sys2Proof/Laws/PerInstr.lean ====
section
/-! SUPPORT. One lemma per instruction: how many wire bits it takes (30_encoding.md R99). -/

namespace Sys2Proof.Laws.WireLength

open Sys2Proof

/-- An instruction's encoding has the length R99 gives it, at every width. -/
def Statement (i : Instr) : Prop := ∀ W, (encodeToken W i).length = wireLength W i

theorem lit8 (v : Byte) : Statement (.lit8 v) := by intro W; simp [encodeToken, wireLength]

theorem lit16 (v : CodeUnit) : Statement (.lit16 v) := by intro W; simp [encodeToken, wireLength]

theorem eos : Statement .eos := by intro W; simp [encodeToken, wireLength]

theorem idx (n : Nat) : Statement (.idx n) := by intro W; simp [encodeToken, wireLength]

theorem illegalFirst : Statement .illegalFirst := by intro W; simp [encodeToken, wireLength]

theorem encode (input : List CodeUnit) : Statement (.encode input) := by intro W; simp [encodeToken, wireLength]

theorem decode (input : List Byte) : Statement (.decode input) := by intro W; simp [encodeToken, wireLength]

end Sys2Proof.Laws.WireLength
end

