-- ==== Sys2Proof/Laws/Views.lean ====
section
/-! SUPPORT. The rules as functions on views (Safety.lean): an operation that never faults, what it makes of the view,
    and that ENC_UNIT and INSERT keep a matching view matching. -/

namespace Sys2Proof.Machine

/-! ### Operations that never fault -/

variable {α β : Type}

/-- The operation runs to its end with `Q`, or raises a job error with `E`; it never faults. -/
def Safe (E : JobError → State → Prop) (m : M α) (s : State) (Q : α → State → Prop) : Prop :=
  match m s with
  | .ok a t => Q a t
  | .error (.job e) t => E e t
  | .error (.fault _) _ => False

/-- `E` takes in every capacity error of a state that has a bound. -/
def AllowsCapacity (E : JobError → State → Prop) : Prop := ∀ i t, t.bounds ≠ Bounds.unbounded → E
    (.capacityExceeded i) t

variable {E : JobError → State → Prop}

theorem safe_bind {m : M α} {f : α → M β} {s Q} (h : Safe E m s (fun a t => Safe E (f a) t Q)) : Safe E (m >>= f) s
    Q := by
  unfold Safe at *
  rw [bind_run]
  cases hm : m s with
  | ok a t => simp only [hm] at h; exact h
  | error e t => simp only [hm] at h; cases e <;> exact h

theorem safe_mono {m : M α} {s Q Q'} (h : Safe E m s Q) (hq : ∀ a t, Q a t → Q' a t) : Safe E m s Q' := by
  unfold Safe at *
  cases hm : m s with
  | ok a t => simp only [hm] at h; exact hq _ _ h
  | error e t => simp only [hm] at h; cases e <;> exact h

theorem safe_ok {m : M α} {s a t Q} (h : m s = .ok a t) (hq : Q a t) : Safe E m s Q := by simp [Safe, h, hq]

theorem safe_read {r : Reg} {g : State → Option α} {a : α} {f : α → M β} {s Q} (hg : g s = some a)
    (h : Safe E (f a) s Q) :
    Safe E ((fun s => held r (g s) s : M α) >>= f) s Q := by
  apply safe_bind; exact safe_ok (by simp [hg]) h

theorem safe_write {g : State → State} {f : Unit → M β} {s Q} (h : Safe E (f ()) (g s) Q) :  Safe E (write g >>= f) s
    Q := by
  apply safe_bind; exact safe_ok (by simp) h

theorem safe_bounds {f : Bounds → M β} {s Q} (h : Safe E (f s.bounds) s Q) :  Safe E (readBounds >>= f) s Q := by
  apply safe_bind; exact safe_ok (by simp) h

/-- attach what Keeps says -/
theorem safe_and {α} {m : M α} {s Q R} (h : Safe E m s Q) (hk : KeepsAt R m s) : Safe E m s
    (fun a t => Q a t ∧ R s t) := by
  unfold Safe at *
  cases hm : m s with
  | ok a t => simp only [hm] at h ⊢; exact ⟨h, hk.1 a t hm⟩
  | error e t => simp only [hm] at h ⊢; cases e <;> exact h

theorem safe_check (hE : AllowsCapacity E) {ok i s Q} (hb : ok = false → s.bounds ≠ Bounds.unbounded) (h : Q () s) :
    Safe E (checkCapacity ok i) s Q := by
  cases ok with
  | true => exact safe_ok (checkCapacity_pass rfl i s) h
  | false => unfold Safe; rw [checkCapacity_raise rfl]; exact hE _ _ (hb rfl)

theorem safe_tick (hE : AllowsCapacity E) {s w e Q} (hw : s.indexBits = some w) (he : s.enlargeIn = some e)
    (h0 : e ≠ 0) (h : Q () (ticked ⟨w,e⟩ s)) :
    Safe E tick s Q := by
  unfold tick
  refine safe_read hw (safe_read he (safe_bounds ?_))
  simp only [h0, if_false]
  exact safe_bind (safe_check hE tickFits_false (safe_write (safe_ok rfl h)))

theorem safe_sink (hE : AllowsCapacity E) {s b v n Q} (hb : s.obits = some b)
    (h : Q () (s.setObits (b ++ lsbFirst n v))) : Safe E (sinkWriteRev v n) s Q := by
  cases ha : Bounds.allows s.bounds.maxOutBytes ((b.length + n + 7) / 8) with
  | true => exact safe_ok (sinkWriteRev_run hb ha) h
  | false =>
    by_cases hn : n = 0
    · subst hn
      have e : s.setObits b = s := by cases s; simp_all [State.setObits]
      refine safe_ok (sinkWriteBits_zero _) ?_
      simpa [lsbFirst, e] using h
    · unfold Safe; rw [sinkWriteRev, sinkWriteBits_raise hb hn ha]
      exact hE _ _ (fun hu => allows_false ha (by rw [hu]; rfl))

theorem safe_assign (hE : AllowsCapacity E) {s k n d Q} (hn : s.count = some n) (hd : s.encDict = some d)
    (h : Q () ((s.setEncDict (d ++ [(k, n)])).setCount (n+1))) :
    Safe E (assignKey k) s Q := by
  unfold assignKey
  refine safe_read hn (safe_bounds (safe_bind (safe_check hE entryFits_false
      (safe_read hd (safe_write (safe_ok rfl h))))))

theorem safe_insert (hE : AllowsCapacity E) {s k n d w e Q} (hn : s.count = some n) (hd : s.decDict = some d)
    (hw : s.indexBits = some w) (he : s.enlargeIn = some e) (h0 : e ≠ 0)
    (h : Q () (ticked ⟨w,e⟩ (appended k d n s))) :
    Safe E (insertEntry k) s Q := by
  unfold insertEntry
  refine safe_read hn (safe_bounds (safe_bind (safe_check hE entryFits_false
      (safe_read hd (safe_write (safe_write (safe_tick hE (w := w) (e := e) hw he h0 h)))))))

theorem safe_units (hE : AllowsCapacity E) {s L Q} (h : Q () s) : Safe E (checkOutUnits L) s Q := by
  unfold checkOutUnits
  exact safe_bounds (safe_check hE (fun hf hu => allows_false hf (by rw [hu]; rfl)) h)

/-- Only a state with a bound raises. -/
def Bounded : JobError → State → Prop := fun _ t => t.bounds ≠ Bounds.unbounded

theorem allowsCapacity_bounded : AllowsCapacity Bounded := fun _ _ h => h

/-- With every bound ∞, a safe operation runs to its end. -/
theorem next_of_safe {m : M Unit} {s : State} {Q} (h : Safe Bounded m s Q) (hb : s.bounds = Bounds.unbounded)
    (hk : KeepsAt (fun s t => t.bounds = s.bounds) m s) :
    ∃ t, m s = .ok () t ∧ Q () t ∧ t.bounds = s.bounds := by
  unfold Safe at h
  cases hm : m s with
  | ok a t => simp only [hm] at h; exact ⟨t, rfl, h, hk.1 _ _ hm⟩
  | error e t =>
    simp only [hm] at h
    cases e with
    | job e => exact absurd ((hk.2 _ _ hm).trans hb) h
    | fault f => exact h.elim

/-! ### The Encoder's view -/

/-- The schedule of a view. -/
def EncView.sched (v : EncView) : Schedule := ⟨v.indexBits, v.enlargeIn⟩

/-- The view after so many ticks. -/
def EncView.ticked (v : EncView) (n : Nat) : EncView :=
    { v with indexBits := (ticks n v.sched).indexBits, enlargeIn := (ticks n v.sched).enlargeIn }

/-- The token EMIT sends for the word (R192). -/
def EncView.token (v : EncView) : Instr :=
  match pendingSingleton v.pending v.word with
  | some u => if u.toNat < lit8Limit then .lit8 (u.setWidth 8) else .lit16 u
  | none => .idx ((encLookup v.encDict v.word).getD 0)

/-- The view after EMIT of the word. -/
def EncView.emitted (v : EncView) : EncView :=
  match pendingSingleton v.pending v.word with
  | some u => { v.ticked 2 with obits := v.obits ++ encodeToken v.indexBits v.token, pending := pendingErase v.pending u }
  | none => { v.ticked 1 with obits := v.obits ++ encodeToken v.indexBits v.token }

/-- The view after ASSIGN of a key. -/
def EncView.assigned (v : EncView) (k : List CodeUnit) :
    EncView := { v with encDict := v.encDict ++ [(k, v.count)], count := v.count + 1 }

/-- The view after step 1 of ENC_UNIT. -/
def EncView.sighted (v : EncView) (c : CodeUnit) : EncView :=
  match encLookup v.encDict [c] with
  | some _ => v
  | none => { v.assigned [c] with pending := pendingInsert v.pending c }

/-- The view after steps 2 and 3 of ENC_UNIT. -/
def EncView.extended (v : EncView) (c : CodeUnit) : EncView :=
  match encLookup v.encDict (v.word ++ [c]) with
  | some _ => { v with word := v.word ++ [c] }
  | none => { v.emitted.assigned (v.word ++ [c]) with word := [c] }

/-- The view after ENC_UNIT of the unit `c`. -/
def EncView.unitStep (v : EncView) (c : CodeUnit) : EncView := { (v.sighted c).extended c with ipos := v.ipos + 1 }

theorem sighted_same (v : EncView) (c) : (v.sighted c).indexBits = v.indexBits ∧ (v.sighted c).enlargeIn = v.enlargeIn
    ∧ (v.sighted c).word = v.word ∧ (v.sighted c).U = v.U ∧ (v.sighted c).ipos = v.ipos ∧ (v.sighted c).obits
    = v.obits := by
  unfold EncView.sighted; split <;> simp [EncView.assigned]

theorem emitted_same (v : EncView) : v.emitted.count = v.count ∧ v.emitted.encDict = v.encDict ∧ v.emitted.word
    = v.word ∧ v.emitted.U = v.U ∧ v.emitted.ipos = v.ipos := by
    unfold EncView.emitted; split <;> simp [EncView.ticked]

theorem extended_same (v : EncView) (c) : (v.extended c).U = v.U ∧ (v.extended c).ipos = v.ipos := by
  have := emitted_same v
  unfold EncView.extended; split <;> simp [EncView.assigned, this]

theorem holds_assigned {s : State} {v : EncView} (h : s.HoldsEnc v) (k) :
    ((s.setEncDict (v.encDict ++ [(k, v.count)])).setCount (v.count+1)).HoldsEnc (v.assigned k) := by
  obtain ⟨h1,h2,h3,h4,h5,h6,h7,h8,h9⟩ := h
  constructor <;> simp [EncView.assigned, *]

/-- EMIT from a view: it gives the emitted view, and leaves the Decoder's side alone. -/
theorem safe_emit (hE : AllowsCapacity E) {s : State} {v : EncView} (h : s.HoldsEnc v) (he : 1 ≤ v.enlargeIn)
    (hk : pendingSingleton v.pending v.word = none → ∃ n, encLookup v.encDict v.word = some n) {Q : Unit → State → Prop}
    (hq : ∀ t, LeavesDecoderSide s t → t.HoldsEnc v.emitted → Q () t) : Safe E (emit v.word) s Q := by
  have hkeep := (emit_leavesDecoderSide v.word s).1
  have : Safe E (emit v.word) s (fun _ t => t.indexBits = some v.emitted.indexBits ∧ t.enlargeIn = some
      v.emitted.enlargeIn ∧ t.obits = some v.emitted.obits ∧ t.pending = some v.emitted.pending) := by
    unfold emit
    refine safe_read h.indexBits (safe_read h.pending ?_)
    have lit : ∀ u code val m, pendingErase v.pending u = v.emitted.pending → v.emitted.indexBits
        = (ticks 2 v.sched).indexBits → v.emitted.enlargeIn = (ticks 2 v.sched).enlargeIn →
       v.emitted.obits = v.obits ++ (lsbFirst v.indexBits code ++ lsbFirst m val) →
       Safe E (do sinkWriteRev code v.indexBits; sinkWriteRev val m; Machine.tick; clearPending u; Machine.tick : M
           Unit) s (fun _ t => t.indexBits = some v.emitted.indexBits ∧ t.enlargeIn = some v.emitted.enlargeIn ∧
           t.obits = some v.emitted.obits ∧ t.pending = some v.emitted.pending) := by
      intro u code val m h1 h2 h3 h4
      refine safe_bind (safe_sink hE h.obits (safe_bind (safe_sink hE (b := v.obits ++ lsbFirst v.indexBits code) rfl
          (safe_bind (safe_tick hE (w := v.indexBits) (e := v.enlargeIn) h.indexBits h.enlargeIn (by omega)
          (safe_bind ?_))))))
      unfold clearPending
      refine safe_read (a := v.pending) h.pending (safe_ok rfl
          (safe_tick hE (w := (scheduleTick v.sched).indexBits) (e := (scheduleTick v.sched).enlargeIn) rfl rfl
          (by have := scheduleTick_pos v.sched; omega) ?_))
      refine ⟨by rw [h2]; rfl, by rw [h3]; rfl, ?_, ?_⟩
      · rw [h4, ← List.append_assoc]; rfl
      · rw [← h1]; rfl
    cases hp : pendingSingleton v.pending v.word with
    | some u =>
      dsimp only
      split
      · rename_i hl
        have hl' : u.toNat < 256 := hl
        refine lit u codeLit8 u.toNat lit8Bits ?_ ?_ ?_ ?_ <;> simp [EncView.emitted, hp, EncView.ticked, EncView.token, hl, encodeToken]
        rw [Nat.mod_eq_of_lt hl']
      · rename_i hl
        refine lit u codeLit16 u.toNat lit16Bits ?_ ?_ ?_ ?_ <;> simp
            [EncView.emitted, hp, EncView.ticked, EncView.token, hl, encodeToken]
    | none =>
      obtain ⟨n, hn⟩ := hk hp
      refine safe_read (a := v.encDict) h.encDict ?_
      simp only [hn]
      refine safe_bind (safe_sink hE h.obits (safe_tick hE (w := v.indexBits) (e := v.enlargeIn) h.indexBits h.enlargeIn (by omega) ?_))
      refine ⟨?_, ?_, ?_, ?_⟩
      · simp [EncView.emitted, hp, EncView.ticked, ticks, Machine.ticked, EncView.sched]
      · simp [EncView.emitted, hp, EncView.ticked, ticks, Machine.ticked, EncView.sched]
      · simp [EncView.emitted, hp, EncView.token, hn, encodeToken, Machine.ticked]
      · simp [EncView.emitted, hp, EncView.ticked, Machine.ticked, h.pending]
  have same : v.emitted.count = v.count ∧ v.emitted.encDict = v.encDict ∧ v.emitted.word = v.word ∧ v.emitted.U = v.U
      ∧ v.emitted.ipos = v.ipos := by
    unfold EncView.emitted; split <;> simp [EncView.ticked]
  obtain ⟨s1, s2, s3, s4, s5⟩ := same
  unfold Safe at *
  cases hm : emit v.word s with
  | error e t => simp only [hm] at this; cases e <;> exact this
  | ok a t =>
    simp only [hm] at this
    obtain ⟨k1, k2, k3, k4⟩ := this
    have hk := hkeep a t hm
    refine hq t hk ⟨k1, k2, ?_, ?_, k4, ?_, ?_, ?_, k3⟩
    · rw [s1, hk.1.2.1.2.2.2.1, h.count]
    · rw [s2, hk.1.2.1.2.2.1, h.encDict]
    · rw [s3, hk.1.2.1.2.2.2.2.1, h.word]
    · rw [s4, hk.1.2.1.1, h.U]
    · rw [s5, hk.1.2.1.2.1, h.ipos]

/-- Step 1 of ENC_UNIT from a view. -/
theorem safe_firstSight (hE : AllowsCapacity E) {s : State} {v : EncView} (h : s.HoldsEnc v) (c)
    {Q : Unit → State → Prop}
    (hq : ∀ t, t.HoldsEnc (v.sighted c) → Q () t) : Safe E (firstSight c) s Q := by
  unfold firstSight
  refine safe_read h.encDict ?_
  cases hl : encLookup v.encDict [c] with
  | some n => exact safe_ok rfl (hq _ (by simpa [EncView.sighted, hl] using h))
  | none =>
    refine safe_bind (safe_assign hE h.count h.encDict (safe_read (a := v.pending) (by simp [h.pending])
        (safe_ok rfl (hq _ ?_))))
    have := holds_assigned h [c]
    obtain ⟨h1,h2,h3,h4,h5,h6,h7,h8,h9⟩ := this
    constructor <;> simp_all [EncView.sighted, EncView.assigned]

/-- Steps 2 and 3 of ENC_UNIT from a view. -/
theorem safe_extend (hE : AllowsCapacity E) {s : State} {v : EncView} (h : s.HoldsEnc v) (c) (he : 1 ≤ v.enlargeIn)
    (hk : encLookup v.encDict (v.word ++ [c]) = none → pendingSingleton v.pending v.word = none → ∃ n, encLookup
        v.encDict v.word = some n)
    {Q : Unit → State → Prop} (hq : ∀ t, t.HoldsEnc (v.extended c) → Q () t) : Safe E (extendOrEmit c) s Q := by
  unfold extendOrEmit
  refine safe_read h.word (safe_read h.encDict ?_)
  cases hl : encLookup v.encDict (v.word ++ [c]) with
  | some n =>
    refine safe_ok rfl (hq _ ?_)
    obtain ⟨h1,h2,h3,h4,h5,h6,h7,h8,h9⟩ := h
    constructor <;> simp_all [EncView.extended]
  | none =>
    refine safe_bind (safe_emit hE h he (hk hl) fun t _ ht => safe_bind
        (safe_assign hE ht.count ht.encDict (safe_ok rfl (hq _ ?_))))
    have := holds_assigned ht (v.word ++ [c])
    obtain ⟨h1,h2,h3,h4,h5,h6,h7,h8,h9⟩ := this
    constructor <;> simp_all [EncView.extended, EncView.assigned]

/-! ### ENC_UNIT keeps the match -/

theorem scheduleOk_ticked (v : EncView) (n) (h : ScheduleOk v.indexBits v.enlargeIn) : ScheduleOk
    (v.ticked n).indexBits (v.ticked n).enlargeIn := by
  have : ∀ n (x : Schedule), ScheduleOk x.indexBits x.enlargeIn → ScheduleOk (ticks n x).indexBits
      (ticks n x).enlargeIn := by
    intro n; induction n with
    | zero => intro x h; exact h
    | succ n ih => intro x h; exact ih _ (scheduleOk_tick h)
  exact this n v.sched h

/-- What holds between the first sight of `c` and the extension of the match. -/
structure Sighted (v : EncView) (c : CodeUnit) : Prop where
  schedule : ScheduleOk v.indexBits v.enlargeIn
  dict : EncDictOk v.encDict v.count
  seen : [c] ∈ keysOf v.encDict
  known : v.word ≠ [] → v.word ∈ keysOf v.encDict
  pend : v.pending = [] ∨ (∃ x, v.word = [x] ∧ v.pending = [x]) ∨
    (c ∉ v.word ∧ (∀ k ∈ keysOf v.encDict, c ∈ k → k = [c]) ∧
        (v.pending = [c] ∨ ∃ x, x ≠ c ∧ v.word = [x] ∧ v.pending = [x, c]))
  fresh : ∀ x ∈ v.pending, ∀ t, x :: t ∈ keysOf v.encDict → t = []
  balance : v.count + v.enlargeIn = 2 ^ v.indexBits + 1 + v.pending.length

/-- The first sight takes a matching view to a sighted one. -/
theorem sighted_mid {v : EncView} (h : EncMatching v) (c) : Sighted (v.sighted c) c := by
  unfold EncView.sighted
  cases hl : encLookup v.encDict [c] with
  | some n =>
    have hm : [c] ∈ keysOf v.encDict := by
      by_contra hc; rw [encLookup_eq_none.mpr hc] at hl; cases hl
    refine ⟨h.schedule, h.dict, hm, h.known, ?_, h.fresh, h.balance⟩
    rcases h.pending with h1 | ⟨x, h1, h2⟩
    · exact .inl h1
    · exact .inr (.inl ⟨x, h2, h1⟩)
  | none =>
    have hm := encLookup_eq_none.mp hl
    have hfree : ∀ t, c :: t ∈ keysOf v.encDict → False := fun t ht => hm (h.dict.units _ ht c (by simp))
    have hcw : c ∉ v.word := by
      intro hc
      by_cases h0 : v.word = []
      · simp [h0] at hc
      · exact hm (h.dict.units _ (h.known h0) c hc)
    have hnp : c ∉ v.pending := by
      rcases h.pending with h1 | ⟨x, h1, h2⟩
      · simp [h1]
      · rw [h1]; rintro hc; simp at hc; subst hc; simp [h2] at hcw
    have hpi : pendingInsert v.pending c = v.pending ++ [c] := by simp [pendingInsert, hnp]
    refine ⟨h.schedule, ?_, ?_, ?_, ?_, ?_, ?_⟩
    · exact encDictOk_append h.dict hm (by simp) (by simp)
    · exact mem_keys_append.mpr (.inr rfl)
    · intro h0; exact mem_keys_append.mpr (.inl (h.known h0))
    · simp only [hpi, EncView.assigned]
      right; right
      refine ⟨hcw, ?_, ?_⟩
      · intro k hk hck; rcases mem_keys_append.mp hk with hk | hk
        · exact absurd (h.dict.units k hk c hck) hm
        · exact hk
      · rcases h.pending with h1 | ⟨x, h1, h2⟩
        · left; simp [h1]
        · right; refine ⟨x, ?_, h2, by simp [h1]⟩
          rintro rfl; simp [h2] at hcw
    · simp only [hpi, EncView.assigned]
      intro x hx t ht
      rcases mem_keys_append.mp ht with ht1 | ht1
      · simp at hx; rcases hx with hx | rfl
        · exact h.fresh x hx t ht1
        · exact absurd (hfree t ht1) id
      · simp at ht1; exact ht1.2
    · have := h.balance; simp [hpi, EncView.assigned]; omega

/-- An emission brings the countdown and the count back into balance. -/
theorem emitted_balance {v : EncView} (hs : ScheduleOk v.indexBits v.enlargeIn)
    (hb : v.count + v.enlargeIn = 2 ^ v.indexBits + 1 + v.pending.length)
    (hnd : v.pending.Nodup) : ScheduleOk v.emitted.indexBits v.emitted.enlargeIn ∧ v.count + v.emitted.enlargeIn = 2 ^ v.emitted.indexBits + v.emitted.pending.length := by
  unfold EncView.emitted
  cases hp : pendingSingleton v.pending v.word with
  | none =>
    refine ⟨scheduleOk_ticked v 1 hs, ?_⟩
    exact tick_balance hs.low v.count v.pending.length (by omega)
  | some u =>
    refine ⟨scheduleOk_ticked v 2 hs, ?_⟩
    have hu := (pendingSingleton_some hp).2
    have hlen : (pendingErase v.pending u).length + 1 = v.pending.length := by
      have : pendingErase v.pending u = v.pending.erase u := by
        rw [List.Nodup.erase_eq_filter hnd]; rfl
      rw [this, List.length_erase_of_mem hu]
      have := List.length_pos_of_mem hu; omega
    have h1 := tick_balance (w := v.indexBits) hs.low v.count ((pendingErase v.pending u).length + 1) (by omega)
    exact tick_balance (by have := scheduleTick_pos v.sched; exact this) v.count _ h1

/-- ENC_UNIT keeps a matching view matching. -/
theorem unitStep_matching {v : EncView} (h : EncMatching v) (c) : EncMatching (v.unitStep c) := by
  have hm := sighted_mid h c
  have hsame := sighted_same v c
  unfold EncView.unitStep
  generalize hv1 : v.sighted c = v1 at hm hsame
  have hlook : ∀ k, encLookup v1.encDict k = none ↔ k ∉ keysOf v1.encDict := fun k => encLookup_eq_none
  unfold EncView.extended
  cases hl : encLookup v1.encDict (v1.word ++ [c]) with
  | some n =>
    have hin : v1.word ++ [c] ∈ keysOf v1.encDict := by
      by_contra hc; rw [encLookup_eq_none.mpr hc] at hl; cases hl
    refine ⟨hm.schedule, hm.dict, by simp, fun _ => hin, ?_, hm.fresh, hm.balance⟩
    show v1.pending = [] ∨ ∃ x, v1.pending = [x] ∧ v1.word ++ [c] = [x]
    rcases hm.pend with h1 | ⟨x, h1, h2⟩ | ⟨h1, h2, h3⟩
    · exact .inl h1
    · exfalso; have := hm.fresh x (by simp [h2]) [c] (by rw [h1] at hin; simpa using hin); simp at this
    · have := h2 _ hin (by simp)
      have hw : v1.word = [] := by simpa using this
      rcases h3 with h3 | ⟨x, _, h4, _⟩
      · right; exact ⟨c, h3, by simp [hw]⟩
      · simp [hw] at h4
  | none =>
    have hout : v1.word ++ [c] ∉ keysOf v1.encDict := encLookup_eq_none.mp hl
    have hw0 : v1.word ≠ [] := by
      intro h0; apply hout; simpa [h0] using hm.seen
    have hwk := hm.known hw0
    have hnd : v1.pending.Nodup := by
      rcases hm.pend with h1 | ⟨x, h1, h2⟩ | ⟨h1, h2, h3 | ⟨x, h3, h4, h5⟩⟩
      · simp [h1]
      · simp [h2]
      · simp [h3]
      · simp [h5, h3]
    obtain ⟨hs, hb⟩ := emitted_balance hm.schedule hm.balance hnd
    obtain ⟨e1, e2, e3, e4, e5⟩ := emitted_same v1
    have hpend : v1.emitted.pending = [] ∨ v1.emitted.pending = [c] ∧ c ∉ v1.word ∧ (∀ k ∈ keysOf v1.encDict, c ∈ k → k = [c]) := by
      unfold EncView.emitted
      cases hp : pendingSingleton v1.pending v1.word with
      | some u =>
        obtain ⟨hu1, hu2⟩ := pendingSingleton_some hp
        rcases hm.pend with h1 | ⟨x, h1, h2⟩ | ⟨h1, h2, h3 | ⟨x, h3, h4, h5⟩⟩
        · simp [h1] at hu2
        · rw [h1] at hu1; cases hu1; left; simp [h2, pendingErase_singleton]
        · rw [h3] at hu2; simp at hu2; subst hu2; simp [hu1] at h1
        · rw [h4] at hu1; cases hu1; right; exact ⟨by simp [h5, pendingErase_pair h3], h1, h2⟩
      | none =>
        have := pendingSingleton_none hp
        rcases hm.pend with h1 | ⟨x, h1, h2⟩ | ⟨h1, h2, h3 | ⟨x, h3, h4, h5⟩⟩
        · left; simp [h1, EncView.ticked]
        · exact absurd (by simp [h2]) (this x h1)
        · right; exact ⟨by simp [h3, EncView.ticked], h1, h2⟩
        · exact absurd (by simp [h5]) (this x h4)
    refine ⟨hs, ?_, by simp, fun _ => ?_, ?_, ?_, ?_⟩
    · show EncDictOk (v1.emitted.encDict ++ [(v1.word ++ [c], v1.emitted.count)]) (v1.emitted.count + 1)
      rw [e1, e2]
      refine encDictOk_append hm.dict hout (by simp) ?_
      intro x hx; left
      simp at hx; rcases hx with hx | rfl
      · exact hm.dict.units _ hwk x hx
      · exact hm.seen
    · show [c] ∈ keysOf (v1.emitted.encDict ++ [(v1.word ++ [c], v1.emitted.count)])
      rw [e2]; exact mem_keys_append.mpr (.inl hm.seen)
    · show v1.emitted.pending = [] ∨ ∃ x, v1.emitted.pending = [x] ∧ [c] = [x]
      rcases hpend with h1 | ⟨h1, -⟩
      · exact .inl h1
      · exact .inr ⟨c, h1, rfl⟩
    · show ∀ x ∈ v1.emitted.pending, ∀ t, x :: t ∈ keysOf (v1.emitted.encDict ++ [(v1.word ++ [c], v1.emitted.count)])
          → t = []
      rw [e2]
      intro x hx t ht
      rcases hpend with h1 | ⟨h1, h2, h3⟩
      · simp [h1] at hx
      · rw [h1] at hx; simp at hx; subst hx
        rcases mem_keys_append.mp ht with ht | ht
        · simpa using h3 _ ht (by simp)
        · exfalso
          cases hw : v1.word with
          | nil => exact hw0 hw
          | cons a r => rw [hw] at ht; simp at ht; simp [hw, ht.1] at h2
    · show v1.emitted.count + 1 + v1.emitted.enlargeIn = 2 ^ v1.emitted.indexBits + 1 + v1.emitted.pending.length
      rw [e1]; omega

theorem EncMatching.emit_side {v : EncView} (h : EncMatching v) (h0 : v.word ≠ []) : ∃ n, encLookup v.encDict v.word
    = some n := encLookup_of_mem (h.known h0)

theorem unit_safe (hE : AllowsCapacity E) {s : State} {v : EncView} (h : s.HoldsEnc v) (hm : EncMatching v) {c} :
    Safe E (firstSight c >>= fun _ => extendOrEmit c) s (fun _ t => t.HoldsEnc ((v.sighted c).extended c)) := by
  have hmid := sighted_mid hm c
  have hs := sighted_same v c
  refine safe_bind (safe_firstSight hE h c fun t ht => safe_extend hE ht c (by rw [hs.2.1]; exact hm.schedule.low) ?_
      fun t h => h)
  intro hl _
  apply encLookup_of_mem
  apply hmid.known
  intro h0
  have := encLookup_eq_none.mp hl
  rw [h0] at this; exact this hmid.seen

/-- ENC_UNIT from a view: it gives the view of `unitStep`. -/
theorem encUnit_safe (hE : AllowsCapacity E) {s : State} {v : EncView} (h : s.HoldsEnc v) (hm : EncMatching v) {c} (hc : v.U[v.ipos]? = some c) :
    Safe E encUnit s (fun _ t => t.HoldsEnc (v.unitStep c) ∧ t.phase = (if v.ipos + 1 = v.U.length then .encFlush else s.phase) ∧ t.bounds = s.bounds ∧ t.host = s.host ∧ t.dir = s.dir ∧ t.err = s.err ∧ t.RESULT = s.RESULT) := by
  have hu := safe_and (unit_safe hE h hm (c := c)) (R := _)
      (keepsAt_bind encUnit_statusFootprint.comp (encUnit_statusFootprint.firstSightAt _ _) fun _ _ _ =>
      encUnit_statusFootprint.extendAt _ _)
  have e1 := (sighted_same v c); have e2 := extended_same (v.sighted c) c
  have fin : ∀ m : State, (m.HoldsEnc ((v.sighted c).extended c) ∧ m.ipos = s.ipos ∧ m.phase = s.phase ∧ m.bounds
      = s.bounds ∧ m.U = s.U ∧ m.host = s.host ∧ m.dir = s.dir ∧ m.err = s.err ∧ m.RESULT = s.RESULT) →
      Safe E (do write (State.setIpos (v.ipos + 1)); if v.ipos + 1 = v.U.length then write (State.setPhase .encFlush) else pure ()) m (fun _ t => t.HoldsEnc (v.unitStep c) ∧ t.phase = (if v.ipos + 1 = v.U.length then .encFlush else s.phase) ∧ t.bounds = s.bounds ∧ t.host = s.host ∧ t.dir = s.dir ∧ t.err = s.err ∧ t.RESULT = s.RESULT) := by
    rintro m ⟨hh, r1, r2, r3, r4, r5, r6, r7, r8⟩
    refine safe_write ?_
    have hold : (m.setIpos (v.ipos+1)).HoldsEnc (v.unitStep c) := by
      obtain ⟨h1,h2,h3,h4,h5,h6,h7,h8,h9⟩ := hh
      constructor <;> simp [EncView.unitStep, *]
      exact h.U
    split
    · obtain ⟨h1,h2,h3,h4,h5,h6,h7,h8,h9⟩ := hold
      refine safe_ok rfl ⟨⟨h1,h2,h3,h4,h5,h6,h7,h8,h9⟩, rfl, r3, r5, r6, r7, r8⟩
    · exact safe_ok rfl ⟨hold, r2, r3, r5, r6, r7, r8⟩
  unfold encUnit
  refine safe_read h.U (safe_read h.ipos ?_)
  simp only [hc]
  have := safe_bind (f := fun _ => (do write (State.setIpos (v.ipos + 1)); if v.ipos + 1 = v.U.length then write (State.setPhase .encFlush) else pure () : M Unit)) (safe_mono hu fun _ t ht => fin t ht)
  unfold Safe at this ⊢
  simp only [bind_run] at this ⊢
  cases h1 : firstSight c s with
  | error e t => simp only [h1] at this ⊢; cases e <;> exact this
  | ok a t =>
    simp only [h1] at this ⊢
    cases h2 : extendOrEmit c t with
    | error e t => simp only [h2] at this ⊢; cases e <;> exact this
    | ok a t => simp only [h2] at this ⊢; exact this

/-! ### The Decoder's view -/

/-- The schedule of a view. -/
def DecView.sched (v : DecView) : Schedule := ⟨v.indexBits, v.enlargeIn⟩

/-- The view after INSERT of an entry. -/
def DecView.inserted (v : DecView) (e : List CodeUnit) : DecView :=
  { v with decDict := v.decDict ++ [e], count := v.count + 1, indexBits := (scheduleTick v.sched).indexBits, enlargeIn := (scheduleTick v.sched).enlargeIn }

theorem holds_inserted {s : State} {v : DecView} (h : s.HoldsDec v) (e) : (ticked v.sched (appended e v.decDict v.count s)).HoldsDec (v.inserted e) := by
  obtain ⟨h1,h2,h3,h4,h5,h6,h7⟩ := h
  constructor <;> simp [DecView.inserted, ticked, appended, *]

theorem safe_insert_view (hE : AllowsCapacity E) {s : State} {v : DecView} (h : s.HoldsDec v) (h0 : 1 ≤ v.enlargeIn)
    {e} {Q : Unit → State → Prop}
    (hq : ∀ t, t.HoldsDec (v.inserted e) → t.word = s.word → t.phase = s.phase → Q () t) : Safe E (insertEntry e) s Q :=
  safe_insert hE h.count h.decDict h.indexBits h.enlargeIn (by omega) (hq _ (holds_inserted h e) rfl rfl)

/-- A first literal from a view. -/
theorem firstLit_safe (hE : AllowsCapacity E) {s : State} {v : DecView} (h : s.HoldsDec v) (h0 : 1 ≤ v.enlargeIn) (c) :
    Safe E (firstLiteral c) s (fun _ t => t.HoldsDec { v.inserted [c] with out := v.out ++ [c] } ∧ t.word = some [c] ∧
        t.phase = .decLoop) := by
  unfold firstLiteral
  refine safe_read h.out (safe_bind (safe_units hE (safe_bind
      (safe_insert_view hE h h0 fun t ht _ _ => safe_write (safe_write (safe_ok rfl ?_))))))
  obtain ⟨h1,h2,h3,h4,h5,h6,h7⟩ := ht
  exact ⟨⟨h1,h2,h3,h4,h5,h6,rfl⟩, rfl, rfl⟩

/-- COMMIT from a view. -/
theorem commit_safe (hE : AllowsCapacity E) {s : State} {v : DecView} (h : s.HoldsDec v) (h0 : 1 ≤ v.enlargeIn)
    {word c rest} (hw : s.word = some word) :
    Safe E (commit (c :: rest)) s (fun _ t => t.HoldsDec { v.inserted (word ++ [c]) with out := v.out ++ c :: rest } ∧
        t.word = some (c :: rest) ∧ t.phase = s.phase) := by
  unfold commit
  refine safe_read h.out (safe_bind (safe_units hE (safe_write (safe_read (a := word) (by simp [hw]) ?_))))
  simp only [headUnit]
  refine safe_bind (safe_ok rfl (safe_bind (safe_insert_view hE (v := { v with out := v.out ++ c :: rest }) ?_ h0
      fun t ht _ hp => safe_ok rfl ?_)))
  · obtain ⟨h1,h2,h3,h4,h5,h6,h7⟩ := h
    constructor <;> simp [*]
  · obtain ⟨h1,h2,h3,h4,h5,h6,h7⟩ := ht
    exact ⟨⟨h1,h2,h3,h4,h5,h6,h7⟩, rfl, hp⟩

/-- A later literal from a view. -/
theorem loopLit_safe (hE : AllowsCapacity E) {s : State} {v : DecView} (h : s.HoldsDec v) (h0 : 1 ≤ v.enlargeIn)
    {word c} (hw : s.word = some word) (hl : v.count = v.decDict.length) :
    Safe E (loopLiteral c) s (fun _ t => t.HoldsDec { (v.inserted [c]).inserted (word ++ [c]) with out := v.out ++ [c]
        } ∧ t.word = some [c] ∧ t.phase = s.phase) := by
  unfold loopLiteral
  refine safe_read h.count (safe_bind (safe_insert_view hE h h0 fun t ht hw' hp => safe_bind ?_))
  have hr : resolve v.count t = .ok [c] t := by
    simp [resolve, ht.count, ht.decDict, DecView.inserted, decGet, hl]
  refine safe_ok hr (safe_mono (commit_safe hE ht (scheduleTick_pos _) (word := word) (by rw [hw', hw])) fun _ u hu => ?_)
  exact ⟨hu.1, hu.2.1, by rw [hu.2.2, hp]⟩

/-- An index that resolves, from a view. -/
theorem loopIdx_safe (hE : AllowsCapacity E) {s : State} {v : DecView} (h : s.HoldsDec v) (h0 : 1 ≤ v.enlargeIn)
    {word n c rest} (hw : s.word = some word)
    (hr : resolve n s = .ok (c :: rest) s) :
    Safe E (loopIdx n) s (fun _ t => t.HoldsDec { v.inserted (word ++ [c]) with out := v.out ++ c :: rest } ∧ t.word
        = some (c :: rest) ∧ t.phase = s.phase) := by
  unfold loopIdx
  exact safe_bind (safe_ok hr (commit_safe hE h h0 hw))

/-- INSERT of a non-empty entry keeps a matching view matching. -/
theorem inserted_matching {v : DecView} {word} (h : DecMatching v word) {e} (h0 : e ≠ []) : DecMatching (v.inserted e) word := by
  refine ⟨scheduleOk_tick h.schedule, ?_, ?_, ?_, ?_, h.cursor, ?_⟩
  · simp [DecView.inserted, h.count]
  · have := h.entries; simp [DecView.inserted]; omega
  · intro x hx; simp [DecView.inserted] at hx
    rcases hx with hx | rfl
    · exact h.nonempty x hx
    · exact h0
  · simp [DecView.inserted, h.word]
  · have := tick_balance (w := v.indexBits) h.schedule.low (v.count + 1) 0 (by have := h.balance; omega)
    simpa [DecView.inserted, DecView.sched] using this

/-- Any entry may be the word. -/
theorem matching_of_mem {v : DecView} {word} (h : DecMatching v word) {e o} (he : e ∈ v.decDict) : DecMatching
    { v with out := o } e :=
  ⟨h.schedule, h.count, h.entries, h.nonempty, he, h.cursor, h.balance⟩

/-- RESOLVE from a matching view gives a non-empty entry, or raises CORRUPT_STREAM. -/
theorem resolve_cases {s : State} {v : DecView} {word n} (h : s.HoldsDec v) (hw : s.word = some word)
    (hm : DecMatching v word) :
    (∃ c rest, resolve n s = .ok (c :: rest) s ∧ ((v.decDict[n]? = some (c :: rest)) ∨ n = v.count ∧ c :: rest = word
        ++ [c])) ∨
    (v.count < n ∧ resolve n s = .error (.job (.corruptTarget n v.count)) s) := by
  by_cases h1 : n < v.count
  · left
    have hlt : n < v.decDict.length := by have := hm.count; omega
    have hne := hm.nonempty v.decDict[n] (List.getElem_mem _)
    cases he : v.decDict[n] with
    | nil => exact absurd he hne
    | cons c rest =>
      refine ⟨c, rest, ?_, .inl (by simp [hlt, he])⟩
      simp [resolve, h.count, h1, h.decDict, decGet, hlt, he]
  · by_cases h2 : n = v.count
    · left
      have hne := hm.nonempty word hm.word
      cases word with
      | nil => exact absurd rfl hne
      | cons c r =>
        refine ⟨c, r ++ [c], ?_, .inr ⟨h2, rfl⟩⟩
        simp [resolve, h.count, h2, hw, headUnit]
    · right; refine ⟨by omega, ?_⟩
      simp [resolve, h.count, h1, h2]

end Sys2Proof.Machine
end

