-- ==== Sys2Proof/Tests/Slice0.lean ====
section
/-! SUPPORT. Small tests, each against a worked example of the spec, and a witness for the hypotheses of each statement. -/

namespace Sys2Proof.Tests

open Sys2Proof Sys2Proof.Machine

/-- The next state of an outcome. -/
def nextOf (o : Host.Outcome State Fault Refusal) : Option State :=
  match o with
  | .next t => some t
  | .fault _ => none
  | .refused _ => none

/-- The fault of an outcome. -/
def faultOf (o : Host.Outcome State Fault Refusal) : Option Fault :=
  match o with
  | .next _ => none
  | .fault f => some f
  | .refused _ => none

/-- The refusal of an outcome. -/
def refusalOf (o : Host.Outcome State Fault Refusal) : Option Refusal :=
  match o with
  | .next _ => none
  | .fault _ => none
  | .refused r => some r

/-! ### Small states -/

/-- A Decoder right after SUBMIT(1, inp): 95_test_vectors.md §1.2. -/
def dec0 (inp : List Byte) : State :=
  { State.reset with
    phase := .decFirst, dir := .decode, indexBits := some 2, enlargeIn := some 1, count := some 3,
    decDict := some [[0#16], [1#16], [2#16]], IN := some inp, bpos := some 0, out := some [] }

/-- A Decoder after the first literal A of a stream: program P1, after step 1. -/
def decA (inp : List Byte) : State :=
  { State.reset with
    phase := .decLoop, dir := .decode, indexBits := some 3, enlargeIn := some 4, count := some 4,
    decDict := some [[0#16], [1#16], [2#16], [0x41#16]], IN := some inp, bpos := some 10, out := some [0x41#16],
    word := some [0x41#16] }

/-- An Encoder right after SUBMIT(0, u): 95_test_vectors.md §1.2. -/
def enc0 (u : List CodeUnit) : State :=
  { State.reset with
    phase := .encScan, indexBits := some 2, enlargeIn := some 2, count := some 3, encDict := some [],
    pending := some [], word := some [], U := some u, ipos := some 0, obits := some [] }

/-- An Encoder after the first unit A: the singleton is pending and is the match. -/
def encA (u : List CodeUnit) : State :=
  { enc0 u with
    encDict := some [([0x41#16], 3)], count := some 4, pending := some [0x41#16], word := some [0x41#16],
    ipos := some 1 }

/-- An Encoder after the units A, A: LIT8 A was emitted, and the match is the known singleton. -/
def encAA (u : List CodeUnit) : State :=
  { enc0 u with
    encDict := some [([0x41#16], 3), ([0x41#16, 0x41#16], 4)], count := some 5, indexBits := some 3,
    enlargeIn := some 4, word := some [0x41#16], ipos := some 2,
    obits := some [false, false, true, false, false, false, false, false, true, false] }

/-- A state whose bounds are given. -/
def bounded (b : Bounds) (s : State) : State := { s with bounds := b }

/-! ### WellFormed: one ill-formed term for each check (30_encoding.md R66, R93, R97, R98, R101) -/

theorem test_wf_width_below_two : (Instr.lit8 0x41#8).check ⟨false, 1⟩ = some .widthBelowTwo := by decide
theorem test_wf_idx_width_below_two : (Instr.idx 3).check ⟨false, 1⟩ = some .widthBelowTwo := by decide
theorem test_wf_first_not_at_two : Instr.eos.check ⟨true, 3⟩ = some .firstNotAtTwo := by decide
theorem test_wf_index_reserved : (Instr.idx 2).check ⟨false, 3⟩ = some .indexReserved := by decide
theorem test_wf_index_too_wide : (Instr.idx 8).check ⟨false, 3⟩ = some .indexTooWide := by decide
theorem test_wf_index_first : (Instr.idx 3).check ⟨true, 2⟩ = some .indexFirst := by decide
theorem test_wf_not_first : Instr.illegalFirst.check ⟨false, 2⟩ = some .notFirst := by decide
theorem test_wf_accepts : (Instr.idx 7).wf ⟨false, 3⟩ = true ∧ (Instr.lit16 0xFFFF#16).wf ⟨true, 2⟩ = true := by decide

/-! ### Decoding: words written out from R91, R98 and the table of R108 -/

/-- `00 10000010`. -/
theorem test_decode_lit8 : decodeWords ⟨true, 2⟩
    (.wire [false, false, true, false, false, false, false, false, true, false]) = some (.lit8 0x41#8) := by decide

/-- `100 0000000010000000`: LIT16 0x0100 at W = 3 (program P2). -/
theorem test_decode_lit16 : decodeWords ⟨false, 3⟩
    (.wire [true, false, false, false, false, false, false, false, false, false, false, true, false, false, false,
      false, false, false, false]) = some (.lit16 0x0100#16) := by decide

/-- `010` at W = 3 and `01` at W = 2. -/
theorem test_decode_eos : decodeWords ⟨false, 3⟩ (.wire [false, true, false]) = some .eos ∧
    decodeWords ⟨true, 2⟩ (.wire [false, true]) = some .eos := by decide

/-- `0010` at W = 4 is IDX 4, `101` at W = 3 is IDX 5. -/
theorem test_decode_idx : decodeWords ⟨false, 4⟩ (.wire [false, false, true, false]) = some (.idx 4) ∧
    decodeWords ⟨false, 3⟩ (.wire [true, false, true]) = some (.idx 5) := by decide

/-- `11` as the first token. -/
theorem test_decode_illegal_first : decodeWords ⟨true, 2⟩ (.wire [true, true]) = some .illegalFirst := by decide

/-- `dir = 0` with code units (R106). -/
theorem test_decode_encode : decodeWords ⟨true, 2⟩ (.job ⟨0#1, .units [0x41#16]⟩) = some (.encode [0x41#16]) := by decide

/-- `dir = 1` with bytes (R106). -/
theorem test_decode_decode : decodeWords ⟨true, 2⟩ (.job ⟨1#1, .bytes [0x40#8]⟩) = some (.decode [0x40#8]) := by decide

/-- Bytes with `dir = 0` are no job, and a field that is cut short is no token. -/
theorem test_decode_rejects : decodeWords ⟨true, 2⟩ (.job ⟨0#1, .bytes []⟩) = none ∧
    decodeToken false 3 [0x20#8, 0x80#8] 10 = .stop (.truncated 13 8 3) 13 ∧
    decodeToken true 2 [] 0 = .stop (.endOfStream 0) 0 := by decide

/-- The encoder writes the wire bits of the same table. -/
theorem test_encode_tokens : encodeToken 3 .eos = [false, true, false] ∧
    encodeToken 3 (.idx 3) = [true, true, false] ∧
    encodeToken 2 (.lit8 0x41#8) = [false, false, true, false, false, false, false, false, true, false] := by decide

/-! ### The opcode table's words (log 8) -/

theorem test_table_words : decodeTableWord 8 0 = some (.encode []) ∧ decodeTableWord 8 1 = some (.decode []) ∧
    decodeTableWord 8 2 = some (.decode []) ∧ decodeTableWord 8 3 = some .illegalFirst ∧
    decodeTableWord 8 5 = some (.idx 5) ∧ decodeTableWord 16 2 = some .eos ∧
    decodeTableWord 16 (0x41 * 4) = some (.lit8 0x41#8) ∧
    decodeTableWord 24 (0x3042 * 4 + 1) = some (.lit16 0x3042#16) := by decide

theorem test_table_placed : nextOf (step (State.reset.withFetchWord 16 (0x41 * 4)))
    = nextOf (exec (.lit8 0x41#8) ((State.reset.withFetchWord 16 (0x41 * 4)).setBpos 10)) := by decide

theorem test_table_job_runs : (nextOf (step (State.reset.withFetchWord 8 1))).map State.status = some 0x21#8 := by decide

/-! ### Primitives: the vectors of 95_test_vectors.md §2 -/

theorem test_rev : revBits 2 1 = 2 ∧ revBits 3 1 = 4 ∧ revBits 4 0x1F5 = 10 ∧ revBits 16 0x3042 = 0x420C := by decide

/-- `101`, then `SinkWriteRev(0x1F5, 4)` gives `1011010`. -/
theorem test_sink_rev : (nextOf (perform (sinkWriteRev 0x1F5 4)
      { State.reset with obits := some [true, false, true] })).bind State.obits
    = some [true, false, true, true, false, true, false] := by decide

/-- `0010000010010` packs to `20 90`. -/
theorem test_pack : pack [false, false, true, false, false, false, false, false, true, false, false, true, false]
    = [0x20#8, 0x90#8] := by decide

theorem test_source : (srcReadBits [0xb1#8] 0 3).toOption = some (5, 3) ∧
    (srcReadRev [0xb1#8] 3 5).toOption = some (17, 8) ∧ (srcReadBits [0xb1#8] 8 0).toOption = some (0, 8) := by decide

/-- `(3, 1)` ticks to `(4, 8)`, not `(4, 16)`. -/
theorem test_tick : scheduleTick ⟨3, 1⟩ = ⟨4, 8⟩ ∧ scheduleTick ⟨2, 2⟩ = ⟨2, 1⟩ := by decide

/-! ### The instructions, one step each -/

/-- Right after SUBMIT(0, A): `(3, 2, 2)`, STATUS 0x01 (§1.2, program P5). -/
theorem test_encode_starts : nextOf (exec (.encode [0x41#16]) State.reset) = some (enc0 [0x41#16]) ∧
    (enc0 [0x41#16]).status = 0x01#8 := by decide

/-- Right after SUBMIT(1, any): `(3, 2, 1)` and the three placeholders (§1.2). -/
theorem test_decode_starts : nextOf (exec (.decode [0x40#8]) State.reset) = some (dec0 [0x40#8]) := by decide

/-- Program P1, step 1. -/
theorem test_lit8_first : nextOf (step (dec0 [0x20#8, 0x82#8, 0x15#8, 0xe8#8]))
    = some (decA [0x20#8, 0x82#8, 0x15#8, 0xe8#8]) := by decide

/-- Program P1, step 2: LIT8 B gives `(6, 3, 2)`, entries 4 and 5, and `out = AB`. -/
theorem test_lit8_later : nextOf (step (decA [0x20#8, 0x82#8, 0x15#8, 0xe8#8]))
    = some { decA [0x20#8, 0x82#8, 0x15#8, 0xe8#8] with
        count := some 6, enlargeIn := some 2, bpos := some 21, word := some [0x42#16],
        decDict := some [[0#16], [1#16], [2#16], [0x41#16], [0x42#16], [0x41#16, 0x42#16]],
        out := some [0x41#16, 0x42#16] } := by decide

/-- `a0 80 10` begins with LIT16 0x0041 (§4.1). -/
theorem test_lit16_first : (nextOf (step (dec0 [0xa0#8, 0x80#8, 0x10#8]))).map
      (fun t => (t.out, t.count, t.bpos)) = some (some [0x41#16], some 4, some 18) := by decide

/-- Program P2, step 2 from its first literal 0xFF: LIT16 0x0100 gives `(6, 3, 2)`. -/
theorem test_lit16_later : (nextOf (exec (.lit16 0x0100#16)
      { decA [] with decDict := some [[0#16], [1#16], [2#16], [0xFF#16]], out := some [0xFF#16],
                     word := some [0xFF#16] })).map (fun t => (t.enlargeIn, t.decDict))
    = some (some 2, some [[0#16], [1#16], [2#16], [0xFF#16], [0x100#16], [0xFF#16, 0x100#16]]) := by decide

/-- `20 8a`: IDX 4 with count 4 is the self-extension `[A, A]` (§4.1). -/
theorem test_idx_self_extension : (nextOf (step (decA [0x20#8, 0x8a#8]))).map
      (fun t => (t.out, t.word, t.count, t.enlargeIn))
    = some (some [0x41#16, 0x41#16, 0x41#16], some [0x41#16, 0x41#16], some 5, some 3) := by decide

/-- Program P3: IDX 5 with count 4 is CORRUPT_STREAM. -/
theorem test_idx_corrupt : (nextOf (step (decA [0x20#8, 0xa8#8]))).map (fun t => (t.status, t.RESULT))
    = some (0x2C#8, none) := by decide

/-- `40` is the empty sequence, and the padding is not read (§4.1). -/
theorem test_eos_first : (nextOf (step (dec0 [0x40#8]))).map (fun t => (t.status, t.RESULT, t.bpos))
    = some (0x22#8, some (.units []), some 2) := by decide

/-- `20 97`: EOS after A, non-zero padding (§4.1). -/
theorem test_eos_later : (nextOf (step (decA [0x20#8, 0x97#8]))).map (fun t => (t.status, t.RESULT))
    = some (0x22#8, some (.units [0x41#16])) := by decide

/-- `c0` (§4.2). -/
theorem test_illegal_first : (nextOf (step (dec0 [0xc0#8]))).map State.status = some 0x2C#8 := by decide

/-- `00`: V8 finds 6 bits (§4.2); the cursor stays after the CODE field. -/
theorem test_truncated : (nextOf (step (dec0 [0x00#8]))).map (fun t => (t.status, t.bpos)) = some (0x28#8, some 2) := by decide

/-- The empty stream (§4.2). -/
theorem test_end_of_stream : (nextOf (step (dec0 []))).map State.status = some 0x24#8 := by decide

/-! ### The Encoder's steps -/

/-- The vector `AA`, its first step: the singleton takes index 3 and nothing is emitted (R201). -/
theorem test_encUnit_first : nextOf (step (enc0 [0x41#16, 0x41#16, 0x41#16]))
    = some (encA [0x41#16, 0x41#16, 0x41#16]) := by decide

/-- Its second step: LIT8 A at W = 2, both ticks, and the candidate takes index 4. -/
theorem test_encUnit_emits : nextOf (step (encA [0x41#16, 0x41#16, 0x42#16]))
    = some (encAA [0x41#16, 0x41#16, 0x42#16]) := by decide

/-- Token 7 of §1.1: a singleton sent before goes as its index, `0010` at W = 4 with one tick. -/
theorem test_emit_index : (nextOf (exec (.idx 4)
      { enc0 [] with indexBits := some 4, enlargeIn := some 2 })).map (fun t => (t.obits, t.enlargeIn))
    = some (some [false, false, true, false], some 1) := by decide

/-- The vector `[]`: the flush of the empty word, then EOS at W = 2 gives `40`. -/
theorem test_encode_empty : (nextOf (step { enc0 [] with phase := .encFlush })).map (fun t => (t.phase, t.obits))
      = some (.encEos, some []) ∧
    (nextOf (step { enc0 [] with phase := .encEos })).map (fun t => (t.status, t.RESULT))
      = some (0x02#8, some (.bytes [0x40#8])) := by decide

/-- The vector `A`: its final literal is emitted by the flush, with two ticks. -/
theorem test_flush_emits : (nextOf (step { encA [0x41#16] with phase := .encFlush })).map
      (fun t => (t.phase, t.indexBits, t.enlargeIn, t.pending)) = some (.encEos, some 3, some 4, some []) := by decide

/-! ### The host's moves (R73, R309, R311) -/

theorem test_read_status : (nextOf (step { dec0 [] with host := [.readStatus] })).map (fun t => (t.seen, t.host))
    = some ([.status 0x21#8], []) := by decide

theorem test_read_result : (nextOf (step
      { State.reset with phase := .done, RESULT := some (.bytes [0x40#8]), host := [.readResult] })).map State.seen
    = some [.result (.bytes [0x40#8])] := by decide

theorem test_read_result_not_done : faultOf (step { dec0 [] with host := [.readResult] }) = some .resultNotDone := by decide

theorem test_submit_while_busy : refusalOf (step { dec0 [] with host := [.submit ⟨0#1, .units []⟩] })
    = some .submitWhileBusy := by decide

/-- A register without a value is not zero (R39). -/
theorem test_no_value : faultOf (step { State.reset with phase := .encEos }) = some (.noValue .indexBits) := by decide

/-- MAX_OUT_UNITS = 0: the first literal ends the job with CAPACITY_EXCEEDED before anything is written (R276). -/
theorem test_capacity : (nextOf (exec (.lit8 0x41#8)
      (bounded { Bounds.unbounded with maxOutUnits := some 0 } (dec0 [])))).map (fun t => (t.status, t.count))
    = some (0x30#8, some 3) := by decide

/-! ### Listings: program P1 (R107) -/

theorem test_listing : (assembleText
      "LIT8@2  0x41 ; wire 00 10000010\nLIT8@3  0x42\nIDX@3   5\nIDX@3   7\nEOS@4".toList).toOption
    = some [0x20#8, 0x82#8, 0x15#8, 0xe8#8] := by decide

/-- An annotation that is not the schedule's W is refused. -/
theorem test_listing_width : (assembleText "LIT8@2 65\nEOS@2".toList).toOption = none := by decide

/-! ### Witnesses: states and operands that meet the hypotheses of each statement, clause by clause

The name after `witness_` is the statement's. Each theorem is the hypotheses at the values its name stands for. -/

/-- Seven bits written and room for one byte. -/
def sink7 : State :=
  bounded { Bounds.unbounded with maxOutBytes := some 1 } { State.reset with obits := some (List.replicate 7 true) }

theorem witness_NaturalWriteAppendsMsbFirst : sink7.obits = some (List.replicate 7 true) ∧
    Bounds.allows sink7.bounds.maxOutBytes ((7 + 1 + 7) / 8) = true ∧
    Bounds.allows sink7.bounds.maxOutBytes ((7 + 2 + 7) / 8) = false := by decide

theorem witness_ReversedWriteAppendsLsbFirst : sink7.obits = some (List.replicate 7 true) ∧
    Bounds.allows sink7.bounds.maxOutBytes ((7 + 1 + 7) / 8) = true ∧
    Bounds.allows sink7.bounds.maxOutBytes ((7 + 2 + 7) / 8) = false := by decide

/-- The four clauses on one byte: no bit asked for, none left, one too few, exactly enough. -/
theorem witness_SourceReadCases : (8 ≤ 8 * [0xb1#8].length) ∧ (1 ≠ 0 ∧ 8 = 8 * [0xb1#8].length) ∧
    (6 ≠ 0 ∧ 3 < 8 * [0xb1#8].length ∧ 8 * [0xb1#8].length < 3 + 6) ∧
    (5 ≠ 0 ∧ 3 + 5 ≤ 8 * [0xb1#8].length) := by decide

/-- Each token at a place where it has an encoding, an index at both ends of its range. -/
theorem witness_TokenRoundTripAnywhere : (Instr.lit8 0xFF#8).wf ⟨true, 2⟩ = true ∧
    (Instr.lit16 0xFFFF#16).wf ⟨false, 2⟩ = true ∧ Instr.eos.wf ⟨false, 17⟩ = true ∧
    (Instr.idx 3).wf ⟨false, 2⟩ = true ∧ (Instr.idx 7).wf ⟨false, 3⟩ = true ∧
    Instr.illegalFirst.wf ⟨true, 2⟩ = true := by decide

theorem witness_DecodedTokensAreWellFormed : (Place.mk false 3).check = none ∧
    decodeToken false 3 [0x20#8, 0x90#8] 10 = .token .eos 13 := by decide

theorem witness_LaterBitsAreNotRead : decodeToken true 2 [0x20#8, 0x90#8] 0 = .token (.lit8 0x41#8) 10 ∧
    10 ≤ 8 * [0x20#8, 0xbf#8, 0xff#8].length ∧
    (∀ k < 10, inBit [0x20#8, 0xbf#8, 0xff#8] k = inBit [0x20#8, 0x90#8] k) := by decide

/-- Width 3: two ticks left, the last tick within MAX_INDEX_BITS = 4, and past MAX_INDEX_BITS = 3. -/
theorem witness_TickMovesTheSchedule : (decA []).indexBits = some 3 ∧ (decA []).enlargeIn = some 4 ∧
    Bounds.allows (some 4) (3 + 1) = true ∧ Bounds.allows (some 3) (3 + 1) = false := by decide

theorem witness_WidthLastsItsTicks : (2 ≤ 2) ∧ (0 < 2 ^ (2 - 1)) := by decide

/-- The first ASSIGN of a job: it fits MAX_ENTRIES = 4 and MAX_ENTRY_LEN = 1, and does not fit 3. -/
theorem witness_AssignGivesTheNextIndex : (enc0 []).count = some 3 ∧ (enc0 []).encDict = some [] ∧
    encLookup [] [0x41#16] = none ∧ Bounds.allows (some 4) (3 + 1) = true ∧ Bounds.allows (some 1) 1 = true ∧
    Bounds.allows (some 3) (3 + 1) = false ∧ Bounds.allows (some 0) 1 = false := by decide

theorem witness_InsertAppendsThenTicks : (dec0 []).count = some 3 ∧
    (dec0 []).decDict = some [[0#16], [1#16], [2#16]] ∧ Bounds.allows (some 4) (3 + 1) = true ∧
    Bounds.allows (some 1) 1 = true ∧ Bounds.allows (some 3) (3 + 1) = false ∧ Bounds.allows (some 0) 1 = false := by decide

/-- An entry, the count and one beyond it: the three clauses at 3, 4 and 5. -/
theorem witness_ResolveByCount : (decA []).count = some 4 ∧
    (decA []).decDict = some [[0#16], [1#16], [2#16], [0x41#16]] ∧ (decA []).word = some [0x41#16] ∧
    3 < 4 ∧ 4 < 5 := by decide

theorem witness_EncodeStartsAJob : State.reset.busy = false ∧
    Bounds.allows (some 1) [0x41#16].length = true ∧ Bounds.allows (some 1) [0x41#16, 0x42#16].length = false := by decide

theorem witness_DecodeStartsAJob : State.reset.busy = false ∧ Bounds.allows (some 1) [0x40#8].length = true ∧
    (Bounds.allows (some 3) 3 && Bounds.allows (some 1) 1) = true ∧
    (Bounds.allows (some 2) 3 && Bounds.allows none 1) = false ∧
    (Bounds.allows none 3 && Bounds.allows (some 0) 1) = false ∧
    Bounds.allows (some 1) [0x40#8, 0x40#8].length = false := by decide

/-- A running core, a descriptor of the wrong kind, a core at rest, and the two Encoder phases. -/
theorem witness_StopsAreNamed : (dec0 []).busy = true ∧
    (decodeJob ⟨0#1, .bytes []⟩).toOption = none ∧
    State.reset.busy = false ∧ (enc0 []).phase = .encScan ∧ (decA []).phase ≠ .decFirst ∧
    (dec0 []).phase = .decFirst ∧ refusalOf (exec (.idx 2) (decA [])) = some (.controlCodeAsIndex 2) := by decide

/-- A core at reset and one that ended another job, with leftovers. -/
def ended : State :=
  { decA [0x20#8] with phase := .done, RESULT := some (.units [0x41#16]), host := [.submit ⟨0#1, .units [0x41#16]⟩] }

theorem witness_LeftoversAreNeverSeen : ended.busy = false ∧
    { State.reset with host := [.submit ⟨0#1, .units [0x41#16]⟩] }.busy = false ∧
    { State.reset with host := [.submit ⟨0#1, .units [0x41#16]⟩] }.bounds = ended.bounds ∧
    ∃ t, Sys2Proof.core.run 3 { State.reset with host := [.submit ⟨0#1, .units [0x41#16]⟩] } = .next t ∧
      t.RESULT = none :=
  ⟨by decide, by decide, by decide, _, rfl, rfl⟩

/-- Bounds with no room for one thing. -/
def noOut : Bounds := { Bounds.unbounded with maxOutUnits := some 0 }
def noEntry : Bounds := { Bounds.unbounded with maxEntries := some 3 }
def shortEntry : Bounds := { Bounds.unbounded with maxEntryLen := some 1 }
def narrow : Bounds := { Bounds.unbounded with maxIndexBits := some 2 }
def noBytes : Bounds := { Bounds.unbounded with maxOutBytes := some 0 }

/-- With room for all, and past each of the three bounds; a byte and a unit of one value. -/
theorem witness_FirstLiteralRuns : (dec0 []).phase = .decFirst ∧ (dec0 []).count = some 3 ∧
    (dec0 []).indexBits = some 2 ∧ (dec0 []).enlargeIn = some 1 ∧ (dec0 []).out = some [] ∧
    (Bounds.allows Bounds.unbounded.maxOutUnits 1 && entryFits Bounds.unbounded 3 1 &&
      tickFits Bounds.unbounded ⟨2, 1⟩) = true ∧
    Bounds.allows noOut.maxOutUnits 1 = false ∧ entryFits noEntry 3 1 = false ∧ tickFits narrow ⟨2, 1⟩ = false ∧
    (0xFF#8).toNat = (0x00FF#16).toNat := by decide

/-- With room for all, and past each of the five checks in turn, the width growing at the second tick. -/
theorem witness_LaterLiteralRuns : (decA []).phase = .decLoop ∧
    (decA []).count = some [[0#16], [1#16], [2#16], [0x41#16]].length ∧ (decA []).indexBits = some 3 ∧
    (decA []).enlargeIn = some 4 ∧ (decA []).out = some [0x41#16] ∧ (decA []).word = some [0x41#16] ∧
    (entryFits Bounds.unbounded 4 1 && tickFits Bounds.unbounded ⟨3, 4⟩ && Bounds.allows none 2 &&
      entryFits Bounds.unbounded 5 2 && tickFits Bounds.unbounded (ticks 1 ⟨3, 4⟩)) = true ∧
    entryFits noEntry 4 1 = false ∧ tickFits narrow ⟨2, 1⟩ = false ∧ Bounds.allows (some 1) 2 = false ∧
    entryFits shortEntry 5 2 = false ∧ tickFits narrow (ticks 1 ⟨2, 2⟩) = false := by decide

/-- An entry at index 3, and the self-extension at 4, which is `count`; with room, and past each of the three bounds. -/
theorem witness_IndexTokenRuns : (decA []).phase = .decLoop ∧
    [[0#16], [1#16], [2#16], [0x41#16]][3]? = some [0x41#16] ∧ [0x41#16].head? = some 0x41#16 ∧
    4 = [[0#16], [1#16], [2#16], [0x41#16]].length ∧ [0x41#16, 0x41#16] = [0x41#16] ++ [0x41#16] ∧
    (decA []).word = some [0x41#16] ∧
    (Bounds.allows none 3 && entryFits Bounds.unbounded 4 2 && tickFits Bounds.unbounded ⟨3, 4⟩) = true ∧
    Bounds.allows (some 2) 3 = false ∧ entryFits shortEntry 4 2 = false ∧ tickFits narrow ⟨3, 1⟩ = false := by decide

theorem witness_IndexBeyondCountIsCorrupt : (decA []).phase = .decLoop ∧ (decA []).count = some 4 ∧ 3 ≤ 5 ∧ 4 < 5 := by decide

theorem witness_EosEndsDecode : (dec0 []).phase = .decFirst ∧ (decA []).phase = .decLoop ∧
    (decA []).out = some [0x41#16] := by decide

theorem witness_IllegalFirstIsCorrupt : (dec0 []).phase = .decFirst ∧ (dec0 []).bpos = some 0 ∧
    (dec0 []).dir = .decode := by decide

/-- The last byte that MAX_OUT_BYTES holds and one past it for both literals, and each tick past MAX_INDEX_BITS. -/
theorem witness_EncoderEmitsLiterals : (encA []).phase = .encScan ∧ (encA []).indexBits = some 2 ∧
    (encA []).enlargeIn = some 2 ∧ (encA []).pending = some [0x41#16] ∧ (encA []).obits = some [] ∧
    (Bounds.allows (some 3) ((0 + (2 + 16) + 7) / 8) && tickFits Bounds.unbounded ⟨2, 2⟩ &&
      tickFits Bounds.unbounded (ticks 1 ⟨2, 2⟩)) = true ∧
    Bounds.allows (some 2) ((0 + (2 + 16) + 7) / 8) = false ∧ Bounds.allows (some 2) ((0 + (2 + 8) + 7) / 8) = true ∧
    Bounds.allows (some 1) ((0 + (2 + 8) + 7) / 8) = false ∧ tickFits narrow ⟨2, 1⟩ = false ∧
    tickFits narrow (ticks 1 ⟨2, 2⟩) = false := by decide

/-- A field that fits, one past MAX_OUT_BYTES, an empty field that checks nothing, and a tick past MAX_INDEX_BITS. -/
theorem witness_EncoderEmitsIndices : (encAA []).phase = .encScan ∧ (encAA []).indexBits = some 3 ∧
    (encAA []).enlargeIn = some 4 ∧
    ((3 == 0 || Bounds.allows (some 2) ((10 + 3 + 7) / 8)) && tickFits (encAA []).bounds ⟨3, 4⟩) = true ∧
    ((3 == 0 || Bounds.allows (some 1) ((10 + 3 + 7) / 8)) && tickFits (encAA []).bounds ⟨3, 4⟩) = false ∧
    ((0 == 0 || Bounds.allows (some 1) ((10 + 0 + 7) / 8)) && tickFits (encAA []).bounds ⟨0, 4⟩) = true ∧
    tickFits narrow ⟨3, 1⟩ = false := by decide

theorem witness_EncoderEmitsEos : { encAA [] with phase := .encEos }.dir = .encode ∧
    { encAA [] with phase := .encEos }.err = .noError ∧ { encAA [] with phase := .encEos }.indexBits = some 3 ∧
    (3 == 0 || Bounds.allows (some 2) ((10 + 3 + 7) / 8)) = true ∧
    (3 == 0 || Bounds.allows (some 1) ((10 + 3 + 7) / 8)) = false := by decide

/-- A pending unit below 256, one of 256 or more, and a word that is no pending singleton. -/
theorem witness_EmitIsOneToken : (encA []).pending = some [0x41#16] ∧ (0x41#16).toNat < 256 ∧
    256 ≤ (0x0100#16).toNat ∧ (encAA []).pending = some [] ∧
    encLookup [([0x41#16], 3), ([0x41#16, 0x41#16], 4)] [0x41#16] = some 3 := by decide

/-- First sight of A, with room for its entry and without; a known candidate; and a new candidate after a known unit,
its emission going through with room for the candidate and without, and its emission past MAX_OUT_BYTES. -/
theorem witness_EncUnitStep : (enc0 [0x41#16, 0x41#16]).U = some [0x41#16, 0x41#16] ∧
    (enc0 [0x41#16, 0x41#16]).ipos = some 0 ∧ encLookup [] [0x41#16] = none ∧
    entryFits Bounds.unbounded 3 1 = true ∧ entryFits noEntry 3 1 = false ∧
    encLookup [([0x41#16], 3)] ([] ++ [0x41#16]) ≠ none ∧ encLookup [([0x41#16], 3)] [0x41#16] ≠ none ∧
    encLookup [([0x41#16], 3)] ([0x41#16] ++ [0x41#16]) = none ∧
    (nextOf (perform (emit [0x41#16]) (encA [0x41#16, 0x41#16]))).map (fun t => (t.phase, t.count))
      = some (.encScan, some 4) ∧ entryFits Bounds.unbounded 4 2 = true ∧ entryFits shortEntry 4 2 = false ∧
    (nextOf (perform (emit [0x41#16]) (bounded noBytes (encA [0x41#16, 0x41#16])))).map State.phase = some .fail := by decide

theorem witness_EncFlushStep : { enc0 [] with phase := .encFlush }.word = some [] ∧
    { encA [0x41#16] with phase := .encFlush }.word = some [0x41#16] ∧
    (nextOf (perform (emit [0x41#16]) { encA [0x41#16] with phase := .encFlush })).map State.phase
      = some .encFlush ∧
    (nextOf (perform (emit [0x41#16]) (bounded noBytes { encA [0x41#16] with phase := .encFlush }))).map State.phase
      = some .fail := by decide

/-- The values of the Encoder of AAB after two units. -/
def viewAAB : EncView :=
  ⟨3, 4, 5, [([0x41#16], 3), ([0x41#16, 0x41#16], 4)], [], [0x41#16], [0x41#16, 0x41#16, 0x42#16], 2,
    [false, false, true, false, false, false, false, false, true, false]⟩

theorem viewAAB_matching : EncMatching viewAAB where
  schedule := ⟨by decide, by decide, by decide⟩
  dict := ⟨by decide, by decide, by decide, by decide, by simp [keysOf, viewAAB]⟩
  start := by decide
  known := by decide
  pending := .inl rfl
  fresh := by intro c hc; cases hc
  balance := by decide

/-- The Encoder of AAB after two units meets the invariant. -/
theorem encAA_inv : (encAA [0x41#16, 0x41#16, 0x42#16]).Inv :=
  ⟨⟨rfl, rfl, rfl⟩, viewAAB, ⟨rfl, rfl, rfl, rfl, rfl, rfl, rfl, rfl, rfl⟩, viewAAB_matching, by decide⟩

theorem witness_EmittedIndexFitsItsField : (encAA [0x41#16, 0x41#16, 0x42#16]).Inv ∧
    (encAA [0x41#16, 0x41#16, 0x42#16]).phase = .encScan ∧
    encLookup [([0x41#16], 3), ([0x41#16, 0x41#16], 4)] [0x41#16] = some 3 :=
  ⟨encAA_inv, rfl, by decide⟩

theorem witness_DecoderTokenFrame : (nextOf (exec (.lit8 0x41#8) (dec0 []))).isSome = true ∧
    (nextOf (exec (.idx 4) (decA []))).isSome = true ∧ (nextOf (exec .eos (decA []))).isSome = true ∧
    (nextOf (exec .illegalFirst (dec0 []))).isSome = true ∧ (nextOf (exec (.idx 3) (dec0 []))).isSome = true := by decide

theorem witness_EncoderTokenFrame : (nextOf (exec (.lit16 0x100#16) (encA []))).isSome = true ∧
    (nextOf (exec (.idx 3) (encAA []))).isSome = true ∧
    (nextOf (exec .eos { encAA [] with phase := .encEos })).isSome = true := by decide

theorem witness_JobFrame : (nextOf (exec (.encode []) ended)).isSome = true ∧
    (nextOf (exec (.decode []) ended)).isSome = true := by decide

/-- A first token, a token after the host's wait, and ENC_EOS. -/
theorem witness_StepRunsTheDecodedToken : (dec0 [0x20#8, 0x90#8]).host = [] ∧
    decodeToken ((dec0 [0x20#8, 0x90#8]).phase == .decFirst) 2 [0x20#8, 0x90#8] 0 = .token (.lit8 0x41#8) 10 ∧
    { decA [0x20#8, 0x90#8] with host := [.wait] }.host = .wait :: [] ∧
    decodeToken ((decA [0x20#8, 0x90#8]).phase == .decFirst) 3 [0x20#8, 0x90#8] 10 = .token .eos 13 ∧
    { enc0 [] with phase := .encEos }.phase = .encEos := by decide

/-- Both read errors: no bit left, and too few for an operand. -/
theorem witness_FailedReadEndsTheJob :
    decodeToken ((dec0 []).phase == .decFirst) 2 [] 0 = .stop (.endOfStream 0) 0 ∧
    decodeToken ((dec0 [0x00#8]).phase == .decFirst) 2 [0x00#8] 0 = .stop (.truncated 2 8 6) 2 := by decide

theorem witness_HostMovesAreMade : (decodeJob ⟨0#1, .units []⟩).toOption = some (.encode []) ∧
    ended.phase = .done ∧ ended.RESULT = some (.units [0x41#16]) ∧ (dec0 []).phase ≠ .done := by decide

theorem witness_EndedCoreWaits : State.reset.phase = .idle ∧ ended.phase = .done ∧
    { State.reset with phase := .fail }.phase = .fail ∧ State.reset.host = [] := by decide

/-- One state for each clause at the level of a step or an instruction, and the reset state for the read operations. -/
theorem witness_UnheldRegistersFault : State.reset.count = none ∧
    { State.reset with phase := .decFirst }.indexBits = none ∧
    { dec0 [] with IN := none }.indexBits ≠ none ∧ { dec0 [] with bpos := none }.IN ≠ none ∧
    { State.reset with phase := .encScan }.U = none ∧ { enc0 [] with ipos := none }.U ≠ none ∧
    { State.reset with phase := .encFlush }.word = none ∧ (dec0 []).host = [] ∧
    faultOf (step { enc0 [0x41#16] with encDict := none }) = some (.noValue .encDict) ∧
    faultOf (step { encA [] with phase := .encFlush, pending := none }) = some (.noValue .pending) ∧
    faultOf (step { enc0 [] with phase := .encEos, obits := none }) = some (.noValue .obits) ∧
    faultOf (exec (.idx 3) { encAA [] with enlargeIn := none }) = some (.noValue .enlargeIn) ∧
    faultOf (exec (.idx 3) { decA [] with count := none }) = some (.noValue .count) ∧
    faultOf (exec (.idx 3) { decA [] with decDict := none }) = some (.noValue .decDict) ∧
    faultOf (exec (.idx 4) { decA [] with word := none }) = some (.noValue .word) ∧
    faultOf (exec .eos { decA [] with out := none }) = some (.noValue .out) ∧
    faultOf (step { State.reset with phase := .done, host := [.readResult] }) = some (.noValue .RESULT) := by decide

theorem witness_StatusIsWhatR24Says : (encAA [0x41#16, 0x41#16, 0x42#16]).Inv ∧
    (encAA [0x41#16, 0x41#16, 0x42#16]).status = 0x01#8 :=
  ⟨encAA_inv, by decide⟩

theorem witness_JobRegistersOnlyGrow : (encA [0x41#16, 0x41#16, 0x42#16]).busy = true ∧
    (decA [0x20#8, 0x8a#8]).busy = true ∧ (nextOf (step (encA [0x41#16, 0x41#16, 0x42#16]))).isSome = true ∧
    (nextOf (step (decA [0x20#8, 0x8a#8]))).isSome = true := by decide

theorem witness_InputIsNeverWritten : (decA [0x20#8, 0x8a#8]).busy = true ∧
    (nextOf (step (decA [0x20#8, 0x8a#8]))).isSome = true := by decide

/-- A step that goes on, one that finishes and one that fails. -/
theorem witness_CompletionIsAtomic : (decA []).RESULT = none ∧ (decA []).err = .noError ∧
    (nextOf (step (decA [0x20#8, 0x8a#8]))).map State.phase = some .decLoop ∧
    (nextOf (step (decA [0x20#8, 0x97#8]))).map State.phase = some .done ∧
    (nextOf (step (decA [0x20#8, 0xa8#8]))).map State.phase = some .fail := by decide

theorem witness_EncodeFailsOnCapacityOnly :
    (nextOf (step (bounded { Bounds.unbounded with maxEntries := some 3 } (enc0 [0x41#16])))).map State.phase
      = some .fail ∧
    (nextOf (step (bounded { Bounds.unbounded with maxOutBytes := some 0 } { enc0 [] with phase := .encEos }))).map
      State.phase = some .fail := by decide

/-- A Decoder right after SUBMIT meets the invariant. -/
theorem dec0_inv (inp : List Byte) : (dec0 inp).Inv :=
  ⟨⟨rfl, rfl, rfl⟩, rfl, inp, ⟨rfl, rfl, rfl, rfl, rfl, rfl, rfl⟩⟩

/-- A Decoder after its first literal meets the invariant. -/
theorem decA_inv : (decA [0x20#8, 0xa8#8]).Inv :=
  ⟨⟨rfl, rfl, rfl⟩, ⟨3, 4, 4, [[0#16], [1#16], [2#16], [0x41#16]], [0x20#8, 0xa8#8], 10, [0x41#16]⟩, [0x41#16],
    ⟨rfl, rfl, rfl, rfl, rfl, rfl, rfl⟩, rfl,
    ⟨⟨by decide, by decide, by decide⟩, rfl, by decide, by decide, by decide, by decide, rfl⟩⟩

/-- A first code 3, and a later index above the count. -/
theorem witness_CorruptStreamInTwoCasesOnly : (dec0 [0xc0#8]).Inv ∧ (decA [0x20#8, 0xa8#8]).Inv ∧
    decodeToken ((dec0 [0xc0#8]).phase == .decFirst) 2 [0xc0#8] 0 = .token .illegalFirst 2 ∧
    decodeToken ((decA [0x20#8, 0xa8#8]).phase == .decFirst) 3 [0x20#8, 0xa8#8] 10 = .token (.idx 5) 13 ∧
    (decA [0x20#8, 0xa8#8]).count = some 4 :=
  ⟨dec0_inv _, decA_inv, by decide, by decide, rfl⟩

theorem witness_StepKeepsTheInvariant : (decA [0x20#8, 0xa8#8]).Inv ∧
    (nextOf (step (decA [0x20#8, 0xa8#8]))).isSome = true := ⟨decA_inv, by decide⟩

theorem witness_DutifulRunsNeverStop : (dec0 [0xc0#8]).Inv ∧ (dec0 [0xc0#8]).dutyKept = true :=
  ⟨dec0_inv _, by decide⟩

/-- Bounds that the registers of `dec0` and of its next step just meet. -/
def tight : Bounds := ⟨some 0, some 2, some 0, some 1, some 4, some 1, some 3⟩

theorem witness_StepKeepsWithinBounds : (bounded tight (dec0 [0x20#8, 0x90#8])).bounds.legal = true ∧
    (bounded tight (dec0 [0x20#8, 0x90#8])).WithinBounds ∧
    (nextOf (step (bounded tight (dec0 [0x20#8, 0x90#8])))).map State.phase = some .decLoop :=
  ⟨by decide,
    by constructor <;> first | (rintro _ ⟨⟩; done) | (rintro _ ⟨⟩; decide),
    by decide⟩

/-- Each register at the largest value `tight` allows it, in a width that just holds it. -/
theorem witness_FiniteWidthsSuffice : (bounded tight (dec0 [0x20#8, 0x90#8])).bounds.legal = true ∧
    (bounded tight (dec0 [0x20#8, 0x90#8])).WithinBounds ∧ indexBitsWidth tight = some 2 ∧
    enlargeInWidth tight = some 3 ∧ countWidth tight = some 3 ∧ iposWidth tight = some 0 ∧ bposWidth tight = some 5 :=
  ⟨by decide, witness_StepKeepsWithinBounds.2.1, by decide, by decide, by decide, by decide, by decide⟩

theorem witness_EncodeAlwaysCompletes : { State.reset with host := [.submit ⟨0#1, .units [0x41#16]⟩] }.busy = false ∧
    { State.reset with host := [.submit ⟨0#1, .units [0x41#16]⟩] }.bounds = Bounds.unbounded ∧
    1 ≤ [0x41#16].length + 2 := by decide

theorem witness_DecodeAlwaysTerminates : { State.reset with host := [.submit ⟨1#1, .bytes [0xff#8]⟩] }.busy = false := by decide

/-- The empty sequence and the byte it encodes to. -/
theorem witness_DecodeInvertsEncode : { State.reset with host := [.submit ⟨1#1, .bytes [0x40#8]⟩] }.busy = false ∧
    ∃ t, Sys2Proof.core.run 3 { State.reset with host := [.submit ⟨0#1, .units []⟩] } = .next t ∧
      t.RESULT = some (.bytes [0x40#8]) :=
  ⟨by decide, _, rfl, by decide⟩

/-- The empty sequence, and no byte of its stream. -/
theorem witness_TruncatedStreamsFail :
    (∃ t, Sys2Proof.core.run 3 { State.reset with host := [.submit ⟨0#1, .units []⟩] } = .next t ∧
      t.obits = some [false, true]) ∧ 8 * 0 < [false, true].length :=
  ⟨⟨_, rfl, by decide⟩, by decide⟩

theorem witness_EmptyInputGivesOneByte : { State.reset with host := [.submit ⟨0#1, .units []⟩] }.busy = false ∧
    { State.reset with host := [.submit ⟨0#1, .units []⟩] }.bounds = Bounds.unbounded := by decide

/-- Two instances, one at each end of the platform. -/
theorem witness_InstancesAreIndependent :
    (∃ q, platformStep [dec0 [0x40#8], encA [0x41#16, 0x41#16]] 0 = some (.next q)) ∧
    (∃ q, platformStep [dec0 [0x40#8], encA [0x41#16, 0x41#16]] 1 = some (.next q)) :=
  ⟨⟨_, rfl⟩, ⟨_, rfl⟩⟩

end Sys2Proof.Tests
end

/-! ### Reversal of a field -/

namespace Sys2Proof

/-- Reversing twice keeps the low `n` bits and drops the rest. -/
theorem revBits_revBits (n v : Nat) : revBits n (revBits n v) = v % 2 ^ n := by
  refine Nat.eq_of_testBit_eq fun i => ?_
  rw [Nat.testBit_mod_two_pow]
  by_cases hi : i < n
  · have hback : n - 1 - (n - 1 - i) = i := by omega
    rw [testBit_revBits _ hi, testBit_revBits _ (by omega), hback]
    simp [hi]
  · have hlt : revBits n (revBits n v) < 2 ^ i :=
      (revBits_lt n _).trans_le (Nat.pow_le_pow_right (by omega) (by omega))
    simp [Nat.testBit_lt_two_pow hlt, hi]

/-- Settles O1: each bit of a reversal is the mirrored bit of its operand, so two reversals mirror it back. -/
theorem reversalIsAnInvolution : Obligations.ReversalIsAnInvolution := fun n v =>
  ⟨revBits_lt n v, fun _ hi => testBit_revBits v hi, revBits_revBits n v⟩

end Sys2Proof

/-! ### How a job starts

What the two SUBMIT rules do from any core that is not BUSY: ENCODE writes every register it will read at once, and
DECODE writes them in two parts, around the three INSERTs of its bootstrap. -/

namespace Sys2Proof.Machine

/-- The registers ENCODE leaves, the other direction's as they were (R190, R163). -/
def encodeLoaded (input : List CodeUnit) (s : State) : State :=
  { s with
    phase := if input = [] then .encFlush else .encScan
    indexBits := some 2, enlargeIn := some 2, count := some controlCodes, encDict := some [], pending := some []
    word := some [], U := some input, ipos := some 0, obits := some [] }

/-- The registers DECODE writes before its bootstrap (R230, R165). -/
def decodeLoaded (input : List Byte) (s : State) : State :=
  { s with
    indexBits := some 2, enlargeIn := some 4, count := some 0, decDict := some [], IN := some input, bpos := some 0 }

/-- The three placeholder entries (R165). -/
def bootstrap : M Unit := do
  insertEntry [0#16]
  insertEntry [1#16]
  insertEntry [2#16]

/-- The registers DECODE writes after its bootstrap (R230). -/
def decodeReady (s : State) : State := { s with phase := .decFirst, out := some [], word := none }

/-- The status registers a SUBMIT writes first (R190, R230). -/
def submitted (d : Direction) (s : State) : State := ((s.setDir d).setErr .noError).clearResult

variable {s s' t : State}

theorem startEncode_run {input : List CodeUnit} (hfit : Bounds.allows s.bounds.maxInUnits input.length = true) :
    startEncode input s = .ok () (encodeLoaded input s) := by
  simp only [startEncode, encoderInit, bind_run, readBounds_run, checkCapacity_pass hfit, write_run]
  simp only [encodeLoaded, State.setU, State.setIpos, State.setEncDict, State.setCount, State.setIndexBits,
    State.setEnlargeIn, State.setPending, State.setWord, State.setObits, State.setPhase]

theorem startEncode_raise {input : List CodeUnit} (hfit : Bounds.allows s.bounds.maxInUnits input.length = false) :
    startEncode input s = .error (.job (.capacityExceeded input.length)) s := by
  simp [startEncode, checkCapacity_raise hfit]

theorem startDecode_run {input : List Byte} (hfit : Bounds.allows s.bounds.maxInBytes input.length = true) :
    startDecode input s = (bootstrap >>= fun _ => write decodeReady) (decodeLoaded input s) := by
  simp only [startDecode, decoderInit, bootstrap, bind_run, readBounds_run, checkCapacity_pass hfit, write_run]
  rfl

theorem startDecode_raise {input : List Byte} (hfit : Bounds.allows s.bounds.maxInBytes input.length = false) :
    startDecode input s = .error (.job (.capacityExceeded input.length)) s := by
  simp [startDecode, checkCapacity_raise hfit]

theorem exec_encode_of_not_busy (hb : s.busy = false) (input : List CodeUnit) :
    exec (.encode input) s = perform (startEncode input) (submitted .encode s) := by
  simp [exec, execEncode, hb, submitted]

theorem exec_decode_of_not_busy (hb : s.busy = false) (input : List Byte) :
    exec (.decode input) s = perform (startDecode input) (submitted .decode s) := by
  simp [exec, execDecode, hb, submitted]

/-- Only a core that is not BUSY takes an ENCODE (R309). -/
theorem not_busy_of_exec_encode {input : List CodeUnit} (h : exec (.encode input) s = .next t) : s.busy = false := by
  cases hb : s.busy with
  | false => rfl
  | true => simp [exec, execEncode, hb] at h

theorem exec_encode_run (hb : s.busy = false) {input : List CodeUnit}
    (hfit : Bounds.allows s.bounds.maxInUnits input.length = true) :
    exec (.encode input) s = .next (encodeLoaded input (submitted .encode s)) :=
  (exec_encode_of_not_busy hb input).trans (perform_of_ok (startEncode_run hfit))

theorem exec_encode_raise (hb : s.busy = false) {input : List CodeUnit}
    (hfit : Bounds.allows s.bounds.maxInUnits input.length = false) :
    exec (.encode input) s = .next ((submitted .encode s).raise (.capacityExceeded input.length)) :=
  (exec_encode_of_not_busy hb input).trans (perform_of_job (startEncode_raise hfit))

/-- Only a core that is not BUSY takes a DECODE (R309). -/
theorem not_busy_of_exec_decode {input : List Byte} (h : exec (.decode input) s = .next t) : s.busy = false := by
  cases hb : s.busy with
  | false => rfl
  | true => simp [exec, execDecode, hb] at h

theorem exec_decode_run (hb : s.busy = false) {input : List Byte}
    (hfit : Bounds.allows s.bounds.maxInBytes input.length = true) :
    exec (.decode input) s
      = perform (bootstrap >>= fun _ => write decodeReady) (decodeLoaded input (submitted .decode s)) := by
  rw [exec_decode_of_not_busy hb, perform, startDecode_run (s := submitted .decode s) hfit, ← perform]

theorem exec_decode_raise (hb : s.busy = false) {input : List Byte}
    (hfit : Bounds.allows s.bounds.maxInBytes input.length = false) :
    exec (.decode input) s = .next ((submitted .decode s).raise (.capacityExceeded input.length)) :=
  (exec_decode_of_not_busy hb input).trans (perform_of_job (startDecode_raise hfit))

/-- What holds across each piece of a rule holds across the bootstrap. -/
theorem Footprint.bootstrapAt {R : State → State → Prop} (F : Footprint R) (s : State) : KeepsAt R bootstrap s :=
  keepsAt_bind F.comp (F.insertAt _ _) fun _ _ _ => keepsAt_bind F.comp (F.insertAt _ _) fun _ _ _ => F.insertAt _ _

/-! ### Which side of the core is at work -/

/-- Not a phase of the Decoder. -/
def OffDecoder (p : Phase) : Prop := p ≠ .decFirst ∧ p ≠ .decLoop

/-- Not a phase of the Encoder. -/
def OffEncoder (p : Phase) : Prop := p ≠ .encScan ∧ p ≠ .encFlush ∧ p ≠ .encEos

/-- The host's coming moves are the same. No rule of the core writes them. -/
theorem host_footprint : StepFootprint (fun s t => t.host = s.host) where
  comp := ⟨fun _ => rfl, fun h h' => h'.trans h⟩
  tick _ _ _ _ _ _ _ := rfl
  obits _ _ _ _ _ _ := rfl
  pending _ _ := rfl
  word _ _ _ := rfl
  assign _ _ _ _ _ _ _ := rfl
  insert _ _ _ _ _ _ _ := rfl
  out _ _ _ _ _ := rfl
  raise _ _ := rfl
  phase _ _ := rfl
  finish _ _ _ := rfl
  bpos _ _ _ _ _ _ _ _ := rfl
  ipos _ _ _ _ _ _ := rfl

/-- No piece of a rule moves the phase, so each keeps what is said of it. -/
theorem phase_footprint (P : Phase → Prop) : Footprint (fun s t => P s.phase → P t.phase) where
  comp := ⟨fun _ => id, fun h h' => h' ∘ h⟩
  tick _ _ _ _ _ _ _ := id
  obits _ _ _ _ _ _ := id
  pending _ _ := id
  word _ _ _ := id
  assign _ _ _ _ _ _ _ := id
  insert _ _ _ _ _ _ _ := id
  out _ _ _ _ _ := id

/-- A token of the Decoder leaves the phase, or moves it to DEC_LOOP, DONE or FAIL. -/
theorem exec_token_phase {P : Phase → Prop} (hloop : P .decLoop) (hdone : P .done) (hfail : P .fail)
    (hp : s.phase = .decFirst ∨ s.phase = .decLoop) {i : Instr} (hi : i.isToken = true)
    (h : exec i s = .next t) (hs : P s.phase) : P t.phase := by
  have F := phase_footprint P
  have key : ∀ m : M Unit, KeepsAt (fun s t => P s.phase → P t.phase) m s → perform m s = .next t → P t.phase :=
    fun m hm h => perform_keepsAt F.comp (fun _ _ _ => hfail) hm h hs
  have first : ∀ v, perform (firstLiteral v) s = .next t → P t.phase :=
    fun v => key _ (F.firstLitAt v s fun _ _ _ => hloop)
  have loop : ∀ v, perform (loopLiteral v) s = .next t → P t.phase := fun v => key _ (F.loopLitAt v s)
  have illegal : perform firstIllegal s = .next t → P t.phase :=
    key _ (keepsAt_read F.comp fun _ _ => keepsAt_of (keeps_raiseJob F.comp _) _)
  cases i with
  | lit8 v =>
    rcases hp with hp | hp <;> simp only [exec, execLit8, hp] at h
    · exact first _ h
    · exact loop _ h
  | lit16 v =>
    rcases hp with hp | hp <;> simp only [exec, execLit16, hp] at h
    · exact first _ h
    · exact loop _ h
  | eos =>
    rcases hp with hp | hp <;> simp only [exec, execEos, hp] at h
    · exact key _ (keepsAt_write fun _ => hdone) h
    · exact key _ (keepsAt_read F.comp fun _ _ => keepsAt_write fun _ => hdone) h
  | idx n =>
    by_cases hn : n < controlCodes
    · simp [exec, execIdx, hn] at h
    rcases hp with hp | hp <;> simp only [exec, execIdx, hn, if_false, hp] at h
    · exact illegal h
    · exact key _ (F.loopIdxAt n s) h
  | illegalFirst =>
    rcases hp with hp | hp <;> simp only [exec, execIllegalFirst, hp] at h
    · exact illegal h
    · cases h
  | encode _ => cases hi
  | decode _ => cases hi

/-- A step of the Encoder's job stays off the Decoder's phases. -/
theorem BusyStep.offDecoder (h : BusyStep s t) (hs : OffDecoder s.phase) : OffDecoder t.phase := by
  have F := phase_footprint OffDecoder
  have decoding : ¬ (s.phase = .decFirst ∨ s.phase = .decLoop) := by simpa [OffDecoder] using hs
  cases h with
  | encUnitOk u i c m _ _ _ _ hm =>
    have unit := keepsAt_bind F.comp (F.firstSightAt c s) fun _ _ _ => F.extendAt c _
    split
    · simp [OffDecoder]
    · exact unit.1 _ m hm hs
  | encUnitErr => simp [OffDecoder, State.raise]
  | flushNone => simp [OffDecoder]
  | flushOk => simp [OffDecoder]
  | flushErr => simp [OffDecoder, State.raise]
  | eosOk => simp [OffDecoder, State.finish]
  | eosErr => simp [OffDecoder, State.raise]
  | readErr _ _ _ _ _ hp => exact absurd hp decoding
  | token _ _ _ _ _ _ hp => exact absurd hp decoding

/-- A step of the Decoder's job stays off the Encoder's phases. -/
theorem BusyStep.offEncoder (h : BusyStep s t) (hs : OffEncoder s.phase) : OffEncoder t.phase := by
  obtain ⟨hscan, hflush, heos⟩ := hs
  cases h with
  | encUnitOk _ _ _ _ hp => exact absurd hp hscan
  | encUnitErr _ _ _ _ _ hp => exact absurd hp hscan
  | flushNone hp => exact absurd hp hflush
  | flushOk _ _ hp => exact absurd hp hflush
  | flushErr _ _ _ hp => exact absurd hp hflush
  | eosOk _ _ _ hp => exact absurd hp heos
  | eosErr _ _ _ hp => exact absurd hp heos
  | readErr => simp [OffEncoder, State.raise]
  | token _ _ q _ _ _ hp _ _ _ hd hx =>
    exact exec_token_phase (s := s.setBpos q) (by simp [OffEncoder]) (by simp [OffEncoder]) (by simp [OffEncoder])
      hp (decodeToken_le hd).2 hx ⟨hscan, hflush, heos⟩

/-! ### Two cores at one job -/

theorem step_of_not_busy (hb : s.busy = false) (hh : s.host = []) : step s = .next s := by
  cases hp : s.phase <;> simp [State.busy, hp, Phase.busy] at hb <;> simp [step, coreStep, hh, hp]

/-- With no move of the host, a step leaves the core waiting as it is or is one of its rules. -/
theorem step_of_no_host (hh : s.host = []) (h : step s = .next t) : t = s ∨ BusyStep s t := by
  cases hb : s.busy with
  | false => exact .inl (by simpa [step_of_not_busy hb hh, eq_comm] using h)
  | true => exact .inr (busyStep hb (by simpa [step, hh] using h))

/-- Two cores at the same point of the same job: they differ in the registers of the direction that does not run, or
the job has ended alike on both. -/
inductive Twins (s s' : State) : Prop
  | encoding (a : State) (side : OffDecoder s.phase) (twin : s' = withDecoderOf a s)
  | decoding (a : State) (side : OffEncoder s.phase) (twin : s' = withEncoderOf a s)
  | ended (hb : s.busy = false) (hb' : s'.busy = false) (hh' : s'.host = []) (status : s.status = s'.status)
      (result : s.RESULT = s'.RESULT)

theorem Twins.observe (h : Twins s s') : s.status = s'.status ∧ s.RESULT = s'.RESULT := by
  cases h with
  | encoding a _ twin => subst twin; exact ⟨rfl, rfl⟩
  | decoding a _ twin => subst twin; exact ⟨rfl, rfl⟩
  | ended _ _ _ status result => exact ⟨status, result⟩

/-- A step of one is answered by the other. -/
theorem Twins.step (h : Twins s s') (hh : s.host = []) (hst : Machine.step s = .next t) :
    ∃ t', Machine.step s' = .next t' ∧ Twins t t' := by
  have moved := step_of_no_host hh hst
  cases h with
  | encoding a side twin =>
    refine ⟨withDecoderOf a t, ?_, .encoding a ?_ rfl⟩
    · rw [twin, step_withDecoderOf a hh side, hst]; rfl
    · rcases moved with rfl | hbusy
      exacts [side, hbusy.offDecoder side]
  | decoding a side twin =>
    refine ⟨withEncoderOf a t, ?_, .decoding a ?_ rfl⟩
    · rw [twin, step_withEncoderOf a hh side, hst]; rfl
    · rcases moved with rfl | hbusy
      exacts [side, hbusy.offEncoder side]
  | ended hb hb' hh' status result =>
    have same : t = s := by simpa [step_of_not_busy hb hh, eq_comm] using hst
    exact ⟨s', step_of_not_busy hb' hh', same ▸ .ended hb hb' hh' status result⟩

theorem step_keeps_no_host (hh : s.host = []) (h : step s = .next t) : t.host = [] := by
  rcases step_of_no_host hh h with rfl | hbusy
  · exact hh
  · exact (hbusy.keeps host_footprint).trans hh

theorem core_run_succ_next {k : Nat} (h : Sys2Proof.core.run (k + 1) s = .next t) :
    ∃ u, step s = .next u ∧ Sys2Proof.core.run k u = .next t := by
  have hstep : Sys2Proof.core.step s = step s := rfl
  cases hu : step s with
  | next u => exact ⟨u, rfl, (core_run_succ hu).symm.trans h⟩
  | fault f => simp [Host.Core.run, hstep, hu] at h
  | refused r => simp [Host.Core.run, hstep, hu] at h

/-- A run of one is answered by the other. -/
theorem Twins.run (k : Nat) (h : Twins s s') (hh : s.host = []) (hrun : Sys2Proof.core.run k s = .next t) :
    ∃ t', Sys2Proof.core.run k s' = .next t' ∧ Twins t t' := by
  induction k generalizing s s' with
  | zero =>
    have same : s = t := Host.Outcome.next.inj ((core_run_zero s).symm.trans hrun)
    exact ⟨s', core_run_zero s', same ▸ h⟩
  | succ k ih =>
    obtain ⟨u, hu, hrest⟩ := core_run_succ_next hrun
    obtain ⟨u', hu', htwins⟩ := h.step hh hu
    obtain ⟨t', ht', hend⟩ := ih htwins (step_keeps_no_host hh hu) hrest
    exact ⟨t', (core_run_succ hu').trans ht', hend⟩

/-! ### The hand-over -/

/-- A job that ends as it starts ends alike, whatever the registers hold. -/
theorem Twins.of_raise (e : JobError) (hdir : s.dir = s'.dir) (hh' : s'.host = []) :
    Twins (s.raise e) (s'.raise e) :=
  .ended rfl rfl hh' (by simp [State.status, State.raise, State.isDone, State.busy, hdir]) rfl

theorem encodeLoaded_twin (input : List CodeUnit) (hb : s.bounds = s'.bounds) (hh : s.host = s'.host) :
    encodeLoaded input (submitted .encode s')
      = withDecoderOf s' (encodeLoaded input (submitted .encode s)) := by
  simp [encodeLoaded, submitted, withDecoderOf, State.setDir, State.setErr, State.clearResult, hb, hh]

/-- ENCODE on two cores with the same bounds. -/
theorem exec_encode_twins {input : List CodeUnit} (hb' : s'.busy = false) (hbounds : s.bounds = s'.bounds)
    (hh : s.host = []) (hh' : s'.host = []) (h : exec (.encode input) s = .next t) :
    ∃ t', exec (.encode input) s' = .next t' ∧ Twins t t' ∧ t.host = [] := by
  have hb := not_busy_of_exec_encode h
  cases hfit : Bounds.allows s.bounds.maxInUnits input.length with
  | true =>
    cases h.symm.trans (exec_encode_run hb hfit)
    refine ⟨_, exec_encode_run hb' (hbounds ▸ hfit), ?_, hh⟩
    refine .encoding s' ?_ (encodeLoaded_twin input hbounds (hh.trans hh'.symm))
    by_cases h0 : input = [] <;> simp [encodeLoaded, OffDecoder, h0]
  | false =>
    cases h.symm.trans (exec_encode_raise hb hfit)
    exact ⟨_, exec_encode_raise hb' (hbounds ▸ hfit), .of_raise _ rfl hh', hh⟩

/-- `s` with what an earlier job left in `a` where DECODE has not written yet as its bootstrap runs. -/
def withLeftoversOf (a s : State) : State := { withEncoderOf a s with phase := a.phase, word := a.word, out := a.out }

theorem bootstrap_withLeftoversOf (a : State) : Commutes (withLeftoversOf a) bootstrap := by
  have base : CommutesBase (withLeftoversOf a) :=
    ⟨fun _ => rfl, fun _ => rfl, fun _ => rfl, fun _ => rfl, fun _ _ => rfl, fun _ _ => rfl, fun _ _ => rfl⟩
  have insert := fun e => commutes_insert base (fun _ => rfl) (fun _ _ => rfl) e
  exact commutes_bind (insert _) fun _ => commutes_bind (insert _) fun _ => insert _

theorem decodeLoaded_leftovers (input : List Byte) (hb : s.bounds = s'.bounds) (hh : s.host = s'.host) :
    decodeLoaded input (submitted .decode s')
      = withLeftoversOf s' (decodeLoaded input (submitted .decode s)) := by
  simp [decodeLoaded, submitted, withLeftoversOf, withEncoderOf, State.setDir, State.setErr, State.clearResult, hb, hh]

/-- DECODE on two cores with the same bounds. -/
theorem exec_decode_twins {input : List Byte} (hb' : s'.busy = false) (hbounds : s.bounds = s'.bounds)
    (hh : s.host = []) (hh' : s'.host = []) (h : exec (.decode input) s = .next t) :
    ∃ t', exec (.decode input) s' = .next t' ∧ Twins t t' ∧ t.host = [] := by
  have hb := not_busy_of_exec_decode h
  cases hfit : Bounds.allows s.bounds.maxInBytes input.length with
  | true =>
    have hhost := host_footprint.bootstrapAt (decodeLoaded input (submitted .decode s))
    rw [exec_decode_run hb hfit, perform, bind_run] at h
    rw [exec_decode_run hb' (hbounds ▸ hfit), decodeLoaded_leftovers input hbounds (hh.trans hh'.symm), perform,
      bind_run, bootstrap_withLeftoversOf]
    cases hboot : bootstrap (decodeLoaded input (submitted .decode s)) with
    | ok a m =>
      rw [hboot] at h
      cases h
      exact ⟨_, rfl, .decoding s' (by simp [OffEncoder, decodeReady]) rfl, (hhost.1 a m hboot).trans hh⟩
    | error e m =>
      have hm : m.host = [] := (hhost.2 e m hboot).trans hh
      rw [hboot] at h
      cases e with
      | job e => cases h; exact ⟨_, rfl, .of_raise e rfl hm, hm⟩
      | fault f => cases h
  | false =>
    cases h.symm.trans (exec_decode_raise hb hfit)
    exact ⟨_, exec_decode_raise hb' (hbounds ▸ hfit), .of_raise _ rfl hh', hh⟩

theorem decodeJob_ok {d : Descriptor} {i : Instr} (h : decodeJob d = .ok i) :
    (∃ u, i = .encode u) ∨ ∃ b, i = .decode b := by
  unfold decodeJob at h
  split at h <;> split at h <;> cases h
  · exact .inl ⟨_, rfl⟩
  · exact .inr ⟨_, rfl⟩

/-- The same descriptor, handed to two cores that take it, makes twins of them. -/
theorem submitStep_twins {d : Descriptor} (hb' : s'.busy = false) (hbounds : s.bounds = s'.bounds)
    (hh : s.host = []) (hh' : s'.host = []) (h : submitStep d s = .next t) :
    ∃ t', submitStep d s' = .next t' ∧ Twins t t' ∧ t.host = [] := by
  unfold submitStep at *
  cases hd : decodeJob d with
  | error e => simp [hd] at h
  | ok i =>
    simp only [hd] at h ⊢
    rcases decodeJob_ok hd with ⟨u, rfl⟩ | ⟨b, rfl⟩
    · exact exec_encode_twins hb' hbounds hh hh' h
    · exact exec_decode_twins hb' hbounds hh hh' h

/-- Settles O22: the hand-over makes twins of the two cores, and twins stay twins along every run. -/
theorem leftoversAreNeverSeen : Obligations.LeftoversAreNeverSeen := by
  intro s s' d k t _ hb' hbounds hh hh' hk hrun
  obtain ⟨k, rfl⟩ := Nat.exists_eq_succ_of_ne_zero (Nat.one_le_iff_ne_zero.mp hk)
  obtain ⟨u, hu, hrest⟩ := core_run_succ_next hrun
  have submit : ∀ x : State, x.host = [.submit d] → step x = submitStep d (x.setHost []) := by
    intro x hx
    simp only [step, hx]
    rfl
  rw [submit s hh] at hu
  obtain ⟨u', hu', htwins, hno⟩ := submitStep_twins (s := s.setHost []) (s' := s'.setHost []) hb' hbounds rfl rfl hu
  obtain ⟨t', ht', hend⟩ := htwins.run k hno hrest
  exact ⟨t', (core_run_succ ((submit s' hh').trans hu')).trans ht', hend.observe⟩

end Sys2Proof.Machine

/-! ### The capacity bounds -/

namespace Sys2Proof.Machine

variable {s t : State}

/-- The bounds stay, and the registers stay within them. -/
def KeepsBounds (s t : State) : Prop := t.bounds = s.bounds ∧ (s.WithinBounds → t.WithinBounds)

theorem withinBound_some {α : Type} {size : α → Nat} {b : Option Nat} {a : α} :
    withinBound size b (some a) ↔ Bounds.allows b (size a) = true := by
  simp [withinBound]

theorem withinBound_none {α : Type} (size : α → Nat) (b : Option Nat) : withinBound size b none := by
  simp [withinBound]

/-- A bound on a bound's image: what a monotone function does to both sides. -/
theorem allows_map {f : Nat → Nat} (hf : Monotone f) {b : Option Nat} {m : Nat} (h : Bounds.allows b m = true) :
    Bounds.allows (b.map f) (f m) = true := by
  cases b with
  | none => rfl
  | some k => simpa [Bounds.allows] using hf (by simpa [Bounds.allows] using h)

theorem within_ticked {w e : Nat} (h : s.WithinBounds) (hw : s.indexBits = some w) (he : s.enlargeIn = some e)
    (h0 : e ≠ 0) (hfit : tickFits s.bounds ⟨w, e⟩ = true) : (ticked ⟨w, e⟩ s).WithinBounds := by
  have hw' := withinBound_some.mp (hw ▸ h.indexBits)
  have he' := withinBound_some.mp (he ▸ h.enlargeIn)
  by_cases h1 : e = 1
  · subst h1
    have hgrow : Bounds.allows s.bounds.maxIndexBits (w + 1) = true := by simpa [tickFits] using hfit
    have hpow := allows_map (f := fun m => 2 ^ (m - 1))
      (fun a b hab => Nat.pow_le_pow_right (by omega) (by omega)) hgrow
    exact { h with
      indexBits := withinBound_some.mpr hgrow
      enlargeIn := withinBound_some.mpr hpow }
  · rw [ticked, scheduleTick_many (by omega)]
    exact { h with
      indexBits := withinBound_some.mpr hw'
      enlargeIn := withinBound_some.mpr (allows_mono he' (Nat.sub_le e 1)) }

theorem within_setWord {v : List CodeUnit} (h : s.WithinBounds) (hv : s.Backs v) : (s.setWord v).WithinBounds := by
  have hfit : Bounds.allows s.bounds.maxEntryLen v.length = true := by
    rcases hv with ⟨d, hd, e, he, hle⟩ | ⟨d, hd, k, hk, hle⟩
    · exact allows_mono (h.decDict d hd e he) hle
    · exact allows_mono (h.encDict d hd k hk) hle
  exact { h with word := withinBound_some.mpr hfit }

theorem within_assigned {d : EncDict} {n : Nat} {key : List CodeUnit} (h : s.WithinBounds)
    (hd : s.encDict = some d) (hfit : entryFits s.bounds n key.length = true) :
    ((s.setEncDict (d ++ [(key, n)])).setCount (n + 1)).WithinBounds := by
  obtain ⟨hcount, hlen⟩ := Bool.and_eq_true_iff.mp hfit
  refine { h with count := withinBound_some.mpr hcount, encDict := ?_ }
  rintro _ ⟨⟩ k hk
  rcases mem_keys_append.mp hk with hk | rfl
  exacts [h.encDict d hd k hk, hlen]

theorem within_appended {d : DecDict} {n : Nat} {entry : List CodeUnit} (h : s.WithinBounds)
    (hd : s.decDict = some d) (hfit : entryFits s.bounds n entry.length = true) :
    (appended entry d n s).WithinBounds := by
  obtain ⟨hcount, hlen⟩ := Bool.and_eq_true_iff.mp hfit
  refine { h with count := withinBound_some.mpr hcount, decDict := ?_ }
  rintro _ ⟨⟩ e he
  rcases List.mem_append.mp he with he | he
  · exact h.decDict d hd e he
  · rw [List.mem_singleton.mp he]; exact hlen

theorem within_finish {r : Result} (h : s.WithinBounds) (hr : s.Yields r) : (s.finish r).WithinBounds := by
  refine { h with RESULT := ?_ }
  rintro _ ⟨⟩
  rcases hr with rfl | ⟨o, ho, rfl⟩ | ⟨b, hb, rfl⟩
  · show Bounds.allows s.bounds.maxOutUnits 0 = true
    cases s.bounds.maxOutUnits <;> simp [Bounds.allows]
  · exact h.out o ho
  · show Bounds.allows s.bounds.maxOutBytes (pack b).length = true
    rw [length_pack]
    exact h.obits b hb

theorem within_setBpos {p q : Nat} {inp : List Byte} (h : s.WithinBounds) (hp : s.bpos = some p)
    (hi : s.IN = some inp) (hq : q = p ∨ q ≤ 8 * inp.length) : (s.setBpos q).WithinBounds := by
  refine { h with bpos := withinBound_some.mpr ?_ }
  rcases hq with rfl | hq
  · exact h.bpos q hp
  · exact allows_mono (allows_map (f := fun m => 8 * m) (fun a b hab => Nat.mul_le_mul_left 8 hab) (h.IN inp hi)) hq

theorem within_raise (e : JobError) (h : s.WithinBounds) : (s.raise e).WithinBounds :=
  { h with RESULT := fun _ hr => by simp [State.raise] at hr }

/-- No piece of a rule takes a register past its bound: each capacity check stands before the write it guards
(R276). -/
theorem bounds_kept_footprint : StepFootprint KeepsBounds where
  comp := ⟨fun _ => ⟨rfl, id⟩, fun h h' => ⟨h'.1.trans h.1, h'.2 ∘ h.2⟩⟩
  tick _ _ _ hw he h0 hfit := ⟨rfl, fun h => within_ticked h hw he h0 hfit⟩
  obits s b n v _ hfit := ⟨rfl, fun h => { h with
    obits := withinBound_some.mpr (by simpa [Nat.add_assoc] using hfit) }⟩
  pending _ _ := ⟨rfl, fun h => { h with }⟩
  word _ _ hv := ⟨rfl, fun h => within_setWord h hv⟩
  assign _ _ _ _ hd _ hfit := ⟨rfl, fun h => within_assigned h hd hfit⟩
  insert _ _ _ _ hd _ hfit := ⟨rfl, fun h => within_appended h hd hfit⟩
  out s o x _ hfit := ⟨rfl, fun h => { h with
    out := withinBound_some.mpr (by simpa using hfit) }⟩
  raise _ e := ⟨rfl, within_raise e⟩
  phase _ _ := ⟨rfl, fun h => { h with }⟩
  finish _ _ hr := ⟨rfl, fun h => within_finish h hr⟩
  bpos _ _ _ _ hp hi _ hq := ⟨rfl, fun h => within_setBpos h hp hi hq⟩
  ipos s u i hu _ hlt := ⟨rfl, fun h => { h with
    ipos := withinBound_some.mpr (allows_mono (h.U u hu) hlt) }⟩

/-! What a SUBMIT writes needs legal bounds: the control codes, and the first widths and countdowns (D5). -/

theorem allows_maxEntries_of_legal {b : Bounds} (hlegal : b.legal = true) : Bounds.allows b.maxEntries 3 = true := by
  obtain ⟨h, -⟩ := Bool.and_eq_true_iff.mp hlegal
  unfold Bounds.allows
  exact h

theorem allows_maxIndexBits_of_legal {b : Bounds} (hlegal : b.legal = true) :
    Bounds.allows b.maxIndexBits 3 = true := by
  obtain ⟨-, h⟩ := Bool.and_eq_true_iff.mp hlegal
  unfold Bounds.allows
  exact h

theorem allows_countdown_of_legal {b : Bounds} (hlegal : b.legal = true) :
    Bounds.allows (b.maxIndexBits.map fun m => 2 ^ (m - 1)) 4 = true :=
  allows_map (f := fun m => 2 ^ (m - 1)) (fun _ _ _ => Nat.pow_le_pow_right (by omega) (by omega))
    (allows_maxIndexBits_of_legal hlegal)

theorem allows_zero (b : Option Nat) : Bounds.allows b 0 = true := by
  cases b <;> simp [Bounds.allows]

theorem within_submitted (d : Direction) (h : s.WithinBounds) : (submitted d s).WithinBounds :=
  { h with RESULT := fun _ hr => by simp [submitted] at hr }

theorem within_encodeLoaded {input : List CodeUnit} (hlegal : s.bounds.legal = true) (h : s.WithinBounds)
    (hfit : Bounds.allows s.bounds.maxInUnits input.length = true) : (encodeLoaded input s).WithinBounds :=
  { h with
    indexBits := withinBound_some.mpr (allows_mono (allows_maxIndexBits_of_legal hlegal) (by simp))
    enlargeIn := withinBound_some.mpr (allows_mono (allows_countdown_of_legal hlegal) (by simp))
    count := withinBound_some.mpr (allows_maxEntries_of_legal hlegal)
    encDict := by rintro _ ⟨⟩ k hk; simp [keysOf] at hk
    word := withinBound_some.mpr (allows_zero _)
    U := withinBound_some.mpr hfit
    ipos := withinBound_some.mpr (allows_zero _)
    obits := withinBound_some.mpr (allows_zero _) }

theorem within_decodeLoaded {input : List Byte} (hlegal : s.bounds.legal = true) (h : s.WithinBounds)
    (hfit : Bounds.allows s.bounds.maxInBytes input.length = true) : (decodeLoaded input s).WithinBounds :=
  { h with
    indexBits := withinBound_some.mpr (allows_mono (allows_maxIndexBits_of_legal hlegal) (by simp))
    enlargeIn := withinBound_some.mpr (allows_countdown_of_legal hlegal)
    count := withinBound_some.mpr (allows_zero _)
    decDict := by rintro _ ⟨⟩ e he; cases he
    IN := withinBound_some.mpr hfit
    bpos := withinBound_some.mpr (allows_zero _) }

theorem within_decodeReady (h : s.WithinBounds) : (decodeReady s).WithinBounds :=
  { h with
    word := withinBound_none _ _
    out := withinBound_some.mpr (allows_zero _) }

theorem exec_encode_keepsBounds {input : List CodeUnit} (hlegal : s.bounds.legal = true)
    (h : exec (.encode input) s = .next t) : KeepsBounds s t := by
  have hb := not_busy_of_exec_encode h
  cases hfit : Bounds.allows s.bounds.maxInUnits input.length with
  | true =>
    cases h.symm.trans (exec_encode_run hb hfit)
    exact ⟨rfl, fun hin => within_encodeLoaded hlegal (within_submitted _ hin) hfit⟩
  | false =>
    cases h.symm.trans (exec_encode_raise hb hfit)
    exact ⟨rfl, fun hin => within_raise _ (within_submitted _ hin)⟩

theorem exec_decode_keepsBounds {input : List Byte} (hlegal : s.bounds.legal = true)
    (h : exec (.decode input) s = .next t) : KeepsBounds s t := by
  have F := bounds_kept_footprint
  have hb := not_busy_of_exec_decode h
  cases hfit : Bounds.allows s.bounds.maxInBytes input.length with
  | true =>
    have loaded : KeepsBounds s (decodeLoaded input (submitted .decode s)) :=
      ⟨rfl, fun hin => within_decodeLoaded hlegal (within_submitted _ hin) hfit⟩
    rw [exec_decode_run hb hfit] at h
    refine F.comp.trans loaded (perform_keepsAt F.comp F.raise ?_ h)
    exact keepsAt_bind F.comp (F.bootstrapAt _) fun _ _ _ => keepsAt_write ⟨rfl, within_decodeReady⟩
  | false =>
    cases h.symm.trans (exec_decode_raise hb hfit)
    exact ⟨rfl, fun hin => within_raise _ (within_submitted _ hin)⟩

theorem keepsBounds_setHost (s : State) (r : List HostMove) : KeepsBounds s (s.setHost r) :=
  ⟨rfl, fun h => { h with }⟩

theorem keepsBounds_setSeen (s : State) (x : List Reading) : KeepsBounds s (s.setSeen x) :=
  ⟨rfl, fun h => { h with }⟩

/-- Every step, the host's moves with it. -/
theorem step_keepsBounds (hlegal : s.bounds.legal = true) (h : step s = .next t) : KeepsBounds s t := by
  have F := bounds_kept_footprint
  rcases step_cases h with ⟨r, -, ⟨-, hbusy⟩ | ⟨-, rfl⟩⟩ | ⟨r, x, -, rfl⟩ | ⟨r, u, -, hx⟩ | ⟨r, u, -, hx⟩
  · exact F.comp.trans (keepsBounds_setHost s r) (hbusy.keeps F)
  · exact keepsBounds_setHost s r
  · exact F.comp.trans (keepsBounds_setHost s r) (keepsBounds_setSeen _ x)
  · exact F.comp.trans (keepsBounds_setHost s r) (exec_encode_keepsBounds hlegal hx)
  · exact F.comp.trans (keepsBounds_setHost s r) (exec_decode_keepsBounds hlegal hx)

/-- Settles O53: every piece of a rule keeps the registers within the bounds, and so does every step. -/
theorem stepKeepsWithinBounds : Obligations.StepKeepsWithinBounds := fun _ _ hlegal hin h =>
  have ⟨hb, hwithin⟩ := step_keepsBounds hlegal h
  ⟨hb, hwithin hin⟩

end Sys2Proof.Machine

/-! ### The rule behind a token

Which of the core's rules a token runs, by the phase: the frames and the invariant speak of the rules. -/

namespace Sys2Proof.Machine

variable {s t : State} {i : Instr} {m : M Unit}

/-- The rule a token runs in a phase of the Decoder, once its fields are read (R232 to R240, log 11). -/
inductive DecoderRule : Phase → Instr → M Unit → Prop
  | firstLit8 (v : Byte) : DecoderRule .decFirst (.lit8 v) (firstLiteral (v.setWidth 16))
  | firstLit16 (v : CodeUnit) : DecoderRule .decFirst (.lit16 v) (firstLiteral v)
  | firstEos : DecoderRule .decFirst .eos firstEos
  | firstIdx (n : Nat) (hn : 3 ≤ n) : DecoderRule .decFirst (.idx n) firstIllegal
  | illegalFirst : DecoderRule .decFirst .illegalFirst firstIllegal
  | loopLit8 (v : Byte) : DecoderRule .decLoop (.lit8 v) (loopLiteral (v.setWidth 16))
  | loopLit16 (v : CodeUnit) : DecoderRule .decLoop (.lit16 v) (loopLiteral v)
  | loopEos : DecoderRule .decLoop .eos loopEos
  | loopIdx (n : Nat) (hn : 3 ≤ n) : DecoderRule .decLoop (.idx n) (loopIdx n)

/-- The rule a token runs in a phase of the Encoder that emits it (R193 to R197, log 11). -/
inductive EncoderRule (s : State) : Instr → M Unit → Prop
  | lit8 (v : Byte) (hp : s.phase = .encScan ∨ s.phase = .encFlush) :
      EncoderRule s (.lit8 v) (readIndexBits >>= fun W => emitLit8 (v.setWidth 16) W)
  | lit16 (v : CodeUnit) (hp : s.phase = .encScan ∨ s.phase = .encFlush) :
      EncoderRule s (.lit16 v) (readIndexBits >>= fun W => emitLit16 v W)
  | idx (n : Nat) (hn : 3 ≤ n) (hp : s.phase = .encScan ∨ s.phase = .encFlush) :
      EncoderRule s (.idx n) (readIndexBits >>= fun W => emitIdx n W)
  | eos (hp : s.phase = .encEos) : EncoderRule s .eos encEos

/-- An index from 3 on is no control code (R93). -/
theorem not_lt_controlCodes {n : Nat} (hn : 3 ≤ n) : ¬ n < controlCodes := Nat.not_lt.mpr hn

/-- An index that is a control code has no meaning (R69). -/
theorem exec_idx_of_lt {n : Nat} (hn : n < 3) : exec (.idx n) s = .refused (.controlCodeAsIndex n) :=
  if_pos hn

theorem DecoderRule.exec_eq {p : Phase} (h : DecoderRule p i m) (hp : s.phase = p) : exec i s = perform m s := by
  cases h with
  | firstLit8 v => simp only [exec, execLit8, hp]
  | firstLit16 v => simp only [exec, execLit16, hp]
  | firstEos => simp only [exec, execEos, hp]
  | firstIdx n hn => simp only [exec, execIdx, not_lt_controlCodes hn, if_false, hp]
  | illegalFirst => simp only [exec, execIllegalFirst, hp]
  | loopLit8 v => simp only [exec, execLit8, hp]
  | loopLit16 v => simp only [exec, execLit16, hp]
  | loopEos => simp only [exec, execEos, hp]
  | loopIdx n hn => simp only [exec, execIdx, not_lt_controlCodes hn, if_false, hp]

theorem EncoderRule.exec_eq (h : EncoderRule s i m) : exec i s = perform m s := by
  cases h with
  | lit8 v hp => rcases hp with hp | hp <;> simp only [exec, execLit8, hp]
  | lit16 v hp => rcases hp with hp | hp <;> simp only [exec, execLit16, hp]
  | idx n hn hp => rcases hp with hp | hp <;> simp only [exec, execIdx, not_lt_controlCodes hn, if_false, hp]
  | eos hp => simp only [exec, execEos, hp]

/-- A token that gives a next state in a phase of the Decoder ran its rule. -/
theorem decoderRule_of_exec (hp : s.phase = .decFirst ∨ s.phase = .decLoop) (hi : i.isToken = true)
    (h : exec i s = .next t) : ∃ m, DecoderRule s.phase i m ∧ perform m s = .next t := by
  suffices hrule : ∃ m, DecoderRule s.phase i m by
    obtain ⟨m, hm⟩ := hrule
    exact ⟨m, hm, hm.exec_eq rfl ▸ h⟩
  cases i with
  | lit8 v => rcases hp with hp | hp <;> rw [hp]; exacts [⟨_, .firstLit8 v⟩, ⟨_, .loopLit8 v⟩]
  | lit16 v => rcases hp with hp | hp <;> rw [hp]; exacts [⟨_, .firstLit16 v⟩, ⟨_, .loopLit16 v⟩]
  | eos => rcases hp with hp | hp <;> rw [hp]; exacts [⟨_, .firstEos⟩, ⟨_, .loopEos⟩]
  | idx n =>
    by_cases hn : n < 3
    · rw [exec_idx_of_lt hn] at h; cases h
    · have hn := Nat.not_lt.mp hn
      rcases hp with hp | hp <;> rw [hp]
      exacts [⟨_, .firstIdx n hn⟩, ⟨_, .loopIdx n hn⟩]
  | illegalFirst =>
    rcases hp with hp | hp
    · exact hp ▸ ⟨_, .illegalFirst⟩
    · simp only [exec, execIllegalFirst, hp] at h; cases h
  | encode _ => cases hi
  | decode _ => cases hi

/-- A token that gives a next state in a phase of the Encoder ran its rule. -/
theorem encoderRule_of_exec (hp : s.phase = .encScan ∨ s.phase = .encFlush ∨ s.phase = .encEos)
    (hi : i.isToken = true) (h : exec i s = .next t) : ∃ m, EncoderRule s i m ∧ perform m s = .next t := by
  suffices hrule : ∃ m, EncoderRule s i m by
    obtain ⟨m, hm⟩ := hrule
    exact ⟨m, hm, hm.exec_eq ▸ h⟩
  have emitting : s.phase ≠ .encEos → s.phase = .encScan ∨ s.phase = .encFlush := by tauto
  cases i with
  | lit8 v => exact ⟨_, .lit8 v (emitting fun hp => by simp [exec, execLit8, hp] at h)⟩
  | lit16 v => exact ⟨_, .lit16 v (emitting fun hp => by simp [exec, execLit16, hp] at h)⟩
  | eos =>
    rcases hp with hp | hp | hp
    · simp [exec, execEos, hp] at h
    · simp [exec, execEos, hp] at h
    · exact ⟨_, .eos hp⟩
  | idx n =>
    by_cases hn : n < 3
    · rw [exec_idx_of_lt hn] at h; cases h
    · have hn := Nat.not_lt.mp hn
      exact ⟨_, .idx n hn (emitting fun hp => by simp [exec, execIdx, not_lt_controlCodes hn, hp] at h)⟩
  | illegalFirst => rcases hp with hp | hp | hp <;> simp [exec, execIllegalFirst, hp] at h
  | encode _ => cases hi
  | decode _ => cases hi

/-- Every token the Decoder reads has a rule (R231, R236). -/
theorem decoderRule_of_decode {p : Phase} {W pos q : Nat} {inp : List Byte} (hp : p = .decFirst ∨ p = .decLoop)
    (h : decodeToken (p == .decFirst) W inp pos = .token i q) : ∃ m, DecoderRule p i m := by
  obtain ⟨c, _, -, hcode⟩ := decodeToken_token h
  rcases hcode with ⟨-, v, -, rfl⟩ | ⟨-, v, -, rfl⟩ | ⟨-, -, rfl⟩ | ⟨-, -, hfirst, rfl⟩ | ⟨hc, -, -, rfl⟩
  · rcases hp with rfl | rfl; exacts [⟨_, .firstLit8 _⟩, ⟨_, .loopLit8 _⟩]
  · rcases hp with rfl | rfl; exacts [⟨_, .firstLit16 _⟩, ⟨_, .loopLit16 _⟩]
  · rcases hp with rfl | rfl; exacts [⟨_, .firstEos⟩, ⟨_, .loopEos⟩]
  · obtain rfl : p = .decFirst := by simpa using hfirst
    exact ⟨_, .illegalFirst⟩
  · rcases hp with rfl | rfl; exacts [⟨_, .firstIdx c hc⟩, ⟨_, .loopIdx c hc⟩]

/-- The Decoder's step where a token is read. -/
theorem tokenStep_token {w p q : Nat} {inp : List Byte} (hw : s.indexBits = some w) (hi : s.IN = some inp)
    (hb : s.bpos = some p) (hd : decodeToken (s.phase == .decFirst) w inp p = .token i q) :
    tokenStep s = exec i (s.setBpos q) := by
  simp only [tokenStep, fetchToken_token hw hi hb hd]

/-- The Decoder's step where the read fails (R245). -/
theorem tokenStep_stop {w p q : Nat} {inp : List Byte} {e : ReadError} (hw : s.indexBits = some w)
    (hi : s.IN = some inp) (hb : s.bpos = some p)
    (hd : decodeToken (s.phase == .decFirst) w inp p = .stop e q) :
    tokenStep s = .next ((s.setBpos q).raise (readErrorJob e)) := by
  simp only [tokenStep, fetchToken_stop hw hi hb hd]

end Sys2Proof.Machine

/-! ### The invariant

Each rule, from a state of the invariant, ends in a state of the invariant or raises a job error; it never faults. So
one argument gives both that a step keeps the invariant and that there is one. -/

namespace Sys2Proof.Machine

variable {s t : State}

/-! What makes a state one of the invariant, phase by phase. -/

theorem inv_encScan {v : EncView} (hp : s.phase = .encScan) (hrun : s.Running .encode) (hv : s.HoldsEnc v)
    (hm : EncMatching v) (hlt : v.ipos < v.U.length) : s.Inv := by
  simp only [State.Inv, hp]
  exact ⟨hrun, v, hv, hm, hlt⟩

theorem inv_encFlush {v : EncView} (hp : s.phase = .encFlush) (hrun : s.Running .encode) (hv : s.HoldsEnc v)
    (hm : EncMatching v) (hend : v.ipos = v.U.length) : s.Inv := by
  simp only [State.Inv, hp]
  exact ⟨hrun, v, hv, hm, hend⟩

theorem inv_encEos {v : EncView} (hp : s.phase = .encEos) (hrun : s.Running .encode) (hv : s.HoldsEnc v)
    (hs : ScheduleOk v.indexBits v.enlargeIn) (hd : EncDictOk v.encDict v.count) (hpend : v.pending = [])
    (hend : v.ipos = v.U.length) : s.Inv := by
  simp only [State.Inv, hp]
  exact ⟨hrun, v, hv, hs, hd, hpend, hend⟩

theorem inv_decLoop {v : DecView} {word : List CodeUnit} (hp : s.phase = .decLoop) (hrun : s.Running .decode)
    (hv : s.HoldsDec v) (hw : s.word = some word) (hm : DecMatching v word) : s.Inv := by
  simp only [State.Inv, hp]
  exact ⟨hrun, v, word, hv, hw, hm⟩

theorem inv_finish_bytes (hrun : s.Running .encode) (b : List Byte) : (s.finish (.bytes b)).Inv :=
  ⟨hrun.err, by simp [State.finish, hrun.dir]⟩

theorem inv_finish_units (hrun : s.Running .decode) (u : List CodeUnit) : (s.finish (.units u)).Inv :=
  ⟨hrun.err, by simp [State.finish, hrun.dir]⟩

/-- Whatever a job raises, the core it leaves meets the invariant (R278). -/
theorem inv_raise (e : JobError) (s : State) : (s.raise e).Inv :=
  ⟨by cases e <;> simp [State.raise, JobError.kind], rfl⟩

/-- The invariant does not speak of the host's side. -/
theorem inv_hostSide (h : s.Inv) (r : List HostMove) (x : List Reading) : ((s.setHost r).setSeen x).Inv := by
  unfold State.Inv at h ⊢
  simp only [State.setSeen_phase, State.setHost_phase]
  cases hp : s.phase <;> simp only [hp] at h ⊢
  case idle => exact { h with }
  case encScan => obtain ⟨hrun, v, hv, hrest⟩ := h; exact ⟨{ hrun with }, v, { hv with }, hrest⟩
  case encFlush => obtain ⟨hrun, v, hv, hrest⟩ := h; exact ⟨{ hrun with }, v, { hv with }, hrest⟩
  case encEos => obtain ⟨hrun, v, hv, hrest⟩ := h; exact ⟨{ hrun with }, v, { hv with }, hrest⟩
  case decFirst => obtain ⟨hrun, hw, inp, hv⟩ := h; exact ⟨{ hrun with }, hw, inp, { hv with }⟩
  case decLoop => obtain ⟨hrun, v, word, hv, hrest⟩ := h; exact ⟨{ hrun with }, v, word, { hv with }, hrest⟩
  case done => exact h
  case fail => exact h

theorem inv_setHost (h : s.Inv) (r : List HostMove) : (s.setHost r).Inv := inv_hostSide h r s.seen

/-! Rules that never fault. -/

/-- Any job error may be raised. -/
def AnyError : JobError → State → Prop := fun _ _ => True

theorem allowsCapacity_anyError : AllowsCapacity AnyError := fun _ _ _ => trivial

/-- A rule that never faults and keeps the invariant where it ends gives a next state of the invariant. -/
theorem perform_inv {m : M Unit} (h : Safe AnyError m s fun _ t => t.Inv) : ∃ t, perform m s = .next t ∧ t.Inv := by
  unfold Safe at h
  cases hm : m s with
  | ok a t => exact ⟨t, perform_of_ok hm, by simpa only [hm] using h⟩
  | error e t =>
    cases e with
    | job e => exact ⟨_, perform_of_job hm, inv_raise e t⟩
    | fault f => simp only [hm] at h

theorem safe_raiseJob {α : Type} (e : JobError) (s : State) (Q : α → State → Prop) :
    Safe AnyError (raiseJob e : M α) s Q := trivial

/-! The Encoder. -/

theorem encUnit_inv {v : EncView} (hp : s.phase = .encScan) (hrun : s.Running .encode) (hv : s.HoldsEnc v)
    (hm : EncMatching v) (hlt : v.ipos < v.U.length) : Safe AnyError encUnit s fun _ t => t.Inv := by
  refine safe_mono (encUnit_safe allowsCapacity_anyError hv hm (List.getElem?_eq_getElem hlt)) ?_
  rintro _ t ⟨hv', hphase, -, -, hdir, herr, hresult⟩
  have hrun' : t.Running .encode := ⟨hdir.trans hrun.dir, herr.trans hrun.err, hresult.trans hrun.result⟩
  have hm' := unitStep_matching hm v.U[v.ipos]
  have hU : (v.unitStep v.U[v.ipos]).U = v.U :=
    (extended_same _ _).1.trans (sighted_same v _).2.2.2.1
  have hipos : (v.unitStep v.U[v.ipos]).ipos = v.ipos + 1 := rfl
  by_cases hlast : v.ipos + 1 = v.U.length
  · rw [if_pos hlast] at hphase
    exact inv_encFlush hphase hrun' hv' hm' (by rw [hU, hipos, hlast])
  · rw [if_neg hlast, hp] at hphase
    exact inv_encScan hphase hrun' hv' hm' (by rw [hU, hipos]; omega)

/-- Only the word itself can be pending, so its emission leaves nothing pending. -/
theorem emitted_pending {v : EncView} (hm : EncMatching v) : v.emitted.pending = [] := by
  rcases hm.pending with hnone | ⟨c, hc, hword⟩
  · have hindex : pendingSingleton v.pending v.word = none := by
      cases hs : pendingSingleton v.pending v.word with
      | none => rfl
      | some u => simpa [hnone] using (pendingSingleton_some hs).2
    simp only [EncView.emitted, hindex]
    exact hnone
  · simp [EncView.emitted, pendingSingleton, hc, hword, pendingErase_singleton]

theorem nodup_pending {v : EncView} (hm : EncMatching v) : v.pending.Nodup := by
  rcases hm.pending with hnone | ⟨c, hc, -⟩
  · simp [hnone]
  · simp [hc]

theorem encFlush_inv {v : EncView} (hrun : s.Running .encode) (hv : s.HoldsEnc v) (hm : EncMatching v)
    (hend : v.ipos = v.U.length) : Safe AnyError encFlush s fun _ t => t.Inv := by
  unfold encFlush
  refine safe_read hv.word ?_
  by_cases hword : v.word = []
  · have hpend : v.pending = [] := by
      rcases hm.pending with hnone | ⟨c, -, hc⟩
      · exact hnone
      · rw [hword] at hc; cases hc
    rw [if_pos hword]
    have hinv : (s.setPhase .encEos).Inv :=
      inv_encEos rfl { hrun with } { hv with } hm.schedule hm.dict hpend hend
    exact safe_ok rfl hinv
  · rw [if_neg hword]
    refine safe_bind (safe_emit allowsCapacity_anyError hv hm.schedule.low (fun _ => hm.emit_side hword) ?_)
    rintro t ⟨⟨-, ⟨-, -, -, -, -, hdir⟩, -⟩, -, herr, hresult⟩ hv'
    have hrun' : t.Running .encode := ⟨hdir.trans hrun.dir, herr.trans hrun.err, hresult.trans hrun.result⟩
    obtain ⟨hcount, hdict, -, hU, hipos⟩ := emitted_same v
    have hs := (emitted_balance hm.schedule hm.balance (nodup_pending hm)).1
    exact safe_ok rfl (inv_encEos rfl { hrun' with } { hv' with } hs (by rw [hdict, hcount]; exact hm.dict)
      (emitted_pending hm) (by rw [hipos, hU, hend]))

theorem encEos_inv {v : EncView} (hrun : s.Running .encode) (hv : s.HoldsEnc v) :
    Safe AnyError encEos s fun _ t => t.Inv := by
  unfold encEos
  refine safe_read hv.indexBits (safe_bind (safe_sink allowsCapacity_anyError hv.obits ?_))
  unfold sinkFinish
  exact safe_bind (safe_read (State.setObits_obits _ _) (safe_ok rfl
    (safe_ok rfl (inv_finish_bytes (s := s.setObits _) { hrun with } _))))

/-! The Decoder. -/

theorem running_of_leaves {d : Direction} (hrun : s.Running d) (h : LeavesEncoderSide s t) : t.Running d := by
  obtain ⟨⟨-, ⟨-, -, hdir⟩, -⟩, herr, hresult⟩ := h
  exact ⟨hdir.trans hrun.dir, herr.trans hrun.err, hresult.trans hrun.result⟩

/-- The Decoder's view with its first token's fields read up to `q` (R165, R231). -/
def bootView (inp : List Byte) (q : Nat) : DecView := ⟨2, 1, 3, [[0#16], [1#16], [2#16]], inp, q, []⟩

theorem scheduleOk_booted : ScheduleOk 2 1 := ⟨by decide, by decide, by decide⟩

/-- The first literal brings the Decoder into its loop with the countdown in balance. -/
theorem bootView_inserted {inp : List Byte} {q : Nat} (hq : q ≤ 8 * inp.length) (c : CodeUnit) :
    DecMatching { (bootView inp q).inserted [c] with out := (bootView inp q).out ++ [c] } [c] where
  schedule := scheduleOk_tick scheduleOk_booted
  count := rfl
  entries := le_rfl
  nonempty := by simp [bootView, DecView.inserted]
  word := by simp [bootView, DecView.inserted]
  cursor := hq
  balance := rfl

theorem firstLiteral_inv {inp : List Byte} {q : Nat} (hrun : s.Running .decode) (hv : s.HoldsDec (bootView inp q))
    (hq : q ≤ 8 * inp.length) (c : CodeUnit) : Safe AnyError (firstLiteral c) s fun _ t => t.Inv := by
  have hsafe := firstLit_safe allowsCapacity_anyError hv scheduleOk_booted.low c
  refine safe_mono (safe_and hsafe (firstLiteral_leavesEncoderSide c s)) ?_
  rintro _ t ⟨⟨hv', hword, hphase⟩, hleaves⟩
  exact inv_decLoop hphase (running_of_leaves hrun hleaves) hv' hword (bootView_inserted hq c)

theorem loopLiteral_inv {v : DecView} {word : List CodeUnit} (hp : s.phase = .decLoop) (hrun : s.Running .decode)
    (hv : s.HoldsDec v) (hw : s.word = some word) (hm : DecMatching v word) (c : CodeUnit) :
    Safe AnyError (loopLiteral c) s fun _ t => t.Inv := by
  have hsafe := loopLit_safe allowsCapacity_anyError hv hm.schedule.low hw hm.count (c := c)
  refine safe_mono (safe_and hsafe (loopLiteral_leavesEncoderSide c s)) ?_
  rintro _ t ⟨⟨hv', hword, hphase⟩, hleaves⟩
  have hm' := inserted_matching (inserted_matching hm (e := [c]) (by simp)) (e := word ++ [c]) (by simp)
  exact inv_decLoop (hphase.trans hp) (running_of_leaves hrun hleaves) hv' hword
    (matching_of_mem hm' (by simp [DecView.inserted]))

theorem loopIdx_inv {v : DecView} {word : List CodeUnit} (hp : s.phase = .decLoop) (hrun : s.Running .decode)
    (hv : s.HoldsDec v) (hw : s.word = some word) (hm : DecMatching v word) (n : Nat) :
    Safe AnyError (loopIdx n) s fun _ t => t.Inv := by
  rcases resolve_cases (n := n) hv hw hm with ⟨c, rest, hr, hentry⟩ | ⟨-, hr⟩
  · have hsafe := loopIdx_safe allowsCapacity_anyError hv hm.schedule.low hw hr
    refine safe_mono (safe_and hsafe (loopIdx_leavesEncoderSide n s)) ?_
    rintro _ t ⟨⟨hv', hword, hphase⟩, hleaves⟩
    have hm' := inserted_matching hm (e := word ++ [c]) (by simp)
    refine inv_decLoop (hphase.trans hp) (running_of_leaves hrun hleaves) hv' hword (matching_of_mem hm' ?_)
    rcases hentry with hmem | ⟨-, hself⟩
    · exact List.mem_append_left _ (List.mem_of_getElem? hmem)
    · exact hself ▸ List.mem_append_right _ (List.mem_singleton_self _)
  · simp only [loopIdx, Safe, bind_run, hr, AnyError]

theorem firstIllegal_inv {p : Nat} (hb : s.bpos = some p) : Safe AnyError firstIllegal s fun _ t => t.Inv :=
  safe_read hb (safe_raiseJob _ _ _)

/-- The rule of any first token. -/
theorem firstRule_inv {i : Instr} {m : M Unit} {inp : List Byte} {q : Nat} (h : DecoderRule .decFirst i m)
    (hrun : s.Running .decode) (hv : s.HoldsDec (bootView inp q)) (hq : q ≤ 8 * inp.length) :
    Safe AnyError m s fun _ t => t.Inv := by
  cases h with
  | firstLit8 v => exact firstLiteral_inv hrun hv hq _
  | firstLit16 v => exact firstLiteral_inv hrun hv hq v
  | firstEos => exact safe_ok rfl (inv_finish_units hrun [])
  | firstIdx n hn => exact firstIllegal_inv hv.bpos
  | illegalFirst => exact firstIllegal_inv hv.bpos

/-- The rule of any later token. -/
theorem loopRule_inv {i : Instr} {m : M Unit} {v : DecView} {word : List CodeUnit} (h : DecoderRule .decLoop i m)
    (hp : s.phase = .decLoop) (hrun : s.Running .decode) (hv : s.HoldsDec v) (hw : s.word = some word)
    (hm : DecMatching v word) : Safe AnyError m s fun _ t => t.Inv := by
  cases h with
  | loopLit8 v => exact loopLiteral_inv hp hrun hv hw hm _
  | loopLit16 v => exact loopLiteral_inv hp hrun hv hw hm v
  | loopEos => exact safe_read hv.out (safe_ok rfl (inv_finish_units hrun _))
  | loopIdx n hn => exact loopIdx_inv hp hrun hv hw hm n

/-- A fetch gives a token that lies in the input, or ends the job. -/
theorem tokenStep_inv {v : DecView} (hp : s.phase = .decFirst ∨ s.phase = .decLoop) (hv : s.HoldsDec v)
    (hcursor : v.bpos ≤ 8 * v.IN.length)
    (hrule : ∀ i m q, DecoderRule s.phase i m → q ≤ 8 * v.IN.length →
      Safe AnyError m (s.setBpos q) fun _ t => t.Inv) : ∃ t, tokenStep s = .next t ∧ t.Inv := by
  cases hd : decodeToken (s.phase == .decFirst) v.indexBits v.IN v.bpos with
  | token i q =>
    obtain ⟨m, hm⟩ := decoderRule_of_decode hp hd
    have hq : q ≤ 8 * v.IN.length := (decodeToken_within hd).elim (fun h => h ▸ hcursor) id
    rw [tokenStep_token hv.indexBits hv.IN hv.bpos hd, hm.exec_eq (s := s.setBpos q) rfl]
    exact perform_inv (hrule i m q hm hq)
  | stop e q => exact ⟨_, tokenStep_stop hv.indexBits hv.IN hv.bpos hd, inv_raise _ _⟩

theorem holdsDec_setBpos {v : DecView} (hv : s.HoldsDec v) (q : Nat) : (s.setBpos q).HoldsDec { v with bpos := q } :=
  { hv with bpos := rfl }

/-! The steps. -/

/-- The core's own step, whatever the phase. -/
theorem coreStep_inv (h : s.Inv) : ∃ t, coreStep s = .next t ∧ t.Inv := by
  have hinv := h
  unfold State.Inv at h
  unfold coreStep
  cases hp : s.phase <;> simp only [hp] at h ⊢
  case idle => exact ⟨s, rfl, hinv⟩
  case done => exact ⟨s, rfl, hinv⟩
  case fail => exact ⟨s, rfl, hinv⟩
  case encScan =>
    obtain ⟨hrun, v, hv, hm, hlt⟩ := h
    exact perform_inv (encUnit_inv hp hrun hv hm hlt)
  case encFlush =>
    obtain ⟨hrun, v, hv, hm, hend⟩ := h
    exact perform_inv (encFlush_inv hrun hv hm hend)
  case encEos =>
    obtain ⟨hrun, v, hv, -⟩ := h
    rw [(EncoderRule.eos hp).exec_eq]
    exact perform_inv (encEos_inv hrun hv)
  case decFirst =>
    obtain ⟨hrun, -, inp, hv⟩ := h
    refine tokenStep_inv (.inl hp) hv (Nat.zero_le _) fun i m q hm hq => ?_
    exact firstRule_inv (hp ▸ hm) { hrun with } (holdsDec_setBpos hv q) hq
  case decLoop =>
    obtain ⟨hrun, v, word, hv, hw, hm⟩ := h
    refine tokenStep_inv (.inr hp) hv hm.cursor fun i m q hr hq => ?_
    exact loopRule_inv (hp ▸ hr) hp { hrun with } (holdsDec_setBpos hv q) hw { hm with cursor := hq }

theorem scheduleOk_initial : ScheduleOk 2 2 := ⟨by decide, by decide, by decide⟩

/-- The Encoder's view as its job starts (R163, R190). -/
def initialView (input : List CodeUnit) : EncView := ⟨2, 2, 3, [], [], [], input, 0, []⟩

theorem initialView_matching (input : List CodeUnit) : EncMatching (initialView input) where
  schedule := scheduleOk_initial
  dict := ⟨rfl, rfl, .nil, by simp [initialView, keysOf], by simp [initialView, keysOf]⟩
  start := by simp [initialView]
  known := by simp [initialView]
  pending := .inl rfl
  fresh := by simp [initialView]
  balance := rfl

/-- ENCODE on a core that is not BUSY. -/
theorem exec_encode_inv (hb : s.busy = false) (input : List CodeUnit) :
    ∃ t, exec (.encode input) s = .next t ∧ t.Inv := by
  cases hfit : Bounds.allows s.bounds.maxInUnits input.length with
  | false => exact ⟨_, exec_encode_raise hb hfit, inv_raise _ _⟩
  | true =>
    refine ⟨_, exec_encode_run hb hfit, ?_⟩
    have hv : (encodeLoaded input (submitted .encode s)).HoldsEnc (initialView input) :=
      ⟨rfl, rfl, rfl, rfl, rfl, rfl, rfl, rfl, rfl⟩
    have hm := initialView_matching input
    by_cases h0 : input = []
    · subst h0
      exact inv_encFlush rfl ⟨rfl, rfl, rfl⟩ hv hm rfl
    · exact inv_encScan (if_neg h0) ⟨rfl, rfl, rfl⟩ hv hm (List.length_pos_iff.mpr h0)

/-- The registers after the bootstrap's three entries (R165, R166). -/
def bootstrapped (input : List Byte) (s : State) : State :=
  { decodeLoaded input s with
    decDict := some [[0#16], [1#16], [2#16]], count := some 3, indexBits := some 2, enlargeIn := some 1 }

/-- The bootstrap faults nowhere: its three ticks take the countdown from 4 to 1. -/
theorem bootstrap_safe (input : List Byte) (s : State) :
    Safe AnyError bootstrap (decodeLoaded input s) fun _ t => t = bootstrapped input s := by
  have hE := allowsCapacity_anyError
  unfold bootstrap
  refine safe_bind (safe_insert hE (n := 0) (d := []) (w := 2) (e := 4) rfl rfl rfl rfl (by decide) ?_)
  refine safe_bind (safe_insert hE (n := 1) (d := [[0#16]]) (w := 2) (e := 3) rfl rfl rfl rfl (by decide) ?_)
  refine safe_insert hE (n := 2) (d := [[0#16], [1#16]]) (w := 2) (e := 2) rfl rfl rfl rfl (by decide) ?_
  simp [bootstrapped, ticked, appended, scheduleTick, State.setIndexBits, State.setEnlargeIn, State.setDecDict,
    State.setCount]

/-- DECODE on a core that is not BUSY. -/
theorem exec_decode_inv (hb : s.busy = false) (input : List Byte) :
    ∃ t, exec (.decode input) s = .next t ∧ t.Inv := by
  cases hfit : Bounds.allows s.bounds.maxInBytes input.length with
  | false => exact ⟨_, exec_decode_raise hb hfit, inv_raise _ _⟩
  | true =>
    rw [exec_decode_run hb hfit]
    refine perform_inv (safe_bind (safe_mono (bootstrap_safe input _) ?_))
    rintro _ t rfl
    exact safe_ok rfl ⟨⟨rfl, rfl, rfl⟩, rfl, input, rfl, rfl, rfl, rfl, rfl, rfl, rfl⟩

/-- A SUBMIT that keeps the duties. -/
theorem submitStep_inv (hb : s.busy = false) {d : Descriptor} {i : Instr} (hd : decodeJob d = .ok i) :
    ∃ t, submitStep d s = .next t ∧ t.Inv := by
  simp only [submitStep, hd]
  rcases decodeJob_ok hd with ⟨u, rfl⟩ | ⟨b, rfl⟩
  · exact exec_encode_inv hb u
  · exact exec_decode_inv hb b

/-- A core of the invariant that is DONE holds a RESULT (R37). -/
theorem result_of_inv_done (h : s.Inv) (hdone : s.isDone = true) : ∃ r, s.RESULT = some r := by
  have hp : s.phase = .done := by simpa [State.isDone] using hdone
  simp only [State.Inv, hp] at h
  obtain ⟨-, h⟩ := h
  cases hr : s.RESULT with
  | none => cases hd : s.dir <;> simp [hd, hr] at h
  | some r => exact ⟨r, rfl⟩

/-- From a state of the invariant, a host that keeps its duties gets a step, and it keeps the invariant. -/
theorem step_inv (h : s.Inv) (hduty : s.dutyKept = true) : ∃ t, step s = .next t ∧ t.Inv := by
  unfold State.dutyKept at hduty
  unfold step
  cases hh : s.host with
  | nil => exact coreStep_inv h
  | cons move rest =>
    cases move with
    | wait => exact coreStep_inv (inv_setHost h rest)
    | readStatus => exact ⟨_, rfl, inv_hostSide h rest _⟩
    | readResult =>
      simp only [hh] at hduty
      obtain ⟨r, hr⟩ := result_of_inv_done h hduty
      have hdone : (nextMove rest s).isDone = true := hduty
      have hr' : (nextMove rest s).RESULT = some r := hr
      simp only [readResultMove, hdone, hr', if_true]
      exact ⟨_, rfl, inv_hostSide h rest _⟩
    | submit d =>
      simp only [hh, Bool.and_eq_true, Bool.not_eq_true'] at hduty
      obtain ⟨hb, hjob⟩ := hduty
      cases hd : decodeJob d with
      | ok i => exact submitStep_inv (s := nextMove rest s) hb hd
      | error e => simp only [hd] at hjob; cases hjob

/-- A host that breaks its duties gets no step (R309, R311). -/
theorem dutyKept_of_step (h : step s = .next t) : s.dutyKept = true := by
  unfold step at h
  unfold State.dutyKept
  cases hh : s.host with
  | nil => rfl
  | cons move rest =>
    cases move with
    | wait => rfl
    | readStatus => rfl
    | readResult =>
      simp only [hh, readResultMove] at h
      split at h
      case isTrue hdone => exact hdone
      case isFalse => cases h
    | submit d =>
      simp only [hh, submitStep] at h
      cases hd : decodeJob d with
      | error e => simp [hd] at h
      | ok i =>
        have hb : s.busy = false := by
          simp only [hd] at h
          rcases decodeJob_ok hd with ⟨u, rfl⟩ | ⟨b, rfl⟩
          · exact not_busy_of_exec_encode (s := nextMove rest s) h
          · exact not_busy_of_exec_decode (s := nextMove rest s) h
        simp [hb, hd]

/-- Settles O51: a step is one of a host that keeps its duties, and such a step keeps the invariant. -/
theorem stepKeepsTheInvariant : Obligations.StepKeepsTheInvariant := by
  intro s t hinv hstep
  obtain ⟨t', hstep', hinv'⟩ := step_inv hinv (dutyKept_of_step hstep)
  cases hstep.symm.trans hstep'
  exact hinv'

/-- Settles O52: from a state of the invariant no rule faults and no duty kept is refused. -/
theorem dutifulRunsNeverStop : Obligations.DutifulRunsNeverStop := by
  intro s hinv hduty
  obtain ⟨t, hstep, -⟩ := step_inv hinv hduty
  exact ⟨t, hstep⟩

end Sys2Proof.Machine

/-! ### What the tokens and the jobs leave alone -/

namespace Sys2Proof.Machine

variable {s t : State}

theorem leavesEncoder_finish (r : Result) (s : State) : LeavesEncoder s (s.finish r) :=
  ⟨⟨rfl, rfl, rfl, rfl, rfl⟩, ⟨rfl, rfl, rfl⟩, rfl, rfl, rfl⟩

/-- The Decoder's own registers are as before. -/
def LeavesDictionary (s t : State) : Prop :=
  t.decDict = s.decDict ∧ t.count = s.count ∧ t.indexBits = s.indexBits ∧ t.enlargeIn = s.enlargeIn ∧
    t.word = s.word ∧ t.out = s.out

/-- Every rule of the Decoder leaves the Encoder's side alone. -/
theorem DecoderRule.leavesEncoder {p : Phase} {i : Instr} {m : M Unit} (hm : DecoderRule p i m)
    (h : perform m s = .next t) : LeavesEncoder s t ∧ (t.busy = true → t.err = s.err ∧ t.RESULT = s.RESULT) := by
  have illegal : Keeps LeavesEncoderSide firstIllegal :=
    keeps_bind leavesEncoderSide_composes (keeps_read leavesEncoderSide_composes _ _) fun _ =>
      keeps_raiseJob leavesEncoderSide_composes _
  cases hm with
  | firstLit8 v => exact df2_concl (firstLiteral_leavesEncoderSide _) h
  | firstLit16 v => exact df2_concl (firstLiteral_leavesEncoderSide _) h
  | firstIdx n => exact df2_concl illegal h
  | illegalFirst => exact df2_concl illegal h
  | loopLit8 v => exact df2_concl (loopLiteral_leavesEncoderSide _) h
  | loopLit16 v => exact df2_concl (loopLiteral_leavesEncoderSide _) h
  | loopIdx n => exact df2_concl (loopIdx_leavesEncoderSide _) h
  | firstEos => cases h; exact ⟨leavesEncoder_finish _ s, fun hb => by cases hb⟩
  | loopEos =>
    cases ho : s.out with
    | none => simp [perform, Machine.loopEos, ho] at h
    | some o =>
      simp only [perform, Machine.loopEos, bind_run, readOut_run, ho, held_some, write_run] at h
      cases h
      exact ⟨leavesEncoder_finish _ s, fun hb => by cases hb⟩

theorem leavesDictionary_composes : Composes LeavesDictionary :=
  ⟨fun _ => ⟨rfl, rfl, rfl, rfl, rfl, rfl⟩, fun ⟨a, b, c, d, e, f⟩ ⟨a', b', c', d', e', f'⟩ =>
    ⟨a'.trans a, b'.trans b, c'.trans c, d'.trans d, e'.trans e, f'.trans f⟩⟩

theorem leavesDictionary_raise (s : State) (e : JobError) : LeavesDictionary s (s.raise e) :=
  ⟨rfl, rfl, rfl, rfl, rfl, rfl⟩

theorem leavesDictionary_finish (s : State) (r : Result) : LeavesDictionary s (s.finish r) :=
  ⟨rfl, rfl, rfl, rfl, rfl, rfl⟩

/-- EOS and the first tokens that are illegal write no register of the Decoder's own. -/
theorem DecoderRule.leavesDictionary {p : Phase} {i : Instr} {m : M Unit} (hm : DecoderRule p i m)
    (hi : i = .eos ∨ i = .illegalFirst ∨ p = .decFirst ∧ ∃ n, i = .idx n) (h : perform m s = .next t) :
    LeavesDictionary s t := by
  have hc := leavesDictionary_composes
  have illegal : Keeps LeavesDictionary firstIllegal :=
    keeps_bind hc (keeps_read hc _ _) fun _ => keeps_raiseJob hc _
  have key : ∀ m, Keeps LeavesDictionary m → perform m s = .next t → LeavesDictionary s t :=
    fun _ hm h => perform_keeps hm hc leavesDictionary_raise h
  cases hm with
  | firstEos => exact key _ (keeps_write fun s => leavesDictionary_finish s _) h
  | firstIdx n => exact key _ illegal h
  | illegalFirst => exact key _ illegal h
  | loopEos => exact key _ (keeps_bind hc (keeps_read hc _ _) fun _ => keeps_write fun s =>
      leavesDictionary_finish s _) h
  | firstLit8 v | firstLit16 v | loopLit8 v | loopLit16 v | loopIdx n => simp at hi

/-- Settles O36: the token's rule leaves the Encoder's side alone, and some leave the dictionary alone too. -/
theorem decoderTokenFrame : Obligations.DecoderTokenFrame := by
  intro s t i hp hi h
  obtain ⟨m, hm, hperform⟩ := decoderRule_of_exec hp hi h
  obtain ⟨⟨henc, hinput, hhost⟩, hbusy⟩ := hm.leavesEncoder hperform
  exact ⟨henc, hinput, hhost, hbusy, fun hquiet => hm.leavesDictionary hquiet hperform⟩

/-! The Encoder's tokens. -/

/-- An emission leaves the Decoder's side alone, whether or not it ends the job. -/
theorem leavesDecoder_of_perform {m : M Unit} (hm : Keeps LeavesDecoderSide m) (h : perform m s = .next t) :
    LeavesDecoder s t ∧ (t.busy = true → t.phase = s.phase ∧ t.err = s.err ∧ t.RESULT = s.RESULT) := by
  rcases perform_next.mp h with hok | ⟨e, u, herr, rfl⟩
  · obtain ⟨hleaves, hstatus⟩ := (hm s).1 () t hok
    exact ⟨hleaves, fun _ => hstatus⟩
  · obtain ⟨⟨hdec, hown, hhost⟩, -⟩ := (hm s).2 _ u herr
    exact ⟨⟨hdec, hown, hhost⟩, fun hb => by cases hb⟩

theorem emitLit_leavesDecoderSide (code v n W : Nat) (u : CodeUnit) :
    Keeps LeavesDecoderSide
      (do sinkWriteRev code W; sinkWriteRev v n; tick; clearPending u; tick : M Unit) :=
  keeps_emitLit leavesDecoderSide_composes (by intros; simp [LeavesDecoderSide, LeavesDecoder])
    (by intros; simp [LeavesDecoderSide, LeavesDecoder]) (by intros; simp [LeavesDecoderSide, LeavesDecoder])
    (by intros; simp [LeavesDecoderSide, LeavesDecoder]) code v n W u

theorem emitIdx_leavesDecoderSide (n W : Nat) : Keeps LeavesDecoderSide (emitIdx n W) :=
  keeps_emitIdx leavesDecoderSide_composes (by intros; simp [LeavesDecoderSide, LeavesDecoder])
    (by intros; simp [LeavesDecoderSide, LeavesDecoder]) (by intros; simp [LeavesDecoderSide, LeavesDecoder]) n W

/-- Nothing but the bit string, the phase and the status registers is written. -/
def LeavesAllButBits (s t : State) : Prop :=
  LeavesDecoder s t ∧ t.pending = s.pending ∧ t.indexBits = s.indexBits ∧ t.enlargeIn = s.enlargeIn

theorem leavesAllButBits_composes : Composes LeavesAllButBits where
  same _ := by simp [LeavesAllButBits, LeavesDecoder]
  trans h h' := by simp_all [LeavesAllButBits, LeavesDecoder]

theorem encEos_leavesAllButBits : Keeps LeavesAllButBits encEos := by
  have hc := leavesAllButBits_composes
  refine keeps_bind hc (keeps_read hc _ _) fun W => ?_
  refine keeps_bind hc (keeps_sinkWriteBits hc (fun s v => ?_) _ _) fun _ => ?_
  · simp [LeavesAllButBits, LeavesDecoder]
  · refine keeps_bind hc (keeps_bind hc (keeps_read hc _ _) fun _ => keeps_pure hc _) fun _ => keeps_write fun s => ?_
    simp [LeavesAllButBits, LeavesDecoder, State.finish]

theorem perform_encEos_leaves (h : perform encEos s = .next t) : LeavesAllButBits s t :=
  perform_keeps encEos_leavesAllButBits leavesAllButBits_composes
    (fun s e => by simp [LeavesAllButBits, LeavesDecoder, State.raise]) h

theorem encEos_not_busy (h : perform encEos s = .next t) : t.busy = false := by
  rcases perform_next.mp h with hok | ⟨e, u, -, rfl⟩
  · simp only [encEos, bind_ok, write_run] at hok
    obtain ⟨_, _, -, _, _, -, _, u, -, hend⟩ := hok
    cases hend
    rfl
  · rfl

/-- What every token an Encoder emits leaves alone. -/
theorem EncoderRule.leavesDecoder {i : Instr} {m : M Unit} (hm : EncoderRule s i m) (h : perform m s = .next t) :
    LeavesDecoder s t ∧ (t.busy = true → t.phase = s.phase ∧ t.err = s.err ∧ t.RESULT = s.RESULT) := by
  have hc := leavesDecoderSide_composes
  have emission : ∀ f : Nat → M Unit, (∀ W, Keeps LeavesDecoderSide (f W)) →
      Keeps LeavesDecoderSide (readIndexBits >>= f) := fun f hf => keeps_bind hc (keeps_read hc _ _) hf
  cases hm with
  | lit8 v =>
    exact leavesDecoder_of_perform (emission _ fun W => emitLit_leavesDecoderSide codeLit8 _ lit8Bits W _) h
  | lit16 v =>
    exact leavesDecoder_of_perform (emission _ fun W => emitLit_leavesDecoderSide codeLit16 _ lit16Bits W _) h
  | idx n => exact leavesDecoder_of_perform (emission _ fun W => emitIdx_leavesDecoderSide n W) h
  | eos => exact ⟨(perform_encEos_leaves h).1, fun hb => by simp [encEos_not_busy h] at hb⟩

theorem pending_composes : Composes fun s t => t.pending = s.pending := ⟨fun _ => rfl, fun h h' => h'.trans h⟩

theorem emitIdx_pending {n : Nat} (h : perform (readIndexBits >>= fun W => emitIdx n W) s = .next t) :
    t.pending = s.pending :=
  perform_keeps (R := fun s t => t.pending = s.pending)
    (keeps_bind pending_composes (keeps_read pending_composes _ _) fun W =>
      keeps_emitIdx pending_composes (fun _ _ => rfl) (fun _ _ => rfl) (fun _ _ => rfl) n W)
    pending_composes (fun _ _ => rfl) h

/-- Settles O37: an emission touches the bit string, the schedule and `pending`; an index leaves `pending` alone, and
EOS writes its bits only. -/
theorem encoderTokenFrame : Obligations.EncoderTokenFrame := by
  intro s t i hp hi h
  obtain ⟨m, hm, hperform⟩ := encoderRule_of_exec hp hi h
  obtain ⟨⟨hdec, hown, hhost⟩, hbusy⟩ := hm.leavesDecoder hperform
  refine ⟨hdec, hown, hhost, hbusy, ?_⟩
  cases hm with
  | lit8 v => simp
  | lit16 v => simp
  | idx n => exact ⟨fun _ => emitIdx_pending hperform, by simp⟩
  | eos =>
    obtain ⟨-, hpending, hschedule⟩ := perform_encEos_leaves hperform
    exact ⟨fun _ => hpending, fun _ => hschedule⟩

/-! The jobs. -/

/-- What DECODE leaves alone: the Encoder's registers, the bounds and the host's side. -/
def LeavesEncodeJob (s t : State) : Prop :=
  (t.encDict = s.encDict ∧ t.pending = s.pending ∧ t.U = s.U ∧ t.ipos = s.ipos ∧ t.obits = s.obits) ∧
    (t.bounds = s.bounds ∧ t.host = s.host ∧ t.seen = s.seen)

theorem leavesEncodeJob_composes : Composes LeavesEncodeJob where
  same _ := by simp [LeavesEncodeJob]
  trans h h' := by simp_all [LeavesEncodeJob]

theorem exec_decode_leavesEncodeJob {input : List Byte} (h : exec (.decode input) s = .next t) :
    LeavesEncodeJob s t := by
  have hc := leavesEncodeJob_composes
  have hb := not_busy_of_exec_decode h
  cases hfit : Bounds.allows s.bounds.maxInBytes input.length with
  | true =>
    rw [exec_decode_run hb hfit] at h
    have hload : LeavesEncodeJob s (decodeLoaded input (submitted .decode s)) := by
      simp [LeavesEncodeJob, decodeLoaded, submitted]
    have hinsert : ∀ e, Keeps LeavesEncodeJob (insertEntry e) := fun e =>
      keeps_insertEntry hc e (by intros; simp [LeavesEncodeJob]) (by intros; simp [LeavesEncodeJob])
        (by intros; simp [LeavesEncodeJob]) (by intros; simp [LeavesEncodeJob])
    have hboot : Keeps LeavesEncodeJob bootstrap :=
      keeps_bind hc (hinsert _) fun _ => keeps_bind hc (hinsert _) fun _ => hinsert _
    exact hc.trans hload (perform_keeps (keeps_bind hc hboot fun _ => keeps_write fun s => by
      simp [LeavesEncodeJob, decodeReady]) hc (fun s e => by simp [LeavesEncodeJob, State.raise]) h)
  | false =>
    cases h.symm.trans (exec_decode_raise hb hfit)
    simp [LeavesEncodeJob, State.raise, submitted]

/-- Settles O38: each job writes the status registers and its own direction's. -/
theorem jobFrame : Obligations.JobFrame := by
  refine fun s t => ⟨fun u h => ?_, fun b h => exec_decode_leavesEncodeJob h⟩
  have hb := not_busy_of_exec_encode h
  cases hfit : Bounds.allows s.bounds.maxInUnits u.length with
  | true =>
    cases h.symm.trans (exec_encode_run hb hfit)
    simp [encodeLoaded, submitted]
  | false =>
    cases h.symm.trans (exec_encode_raise hb hfit)
    simp [State.raise, submitted]

end Sys2Proof.Machine

/-! ### STATUS -/

namespace Sys2Proof.Machine

variable {s t : State}

/-- STATUS from its parts (R24). -/
def statusWord (dir : BitVec 1) (err : BitVec 3) (done busy : Bool) : BitVec 8 :=
  0#2 ++ dir ++ err ++ BitVec.ofBool done ++ BitVec.ofBool busy

theorem status_eq (s : State) : s.status = statusWord s.dir.bit s.err.code (s.phase == .done) s.phase.busy := rfl

/-- Each field of the word stands where R24 puts it: 64 words. -/
theorem statusWord_fields : ∀ (dir : BitVec 1) (err : BitVec 3) (done busy : Bool),
    (statusWord dir err done busy).getLsbD 0 = busy ∧ (statusWord dir err done busy).getLsbD 1 = done ∧
      (statusWord dir err done busy).extractLsb' 2 3 = err ∧
      (statusWord dir err done busy).getLsbD 5 = dir.getLsbD 0 ∧
      (statusWord dir err done busy).extractLsb' 6 2 = 0#2 := by
  decide

theorem direction_bit (d : Direction) : d.bit.getLsbD 0 = (d == .decode) := by cases d <;> rfl

/-- The values of STATUS that R24 lists. -/
def statusValues : List (BitVec 8) :=
  [0x00#8, 0x01#8, 0x21#8, 0x02#8, 0x22#8, 0x04#8, 0x08#8, 0x0C#8, 0x10#8, 0x24#8, 0x28#8, 0x2C#8, 0x30#8]

theorem status_of_running {d : Direction} (hrun : s.Running d) :
    s.status = statusWord d.bit ErrKind.noError.code (s.phase == .done) s.phase.busy := by
  rw [status_eq, hrun.dir, hrun.err]

/-- A state of the invariant shows one of the values. -/
theorem status_of_inv (h : s.Inv) : s.status ∈ statusValues := by
  unfold State.Inv at h
  cases hp : s.phase <;> simp only [hp] at h
  case idle => rw [status_of_running h, hp]; decide
  case encScan => rw [status_of_running h.1, hp]; decide
  case encFlush => rw [status_of_running h.1, hp]; decide
  case encEos => rw [status_of_running h.1, hp]; decide
  case decFirst => rw [status_of_running h.1, hp]; decide
  case decLoop => rw [status_of_running h.1, hp]; decide
  case done =>
    rw [status_eq, hp, h.1]
    cases s.dir <;> decide
  case fail =>
    rw [status_eq, hp]
    cases he : s.err with
    | noError => exact absurd he h.1
    | endOfStream | truncatedStream | corruptStream | capacityExceeded => cases s.dir <;> decide

/-- Settles O44: the fields of the word, and its values phase by phase. -/
theorem statusIsWhatR24Says : Obligations.StatusIsWhatR24Says := by
  refine ⟨fun s => ?_, fun s h => status_of_inv h⟩
  rw [status_eq, ← direction_bit]
  exact statusWord_fields _ _ _ _

end Sys2Proof.Machine

/-! ### What grows and what stays in a running job -/

namespace Sys2Proof.Machine

variable {s t : State}

/-- A sequence register is only appended to. -/
def Extends {α : Type} (a b : Option (List α)) : Prop := ∀ l, a = some l → ∃ x, b = some (l ++ x)

/-- A counter does not go down. -/
def Rises (a b : Option Nat) : Prop := ∀ n, a = some n → ∃ m, b = some m ∧ n ≤ m

theorem Extends.refl {α : Type} (a : Option (List α)) : Extends a a := fun l h => ⟨[], by simp [h]⟩

theorem Extends.trans {α : Type} {a b c : Option (List α)} (h : Extends a b) (h' : Extends b c) : Extends a c := by
  intro l hl
  obtain ⟨x, hx⟩ := h l hl
  obtain ⟨y, hy⟩ := h' _ hx
  exact ⟨x ++ y, by rw [hy, List.append_assoc]⟩

theorem Extends.append {α : Type} {a : Option (List α)} {l : List α} (ha : a = some l) (x : List α) :
    Extends a (some (l ++ x)) := by
  rintro _ h
  cases ha.symm.trans h
  exact ⟨x, rfl⟩

theorem Rises.refl (a : Option Nat) : Rises a a := fun n h => ⟨n, h, le_rfl⟩

theorem Rises.trans {a b c : Option Nat} (h : Rises a b) (h' : Rises b c) : Rises a c := by
  intro n hn
  obtain ⟨m, hm, hle⟩ := h n hn
  obtain ⟨k, hk, hle'⟩ := h' m hm
  exact ⟨k, hk, hle.trans hle'⟩

theorem Rises.of_le {a : Option Nat} {n m : Nat} (ha : a = some n) (hle : n ≤ m) : Rises a (some m) := by
  rintro _ h
  cases ha.symm.trans h
  exact ⟨m, rfl, hle⟩

/-- The registers that only grow during a job (R25, R29, R34 to R36, R167, R168). -/
structure Grows (s t : State) : Prop where
  encDict : Extends s.encDict t.encDict
  decDict : Extends s.decDict t.decDict
  count : Rises s.count t.count
  indexBits : Rises s.indexBits t.indexBits
  bpos : Rises s.bpos t.bpos
  obits : Extends s.obits t.obits
  out : Extends s.out t.out

theorem Grows.refl (s : State) : Grows s s := ⟨.refl _, .refl _, .refl _, .refl _, .refl _, .refl _, .refl _⟩

theorem Grows.trans {u : State} (h : Grows s t) (h' : Grows t u) : Grows s u :=
  ⟨h.encDict.trans h'.encDict, h.decDict.trans h'.decDict, h.count.trans h'.count, h.indexBits.trans h'.indexBits,
    h.bpos.trans h'.bpos, h.obits.trans h'.obits, h.out.trans h'.out⟩

theorem le_scheduleTick_indexBits (w e : Nat) : w ≤ (scheduleTick ⟨w, e⟩).indexBits := by
  unfold scheduleTick
  split
  · exact Nat.le_succ _
  · exact le_rfl

/-- Each piece of a rule appends or counts up. -/
theorem grows_footprint : StepFootprint Grows where
  comp := ⟨Grows.refl, Grows.trans⟩
  tick s _ _ hw _ _ _ := { Grows.refl s with indexBits := .of_le hw (le_scheduleTick_indexBits _ _) }
  obits s _ _ _ hb _ := { Grows.refl s with obits := .append hb _ }
  pending s _ := { Grows.refl s with }
  word s _ _ := { Grows.refl s with }
  assign s _ _ _ hd hn _ := { Grows.refl s with
    encDict := .append hd _
    count := .of_le hn (Nat.le_succ _) }
  insert s _ _ _ hd hn _ := { Grows.refl s with
    decDict := .append hd _
    count := .of_le hn (Nat.le_succ _) }
  out s _ _ ho _ := { Grows.refl s with out := .append ho _ }
  raise s _ := { Grows.refl s with }
  phase s _ := { Grows.refl s with }
  finish s _ _ := { Grows.refl s with }
  bpos s _ _ _ hp _ hle _ := { Grows.refl s with bpos := .of_le hp hle }
  ipos s _ _ _ _ _ := { Grows.refl s with }

/-- Only ENC_UNIT moves the Encoder's cursor, and by one (R33). -/
theorem BusyStep.ipos (h : BusyStep s t) : t.ipos = s.ipos ∨ ∃ i, s.ipos = some i ∧ t.ipos = some (i + 1) := by
  have F := encUnit_statusFootprint
  have unit := fun c => keepsAt_bind F.comp (F.firstSightAt c s) fun _ _ _ => F.extendAt c _
  cases h with
  | encUnitOk u i c m _ _ hi => exact .inr ⟨i, hi, by split <;> rfl⟩
  | encUnitErr u i c m e _ _ _ _ hm => exact .inl ((unit c).2 _ m hm).1
  | flushNone => exact .inl rfl
  | flushOk w m _ _ _ hm => exact .inl ((F.emitAt w s).1 _ m hm).1
  | flushErr w m e _ _ _ hm => exact .inl ((F.emitAt w s).2 _ m hm).1
  | eosOk w m b _ _ hm => exact .inl ((F.sinkAt _ _ s).1 _ m hm).1
  | eosErr w m e _ _ hm => exact .inl ((F.sinkAt _ _ s).2 _ m hm).1
  | readErr => exact .inl rfl
  | token w p q inp i t hp _ _ _ hd hx =>
    obtain ⟨m, hm, hperform⟩ := decoderRule_of_exec (s := s.setBpos q) hp (decodeToken_le hd).2 hx
    obtain ⟨⟨⟨-, -, -, hipos, -⟩, -, -⟩, -⟩ := hm.leavesEncoder hperform
    exact .inl hipos

/-- A step of a running job is one of its rules, or the host's read of STATUS; at most one host move goes. -/
theorem busy_step_rule (hb : s.busy = true) (h : step s = .next t) :
    BusyStep (s.setHost s.host.tail) t ∨ ∃ x, t = (s.setHost s.host.tail).setSeen x := by
  rcases busy_step_cases hb h with ⟨hh, hrule⟩ | ⟨r, hh, hrule⟩ | ⟨r, hh, rfl⟩
  · have same : s.setHost s.host.tail = s := by rw [hh, List.tail_nil, ← hh]; rfl
    exact .inl (same.symm ▸ hrule)
  · exact .inl (by rw [hh]; exact hrule)
  · exact .inr ⟨_, by rw [hh]; rfl⟩

/-- A relation with a step's footprint holds across a step of a running job, once the host's move is gone. -/
theorem busy_step_keeps {R : State → State → Prop} (F : StepFootprint R) (hseen : ∀ s x, R s (s.setSeen x))
    (hb : s.busy = true) (h : step s = .next t) : R (s.setHost s.host.tail) t := by
  rcases busy_step_rule hb h with hrule | ⟨x, rfl⟩
  · exact hrule.keeps F
  · exact hseen _ x

/-- Settles O45: each piece of a rule appends or counts up, and ENC_UNIT alone moves `ipos`. -/
theorem jobRegistersOnlyGrow : Obligations.JobRegistersOnlyGrow := by
  intro s t hb h
  have hgrows := busy_step_keeps grows_footprint (fun s _ => { Grows.refl s with }) hb h
  have hipos : t.ipos = s.ipos ∨ ∃ i, s.ipos = some i ∧ t.ipos = some (i + 1) := by
    rcases busy_step_rule hb h with hrule | ⟨x, rfl⟩
    · exact hrule.ipos
    · exact .inl rfl
  refine ⟨hgrows.encDict, hgrows.decDict, hgrows.count, hgrows.indexBits, ?_, hgrows.bpos, hgrows.obits, hgrows.out⟩
  intro i hi
  rcases hipos with hsame | ⟨j, hj, hmoved⟩
  · exact ⟨i, hsame.trans hi, le_rfl, Nat.le_succ i⟩
  · cases hj.symm.trans hi
    exact ⟨i + 1, hmoved, Nat.le_succ i, le_rfl⟩

/-- The input, the direction, the bounds and the host's coming moves are as before. -/
def KeepsInput (s t : State) : Prop :=
  t.U = s.U ∧ t.IN = s.IN ∧ t.dir = s.dir ∧ t.bounds = s.bounds ∧ t.host = s.host

theorem KeepsInput.refl (s : State) : KeepsInput s s := ⟨rfl, rfl, rfl, rfl, rfl⟩

/-- No piece of a rule writes them. -/
theorem keepsInput_footprint : StepFootprint KeepsInput where
  comp := ⟨.refl, fun ⟨a, b, c, d, e⟩ ⟨a', b', c', d', e'⟩ =>
    ⟨a'.trans a, b'.trans b, c'.trans c, d'.trans d, e'.trans e⟩⟩
  tick s _ _ _ _ _ _ := .refl s
  obits s _ _ _ _ _ := .refl s
  pending s _ := .refl s
  word s _ _ := .refl s
  assign s _ _ _ _ _ _ := .refl s
  insert s _ _ _ _ _ _ := .refl s
  out s _ _ _ _ := .refl s
  raise s _ := .refl s
  phase s _ := .refl s
  finish s _ _ := .refl s
  bpos s _ _ _ _ _ _ _ := .refl s
  ipos s _ _ _ _ _ := .refl s

/-- Settles O46: no piece of a rule writes the input, and a step makes at most the host's next move. -/
theorem inputIsNeverWritten : Obligations.InputIsNeverWritten := fun _ _ hb h =>
  busy_step_keeps keepsInput_footprint (fun s _ => .refl s) hb h

end Sys2Proof.Machine

/-! ### Finite widths -/

namespace Sys2Proof.Machine

/-- The width is the least that holds 0 to `m`. -/
theorem lt_two_pow_iff_bitsToHold_le {m k : Nat} : m < 2 ^ k ↔ bitsToHold m ≤ k := by
  unfold bitsToHold
  split
  case isTrue h0 => simp [h0]
  case isFalse h0 => rw [← Nat.log2_lt h0, Nat.succ_le_iff]

/-- A width is the width of a bound exactly when it is the least for it. -/
theorem map_bitsToHold_eq_some {b : Option Nat} {f : Nat → Nat} {w : Nat} :
    b.map (fun m => bitsToHold (f m)) = some w ↔ ∃ m, b = some m ∧ ∀ k, f m < 2 ^ k ↔ w ≤ k := by
  simp only [Option.map_eq_some_iff, lt_two_pow_iff_bitsToHold_le]
  refine exists_congr fun m => and_congr_right fun _ => ⟨by rintro rfl; simp, fun h => ?_⟩
  exact le_antisymm ((h w).mpr le_rfl) ((h _).mp le_rfl)

/-- What a bound allows fits the bound's width. -/
theorem lt_two_pow_of_within {b : Option Nat} {f : Nat → Nat} {r : Option Nat} (h : withinBound id (b.map f) r)
    {w v : Nat} (hw : b.map (fun m => bitsToHold (f m)) = some w) (hv : r = some v) : v < 2 ^ w := by
  obtain ⟨m, hm, hleast⟩ := map_bitsToHold_eq_some.mp hw
  have hle : v ≤ f m := by simpa [hm, Bounds.allows] using h v hv
  exact hle.trans_lt ((hleast w).mpr le_rfl)

/-- `enlargeIn` is at most 2^(MAX_INDEX_BITS-1), and D5 asks for MAX_INDEX_BITS of at least 3. -/
theorem enlargeIn_lt_two_pow {s : State} (hlegal : s.bounds.legal = true) (h : s.WithinBounds) {w v : Nat}
    (hw : enlargeInWidth s.bounds = some w) (hv : s.enlargeIn = some v) : v < 2 ^ w := by
  have hmax : s.bounds.maxIndexBits = some w := hw
  have hthree : 3 ≤ w := by simpa [hmax, Bounds.allows] using allows_maxIndexBits_of_legal hlegal
  have hle : v ≤ 2 ^ (w - 1) := by simpa [hmax, Bounds.allows] using h.enlargeIn v hv
  exact hle.trans_lt (Nat.pow_lt_pow_right (by omega) (by omega))

/-- Settles O54: each width is the least for its bound, and `enlargeIn` stays below 2^MAX_INDEX_BITS. -/
theorem finiteWidthsSuffice : Obligations.FiniteWidthsSuffice := by
  have plain : ∀ {b r : Option Nat}, withinBound id b r → withinBound id (b.map id) r := by simp
  refine ⟨fun s hlegal h => ⟨?_, ?_, ?_, ?_, ?_⟩, fun b w => ⟨?_, ?_, ?_, ?_, ?_⟩⟩
  · exact fun w v => lt_two_pow_of_within (f := id) (plain h.indexBits)
  · exact fun w v => enlargeIn_lt_two_pow hlegal h
  · exact fun w v => lt_two_pow_of_within (f := id) (plain h.count)
  · exact fun w v => lt_two_pow_of_within (f := id) (plain h.ipos)
  · exact fun w v => lt_two_pow_of_within (f := fun m => 8 * m) h.bpos
  · exact map_bitsToHold_eq_some (f := id)
  · exact Iff.rfl
  · exact map_bitsToHold_eq_some (f := id)
  · exact map_bitsToHold_eq_some (f := id)
  · exact map_bitsToHold_eq_some (f := fun m => 8 * m)

end Sys2Proof.Machine

/-! ### The named stops -/

namespace Sys2Proof.Machine

variable {s t : State}

/-- A job while BUSY = 1 has no move (R309). -/
theorem exec_encode_of_busy (hb : s.busy = true) (input : List CodeUnit) :
    exec (.encode input) s = .refused .submitWhileBusy := if_pos hb

theorem exec_decode_of_busy (hb : s.busy = true) (input : List Byte) :
    exec (.decode input) s = .refused .submitWhileBusy := if_pos hb

/-- Outside the Decoder's phases and the two that emit, no rule runs a literal or an index (log 11). -/
theorem exec_refused_at {i : Instr} (hp : s.busy = false ∨ s.phase = .encEos)
    (hi : (∃ v, i = .lit8 v) ∨ (∃ v, i = .lit16 v) ∨ ∃ n, i = .idx n ∧ 3 ≤ n) :
    exec i s = .refused (.noTokenAt s.phase) := by
  have hphase : s.phase = .idle ∨ s.phase = .encEos ∨ s.phase = .done ∨ s.phase = .fail := by
    rcases hp with hb | hp
    · unfold State.busy Phase.busy at hb
      cases h : s.phase <;> simp [h] at hb <;> simp
    · exact .inr (.inl hp)
  rcases hi with ⟨v, rfl⟩ | ⟨v, rfl⟩ | ⟨n, rfl, hn⟩
  · rcases hphase with hp | hp | hp | hp <;> simp [exec, execLit8, hp]
  · rcases hphase with hp | hp | hp | hp <;> simp [exec, execLit16, hp]
  · rcases hphase with hp | hp | hp | hp <;> simp [exec, execIdx, not_lt_controlCodes hn, hp]

/-- Where no rule runs EOS. -/
theorem exec_eos_refused (hp : s.busy = false ∨ s.phase = .encScan ∨ s.phase = .encFlush) :
    exec .eos s = .refused (.noTokenAt s.phase) := by
  unfold State.busy Phase.busy at hp
  cases h : s.phase <;> simp [h] at hp <;> simp [exec, execEos, h]

/-- Only the Decoder's first token can be illegal. -/
theorem exec_illegalFirst_refused (hp : s.phase ≠ .decFirst) :
    exec .illegalFirst s = .refused (.noTokenAt s.phase) := by
  cases h : s.phase <;> simp [h] at hp <;> simp [exec, execIllegalFirst, h]

/-- A rule performed never refuses, so a refusal is a job's, an index's or the phase's. -/
theorem refusal_of_exec {i : Instr} {r : Refusal} (h : exec i s = .refused r) :
    r = .submitWhileBusy ∨ r = .noTokenAt s.phase ∨ ∃ n, i = .idx n ∧ n < 3 ∧ r = .controlCodeAsIndex n := by
  have never : ∀ m : M Unit, perform m s ≠ .refused r := fun m => perform_ne_refused
  cases i with
  | encode u =>
    cases hb : s.busy with
    | true => cases h.symm.trans (exec_encode_of_busy hb u); exact .inl rfl
    | false => rw [exec_encode_of_not_busy hb] at h; exact absurd h perform_ne_refused
  | decode b =>
    cases hb : s.busy with
    | true => cases h.symm.trans (exec_decode_of_busy hb b); exact .inl rfl
    | false => rw [exec_decode_of_not_busy hb] at h; exact absurd h perform_ne_refused
  | idx n =>
    by_cases hn : n < 3
    · rw [exec_idx_of_lt hn] at h
      cases h
      exact .inr (.inr ⟨n, rfl, hn, rfl⟩)
    · have hn := not_lt_controlCodes (Nat.not_lt.mp hn)
      cases hp : s.phase <;> simp [exec, execIdx, hn, hp, never] at h <;> exact .inr (.inl h.symm)
  | lit8 v => cases hp : s.phase <;> simp [exec, execLit8, hp, never] at h <;> exact .inr (.inl h.symm)
  | lit16 v => cases hp : s.phase <;> simp [exec, execLit16, hp, never] at h <;> exact .inr (.inl h.symm)
  | eos => cases hp : s.phase <;> simp [exec, execEos, hp, never] at h <;> exact .inr (.inl h.symm)
  | illegalFirst =>
    cases hp : s.phase <;> simp [exec, execIllegalFirst, hp, never] at h <;> exact .inr (.inl h.symm)

/-- Settles O21: each refusal where it is made, and none other. -/
theorem stopsAreNamed : Obligations.StopsAreNamed := by
  intro s
  refine ⟨fun hb => ⟨exec_encode_of_busy hb, exec_decode_of_busy hb⟩, ?_, fun hp => ⟨?_, ?_, ?_⟩, exec_eos_refused,
    exec_illegalFirst_refused, fun n hn => exec_idx_of_lt hn, ?_, fun i r => refusal_of_exec⟩
  · intro d rest hh hd
    simp only [step, hh, submitStep, hd]
  · exact fun v => exec_refused_at hp (.inl ⟨v, rfl⟩)
  · exact fun v => exec_refused_at hp (.inr (.inl ⟨v, rfl⟩))
  · exact fun n hn => exec_refused_at hp (.inr (.inr ⟨n, rfl, hn⟩))
  · intro n hn hp
    rw [(DecoderRule.firstIdx n hn).exec_eq hp, DecoderRule.illegalFirst.exec_eq hp]

end Sys2Proof.Machine

/-! ### Registers with no value -/

namespace Sys2Proof.Machine

variable {s t : State}

/-- A rule whose first operation faults is the fault. -/
theorem perform_fault {m : M Unit} {f : Fault} (h : m s = .error (.fault f) t) : perform m s = .fault f := by
  simp only [perform, h]

theorem tokenStep_fault {f : Fault} (h : fetchToken s = .error (.fault f) t) : tokenStep s = .fault f := by
  simp only [tokenStep, h]

/-- With no move of the host, the step is the core's own. -/
theorem step_eq_coreStep (hh : s.host = []) : step s = coreStep s := by simp only [step, hh]

theorem step_decoder (hh : s.host = []) (hp : s.phase = .decFirst ∨ s.phase = .decLoop) : step s = tokenStep s := by
  rw [step_eq_coreStep hh]
  rcases hp with hp | hp <;> simp only [coreStep, hp]

theorem step_encScan (hh : s.host = []) (hp : s.phase = .encScan) : step s = perform encUnit s := by
  rw [step_eq_coreStep hh]
  simp only [coreStep, hp]

theorem step_encFlush (hh : s.host = []) (hp : s.phase = .encFlush) : step s = perform encFlush s := by
  rw [step_eq_coreStep hh]
  simp only [coreStep, hp]

theorem step_encEos (hh : s.host = []) (hp : s.phase = .encEos) : step s = perform encEos s := by
  rw [step_eq_coreStep hh, coreStep, hp]
  exact (EncoderRule.eos hp).exec_eq

/-- The fetch reads the width, the input and the cursor in this order (R231, R236). -/
theorem fetch_faults (hh : s.host = []) (hp : s.phase = .decFirst ∨ s.phase = .decLoop) :
    (s.indexBits = none → step s = .fault (.noValue .indexBits)) ∧
    (s.indexBits ≠ none → s.IN = none → step s = .fault (.noValue .IN)) ∧
    (s.indexBits ≠ none → s.IN ≠ none → s.bpos = none → step s = .fault (.noValue .bpos)) := by
  rw [step_decoder hh hp]
  refine ⟨fun hw => ?_, fun hw hi => ?_, fun hw hi hb => ?_⟩
  · exact tokenStep_fault (t := s) (by simp [fetchToken, hw])
  · obtain ⟨w, hw⟩ := Option.ne_none_iff_exists'.mp hw
    exact tokenStep_fault (t := s) (by simp [fetchToken, hw, hi])
  · obtain ⟨w, hw⟩ := Option.ne_none_iff_exists'.mp hw
    obtain ⟨inp, hi⟩ := Option.ne_none_iff_exists'.mp hi
    exact tokenStep_fault (t := s) (by simp [fetchToken, hw, hi, hb])

/-- ENC_UNIT reads the input, its cursor and the dictionary in this order (R191). -/
theorem encUnit_faults (hh : s.host = []) (hp : s.phase = .encScan) :
    (s.U = none → step s = .fault (.noValue .U)) ∧
    (s.U ≠ none → s.ipos = none → step s = .fault (.noValue .ipos)) ∧
    (∀ u i, s.U = some u → s.ipos = some i → i < u.length → s.encDict = none →
      step s = .fault (.noValue .encDict)) := by
  rw [step_encScan hh hp]
  refine ⟨fun hu => ?_, fun hu hi => ?_, fun u i hu hi hlt hd => ?_⟩
  · exact perform_fault (t := s) (by simp [encUnit, hu])
  · obtain ⟨u, hu⟩ := Option.ne_none_iff_exists'.mp hu
    exact perform_fault (t := s) (by simp [encUnit, hu, hi])
  · exact perform_fault (t := s) (by simp [encUnit, firstSight, hu, hi, hlt, hd])

/-- ENC_FLUSH reads the word, and its emission `pending` (R192, R196). -/
theorem encFlush_faults (hh : s.host = []) (hp : s.phase = .encFlush) :
    (s.word = none → step s = .fault (.noValue .word)) ∧
    (∀ a l, s.word = some (a :: l) → s.indexBits ≠ none → s.pending = none →
      step s = .fault (.noValue .pending)) := by
  rw [step_encFlush hh hp]
  refine ⟨fun hw => ?_, fun a l hword hw hpend => ?_⟩
  · exact perform_fault (t := s) (by simp [encFlush, hw])
  · obtain ⟨w, hw⟩ := Option.ne_none_iff_exists'.mp hw
    exact perform_fault (t := s) (by simp [encFlush, emit, hword, hw, hpend])

/-- ENC_EOS reads the width and the bit string (R197). -/
theorem encEos_faults (hh : s.host = []) (hp : s.phase = .encEos) :
    (s.indexBits = none → step s = .fault (.noValue .indexBits)) ∧
    (∀ w, s.indexBits = some w → w ≠ 0 → s.obits = none → step s = .fault (.noValue .obits)) := by
  rw [step_encEos hh hp]
  refine ⟨fun hw => ?_, fun w hw h0 hb => ?_⟩
  · exact perform_fault (t := s) (by simp [encEos, hw])
  · exact perform_fault (t := s) (by simp [encEos, sinkWriteRev, sinkWriteBits, hw, h0, hb])

/-- An index's emission ticks after its field (R195). -/
theorem emitIdx_fault {n w : Nat} {bits : List Bool} (hp : s.phase = .encScan ∨ s.phase = .encFlush) (hn : 3 ≤ n)
    (hw : s.indexBits = some w) (hb : s.obits = some bits)
    (hfit : Bounds.allows s.bounds.maxOutBytes ((bits.length + w + 7) / 8) = true) (he : s.enlargeIn = none) :
    exec (.idx n) s = .fault (.noValue .enlargeIn) := by
  rw [(EncoderRule.idx n hn hp).exec_eq]
  refine perform_fault (t := s.setObits (bits ++ lsbFirst w n)) ?_
  simp [emitIdx, hw, sinkWriteRev_run (v := n) hb hfit, tick, he]

/-- RESOLVE reads the count, and then the dictionary or the word; LOOP_EOS reads the output (R239, R241). -/
theorem loop_faults {n : Nat} (hp : s.phase = .decLoop) (hn : 3 ≤ n) :
    (s.count = none → exec (.idx n) s = .fault (.noValue .count)) ∧
    (∀ k, s.count = some k → n < k → s.decDict = none → exec (.idx n) s = .fault (.noValue .decDict)) ∧
    (s.count = some n → s.word = none → exec (.idx n) s = .fault (.noValue .word)) ∧
    (s.out = none → exec .eos s = .fault (.noValue .out)) := by
  rw [(DecoderRule.loopIdx n hn).exec_eq hp, DecoderRule.loopEos.exec_eq hp]
  refine ⟨fun hk => ?_, fun k hk hlt hd => ?_, fun hk hw => ?_, fun ho => ?_⟩
  · exact perform_fault (t := s) (by simp [loopIdx, resolve, hk])
  · exact perform_fault (t := s) (by simp [loopIdx, resolve, hk, hlt, hd])
  · exact perform_fault (t := s) (by simp [loopIdx, resolve, hk, hw])
  · exact perform_fault (t := s) (by simp [loopEos, ho])

/-- READ_RESULT of a core that is DONE with no RESULT (log 5). -/
theorem readResult_fault {rest : List HostMove} (hh : s.host = .readResult :: rest) (hp : s.phase = .done)
    (hr : s.RESULT = none) : step s = .fault (.noValue .RESULT) := by
  simp [step, hh, readResultMove, nextMove, State.isDone, hp, hr]

/-- Settles O43: every read goes through `held`, and each rule stops at its first read of a register without a
value. -/
theorem unheldRegistersFault : Obligations.UnheldRegistersFault := by
  refine ⟨fun s => ?_, fun s => fetch_faults, fun s => encUnit_faults, fun s => encFlush_faults,
    fun s => encEos_faults, fun s n w bits => emitIdx_fault, fun s n => loop_faults, fun s rest => readResult_fault⟩
  refine ⟨?_, ?_, ?_, ?_, ?_, ?_, ?_, ?_, ?_, ?_, ?_, ?_, ?_⟩ <;> intro h <;> simp [h]

end Sys2Proof.Machine

/-! ### Bits in a packed string -/

namespace Sys2Proof

/-- The input's wire bits from position `p` on are the string's, as far as the input reaches. -/
def Carries (inp : List Byte) (p : Nat) (bits : List Bool) : Prop :=
  ∀ k < bits.length, p + k < 8 * inp.length → inBit inp (p + k) = bitAt bits k

theorem bitAt_append_left {a b : List Bool} {k : Nat} (h : k < a.length) : bitAt (a ++ b) k = bitAt a k := by
  simp [bitAt, List.getElem?_append_left h]

theorem bitAt_append_right (a b : List Bool) (k : Nat) : bitAt (a ++ b) (a.length + k) = bitAt b k := by
  simp [bitAt, List.getElem?_append_right]

/-- The parts of a string stand one after the other. -/
theorem carries_append {inp : List Byte} {p : Nat} {a b : List Bool} :
    Carries inp p (a ++ b) ↔ Carries inp p a ∧ Carries inp (p + a.length) b := by
  refine ⟨fun h => ⟨fun k hk hin => ?_, fun k hk hin => ?_⟩, fun ⟨ha, hb⟩ k hk hin => ?_⟩
  · rw [h k (by simp; omega) hin, bitAt_append_left hk]
  · have := h (a.length + k) (by simp; omega) (by omega)
    rwa [← Nat.add_assoc, bitAt_append_right] at this
  · rcases Nat.lt_or_ge k a.length with hka | hka
    · rw [ha k hka hin, bitAt_append_left hka]
    · obtain ⟨j, rfl⟩ := Nat.exists_eq_add_of_le hka
      rw [bitAt_append_right, ← hb j (by simp at hk; omega) (by omega), Nat.add_assoc]

/-- A packed string carries its bits. -/
theorem carries_pack (bits : List Bool) : Carries (pack bits) 0 bits := fun k _ hin => by
  rw [Nat.zero_add] at *; exact inBit_pack bits hin

/-- Bytes cut off the end leave the others' bits. -/
theorem Carries.take {inp : List Byte} {p : Nat} {bits : List Bool} (h : Carries inp p bits) (j : Nat) :
    Carries (inp.take j) p bits := by
  intro k hk hin
  have hlen : (p + k) / 8 < j ∧ (p + k) / 8 < inp.length := by simp at hin; omega
  rw [← h k hk (by simp at hin; omega)]
  simp [inBit, memRead, hlen.1]

/-- Settles O4: the byte that holds wire bit `k` is `packByte` of it, whose bits `getLsbD_packByte` tells. -/
theorem packLaysBitsMsbFirst : Obligations.PackLaysBitsMsbFirst := by
  refine fun bits => ⟨length_pack bits, fun k hk => ?_⟩
  have hbit : inBit (pack bits) k = bitAt bits k := inBit_pack bits hk
  change inBit (pack bits) k = _
  rw [hbit, bitAt]
  split
  case isTrue h => simp [h]
  case isFalse h => simp [h]

/-! ### Reading a field back -/

variable {inp : List Byte} {p n x : Nat}

/-- A field in wire order that lies in the input reads as its value's low bits (R147). -/
theorem srcReadRev_of_carries (h : Carries inp p (lsbFirst n x)) (hin : p + n ≤ 8 * inp.length) :
    srcReadRev inp p n = .ok (x % 2 ^ n, p + n) := by
  refine srcReadRev_of_bits (Nat.mod_lt _ (Nat.two_pow_pos n)) (fun i hi => ?_) hin
  rw [h i (by simpa using hi) (by omega), bitAt, List.getD, getElem?_lsbFirst x hi]
  simp [hi]

/-- A field that reaches past the end of the input does not read (R143, R144). -/
theorem srcReadRev_past_end (hn : n ≠ 0) (hout : 8 * inp.length < p + n) : ∃ e, srcReadRev inp p n = .error e := by
  cases hr : srcReadRev inp p n with
  | error e => exact ⟨e, rfl⟩
  | ok r =>
    obtain ⟨v, q⟩ := r
    obtain ⟨rfl, -, -, hend⟩ := srcReadRev_inv hr
    omega

/-- Settles O7: the packed string carries the field at its place, and a field that lies in the input reads back. -/
theorem reversedReadInvertsWrite : Obligations.ReversedReadInvertsWrite := by
  intro before after value n
  rw [← lsbFirst_eq_map]
  have hcarries := carries_pack (before ++ lsbFirst n value ++ after)
  have hfield := (carries_append.mp (carries_append.mp hcarries).1).2
  rw [Nat.zero_add] at hfield
  exact srcReadRev_of_carries hfield (by simp; omega)

end Sys2Proof

namespace Sys2Proof.Machine

variable {s t : State}

/-! ### The host's moves -/

/-- Settles O41: each clause is the branch of `step` for its move. -/
theorem hostMovesAreMade : Obligations.HostMovesAreMade := by
  intro s rest
  refine ⟨fun d i hh hd => ?_, fun hh => ?_, fun r hh hp hr => ?_, fun hh hp => ?_⟩
  · simp only [step, hh, submitStep, hd]
    rfl
  · simp only [step, hh]
    rfl
  · have hdone : (nextMove rest s).isDone = true := by simp [nextMove, State.isDone, hp]
    have hresult : (nextMove rest s).RESULT = some r := hr
    simp only [step, hh, readResultMove, hdone, hresult, if_true]
    rfl
  · have hdone : (nextMove rest s).isDone = false := by simpa [nextMove, State.isDone] using hp
    simp [step, hh, readResultMove, hdone]

/-! ### ENC_EOS -/

theorem status_finish (r : Result) (s : State) :
    (s.finish r).status = statusWord s.dir.bit s.err.code true false := by
  simp [status_eq, State.finish, Phase.busy]

theorem status_raise (e : JobError) (s : State) :
    (s.raise e).status = statusWord s.dir.bit e.kind.code false false := by
  simp [status_eq, State.raise, Phase.busy, show (Phase.fail == Phase.done) = false from rfl]

/-- ENC_EOS, run to its end. -/
theorem encEos_run {w : Nat} {bits : List Bool} (hw : s.indexBits = some w) (hb : s.obits = some bits)
    (hfit : w = 0 ∨ Bounds.allows s.bounds.maxOutBytes ((bits.length + w + 7) / 8) = true) :
    encEos s
      = .ok () ((s.setObits (bits ++ lsbFirst w codeEos)).finish (.bytes (pack (bits ++ lsbFirst w codeEos)))) := by
  have hwrite : sinkWriteRev codeEos w s = .ok () (s.setObits (bits ++ lsbFirst w codeEos)) := by
    rcases hfit with rfl | hfit
    · have hsame : s.setObits bits = s := by cases s; simp_all [State.setObits]
      simpa [sinkWriteRev, lsbFirst, hsame] using sinkWriteBits_zero _
    · exact sinkWriteRev_run hb hfit
  simp [encEos, hw, hwrite, sinkFinish]

/-- ENC_EOS past MAX_OUT_BYTES. -/
theorem encEos_raise {w : Nat} {bits : List Bool} (hw : s.indexBits = some w) (hb : s.obits = some bits)
    (h0 : w ≠ 0) (hfit : Bounds.allows s.bounds.maxOutBytes ((bits.length + w + 7) / 8) = false) :
    encEos s = .error (.job (.capacityExceeded (bits.length + w))) s := by
  have hwrite : sinkWriteRev codeEos w s = .error (.job (.capacityExceeded (bits.length + w))) s :=
    sinkWriteBits_raise hb h0 hfit
  simp [encEos, hw, hwrite]

/-- Settles O31: ENC_EOS runs to its end or stops at its one capacity check. -/
theorem encoderEmitsEos : Obligations.EncoderEmitsEos := by
  intro s w bits ok hp hdir herr hw hb hok
  rw [(EncoderRule.eos hp).exec_eq, ← lsbFirst_eq_map]
  cases ok with
  | true =>
    refine ⟨_, perform_of_ok (encEos_run hw hb (by simpa using hok.symm)), fun _ => ⟨?_, rfl⟩, by simp⟩
    rw [status_finish, State.setObits_dir, State.setObits_err, hdir, herr]
    rfl
  | false =>
    obtain ⟨h0, hfit⟩ : w ≠ 0 ∧ Bounds.allows s.bounds.maxOutBytes ((bits.length + w + 7) / 8) = false := by
      simpa using hok.symm
    refine ⟨_, perform_of_job (encEos_raise hw hb h0 hfit), by simp, fun _ => ⟨?_, rfl⟩⟩
    rw [status_raise, hdir, JobError.kind]
    rfl

/-! ### Instances -/

theorem platformStep_next {p q : Platform} {i : Nat} :
    platformStep p i = some (.next q) ↔ ∃ s t, p[i]? = some s ∧ step s = .next t ∧ q = p.set i t := by
  unfold platformStep
  cases hs : p[i]? with
  | none => simp
  | some s => cases ht : step s <;> simp [ht, eq_comm]

/-- Settles O60: a step of one core writes its own place of the list, and two places are written in either order. -/
theorem instancesAreIndependent : Obligations.InstancesAreIndependent := by
  intro p q q' i j hij hi hj
  obtain ⟨s, t, hs, hst, rfl⟩ := platformStep_next.mp hi
  obtain ⟨s', t', hs', hst', rfl⟩ := platformStep_next.mp hj
  refine ⟨List.getElem?_set_ne hij, List.length_set, (p.set i t).set j t', ?_, ?_⟩
  · exact platformStep_next.mpr ⟨s', t', (List.getElem?_set_ne hij).trans hs', hst', rfl⟩
  · exact platformStep_next.mpr ⟨s, t, (List.getElem?_set_ne hij.symm).trans hs, hst, List.set_comm _ _ hij⟩

/-! ### How a running job goes on or ends -/

/-- A running job with no RESULT and no error. -/
def State.Unfinished (s : State) : Prop := s.busy = true ∧ s.RESULT = none ∧ s.err = .noError

/-- All a step of an unfinished job may make of it (R75). -/
def State.Settled (t : State) : Prop :=
  t.Unfinished ∨ (t.phase = .done ∧ t.RESULT ≠ none ∧ t.err = .noError) ∨
    (t.phase = .fail ∧ t.RESULT = none ∧ t.err ≠ .noError)

theorem settled_raise (e : JobError) (s : State) : (s.raise e).Settled :=
  .inr (.inr ⟨rfl, rfl, by cases e <;> simp [State.raise, JobError.kind]⟩)

theorem settled_finish (r : Result) (hs : s.Unfinished) : (s.finish r).Settled :=
  .inr (.inl ⟨rfl, by simp [State.finish], hs.2.2⟩)

theorem unfinished_setPhase {p : Phase} (hp : p.busy = true) (hs : s.Unfinished) : (s.setPhase p).Unfinished :=
  ⟨hp, hs.2⟩

/-- No piece of a rule ends a job. -/
theorem unfinished_footprint : Footprint (fun s t => s.Unfinished → t.Unfinished) where
  comp := ⟨fun _ => id, fun h h' => h' ∘ h⟩
  tick _ _ _ _ _ _ _ := id
  obits _ _ _ _ _ _ := id
  pending _ _ := id
  word _ _ _ := id
  assign _ _ _ _ _ _ _ := id
  insert _ _ _ _ _ _ _ := id
  out _ _ _ _ _ := id

/-- A rule of such pieces goes on or raises. -/
theorem settled_of_perform {m : M Unit} (hm : KeepsAt (fun s t => s.Unfinished → t.Unfinished) m s)
    (hs : s.Unfinished) (h : perform m s = .next t) : t.Settled := by
  rcases perform_next.mp h with hok | ⟨e, u, -, rfl⟩
  · exact .inl (hm.1 () t hok hs)
  · exact settled_raise e u

/-- A token of the Decoder goes on, raises, or is the EOS, which finishes. -/
theorem DecoderRule.settled {p : Phase} {i : Instr} {m : M Unit} (hm : DecoderRule p i m) (hs : s.Unfinished)
    (h : perform m s = .next t) : t.Settled := by
  have F := unfinished_footprint
  have first : ∀ v, perform (firstLiteral v) s = .next t → t.Settled :=
    fun v => settled_of_perform (F.firstLitAt v s fun _ _ => unfinished_setPhase rfl) hs
  have loop : ∀ v, perform (loopLiteral v) s = .next t → t.Settled :=
    fun v => settled_of_perform (F.loopLitAt v s) hs
  have illegal : perform firstIllegal s = .next t → t.Settled :=
    settled_of_perform (keepsAt_read F.comp fun _ _ => keepsAt_of (keeps_raiseJob F.comp _) _) hs
  cases hm with
  | firstLit8 v => exact first _ h
  | firstLit16 v => exact first _ h
  | loopLit8 v => exact loop _ h
  | loopLit16 v => exact loop _ h
  | firstIdx n hn => exact illegal h
  | illegalFirst => exact illegal h
  | loopIdx n hn => exact settled_of_perform (F.loopIdxAt n s) hs h
  | firstEos => cases h; exact settled_finish _ hs
  | loopEos =>
    rcases perform_next.mp h with hok | ⟨e, u, -, rfl⟩
    · simp only [Machine.loopEos, bind_ok, readOut_run, held_ok] at hok
      obtain ⟨o, _, ⟨-, rfl⟩, hend⟩ := hok
      cases hend
      exact settled_finish _ hs
    · exact settled_raise e u

/-- A rule of a running job. -/
theorem BusyStep.settled (h : BusyStep s t) (hs : s.Unfinished) : t.Settled := by
  have F := unfinished_footprint
  cases h with
  | encUnitOk u i c m _ _ _ _ hm =>
    have hunit : m.Unfinished := (keepsAt_bind F.comp (F.firstSightAt c s) fun _ _ _ => F.extendAt c _).1 _ m hm hs
    split
    · exact .inl (unfinished_setPhase rfl hunit)
    · exact .inl hunit
  | flushNone => exact .inl (unfinished_setPhase rfl hs)
  | flushOk w m _ _ _ hm => exact .inl (unfinished_setPhase rfl ((F.emitAt w s).1 _ m hm hs))
  | eosOk w m b _ _ hm => exact settled_finish _ ((F.sinkAt _ _ s).1 _ m hm hs)
  | encUnitErr | flushErr | eosErr | readErr => exact settled_raise _ _
  | token w p q inp i t hp _ _ _ hd hx =>
    obtain ⟨m, hm, hperform⟩ := decoderRule_of_exec (s := s.setBpos q) hp (decodeToken_le hd).2 hx
    exact hm.settled (s := s.setBpos q) hs hperform

/-- Settles O47: the pieces of a rule leave a job unfinished, and only `finish` and `raise` end it. -/
theorem completionIsAtomic : Obligations.CompletionIsAtomic := by
  intro s t hb hresult herr h
  have hs : s.Unfinished := ⟨hb, hresult, herr⟩
  rcases busy_step_rule hb h with hrule | ⟨x, rfl⟩
  · exact hrule.settled hs
  · exact .inl hs

end Sys2Proof.Machine

/-! ### Reading a token from a stream that may be cut off -/

namespace Sys2Proof

variable {inp : List Byte} {first : Bool} {W p q : Nat}

theorem srcReadRev_of_carries_lt {n x : Nat} (hx : x < 2 ^ n) (h : Carries inp p (lsbFirst n x))
    (hin : p + n ≤ 8 * inp.length) : srcReadRev inp p n = .ok (x, p + n) := by
  rw [srcReadRev_of_carries h hin, Nat.mod_eq_of_lt hx]

/-- Decoding at `p` gives the token, or stops where the token reaches past the end of the input. -/
def ReadsToken (first : Bool) (W : Nat) (inp : List Byte) (p : Nat) (i : Instr) : Prop :=
  (p + wireLength W i ≤ 8 * inp.length → decodeToken first W inp p = .token i (p + wireLength W i)) ∧
    (8 * inp.length < p + wireLength W i → ∃ e q, decodeToken first W inp p = .stop e q)

/-- A token of `n` bits after its CODE field is read once its code and its operand are. -/
theorem readsToken_of_code {i : Instr} {c n : Nat} (hW : 2 ≤ W) (hc : c < 2 ^ W) (hlen : wireLength W i = W + n)
    (h : Carries inp p (lsbFirst W c))
    (htoken : p + W + n ≤ 8 * inp.length → decodeCode first inp c (p + W) = .token i (p + W + n))
    (hstop : p + W ≤ 8 * inp.length → 8 * inp.length < p + W + n →
      ∃ e q, decodeCode first inp c (p + W) = .stop e q) :
    ReadsToken first W inp p i := by
  have hcode (hin : p + W ≤ 8 * inp.length) : decodeToken first W inp p = decodeCode first inp c (p + W) := by
    simp [decodeToken, srcReadRev_of_carries_lt hc h hin]
  rw [ReadsToken, hlen, ← Nat.add_assoc]
  refine ⟨fun hin => (hcode (by omega)).trans (htoken hin), fun hout => ?_⟩
  rcases Nat.lt_or_ge (8 * inp.length) (p + W) with hcut | hin
  · obtain ⟨e, he⟩ := srcReadRev_past_end (by omega) hcut
    exact ⟨e, p, by simp [decodeToken, he]⟩
  · obtain ⟨e, q, hs⟩ := hstop hin hout
    exact ⟨e, q, (hcode hin).trans hs⟩

/-- A token with an operand `x` of `n` bits. -/
theorem readsToken_of_operand {i : Instr} {c n x : Nat} (hW : 2 ≤ W) (hc : c < 2 ^ W) (hn : n ≠ 0) (hx : x < 2 ^ n)
    (hlen : wireLength W i = W + n) (h : Carries inp p (lsbFirst W c ++ lsbFirst n x))
    (hok : ∀ q r, srcReadRev inp q n = .ok (x, r) → decodeCode first inp c q = .token i r)
    (herror : ∀ q e, srcReadRev inp q n = .error e → decodeCode first inp c q = .stop e q) :
    ReadsToken first W inp p i := by
  obtain ⟨hcode, hval⟩ := carries_append.mp h
  rw [length_lsbFirst] at hval
  refine readsToken_of_code hW hc hlen hcode (fun hin => hok _ _ (srcReadRev_of_carries_lt hx hval hin))
    fun _ hout => ?_
  obtain ⟨e, he⟩ := srcReadRev_past_end hn hout
  exact ⟨e, p + W, herror _ e he⟩

theorem decodeCode_lit8 : decodeCode first inp codeLit8 q = decodeLit8 inp q := if_pos rfl

theorem decodeCode_lit16 : decodeCode first inp codeLit16 q = decodeLit16 inp q := by
  simp [decodeCode, codeLit16, codeLit8]

theorem decodeCode_eos : decodeCode first inp codeEos q = .token .eos q := by
  simp [decodeCode, codeLit16, codeLit8, codeEos]

theorem decodeCode_idx {n : Nat} (hn : 3 ≤ n) : decodeCode false inp n q = .token (.idx n) q := by
  simp [decodeCode, codeLit16, codeLit8, codeEos, show n ≠ 0 by omega, show n ≠ 1 by omega, show n ≠ 2 by omega]

/-- Every control code fits the CODE field (R66). -/
theorem code_lt_two_pow {c : Nat} (hW : 2 ≤ W) (hc : c < 2 ^ 2) : c < 2 ^ W :=
  hc.trans_le (Nat.pow_le_pow_right (by omega) hW)

theorem readsToken_lit8 {v : Byte} (hW : 2 ≤ W) (h : Carries inp p (encodeToken W (.lit8 v))) :
    ReadsToken first W inp p (.lit8 v) :=
  readsToken_of_operand hW (code_lt_two_pow hW (by decide)) (by decide) v.isLt rfl h
    (fun q r hr => by simp [decodeCode_lit8, decodeLit8, lit8Bits, hr])
    fun q e he => by simp [decodeCode_lit8, decodeLit8, lit8Bits, he]

theorem readsToken_lit16 {v : CodeUnit} (hW : 2 ≤ W) (h : Carries inp p (encodeToken W (.lit16 v))) :
    ReadsToken first W inp p (.lit16 v) :=
  readsToken_of_operand hW (code_lt_two_pow hW (by decide)) (by decide) v.isLt rfl h
    (fun q r hr => by simp [decodeCode_lit16, decodeLit16, lit16Bits, hr])
    fun q e he => by simp [decodeCode_lit16, decodeLit16, lit16Bits, he]

theorem readsToken_eos (hW : 2 ≤ W) (h : Carries inp p (encodeToken W .eos)) : ReadsToken first W inp p .eos :=
  readsToken_of_code (n := 0) hW (code_lt_two_pow hW (by decide)) rfl h
    (fun _ => decodeCode_eos) fun hin hout => absurd hin (by omega)

theorem readsToken_idx {n : Nat} (hW : 2 ≤ W) (hn : 3 ≤ n) (hlt : n < 2 ^ W)
    (h : Carries inp p (encodeToken W (.idx n))) : ReadsToken false W inp p (.idx n) :=
  readsToken_of_code (n := 0) hW hlt rfl h (fun _ => decodeCode_idx hn) fun hin hout => absurd hin (by omega)

end Sys2Proof

/-! ### What a Decoder hears

`Hears` is what one token does to the Decoder's view when no bound is in the way, and `Tells` the same of a stream. They
speak of no state: an Encoder builds the stream, and a Decoder may be given the whole of it or a part. -/

namespace Sys2Proof.Machine

/-- The token a literal is sent as (R192). -/
def literal (c : CodeUnit) : Instr := if c.toNat < lit8Limit then .lit8 (c.setWidth 8) else .lit16 c

/-- What a token, its fields read, makes of the Decoder's view and of its last entry, none before the first token
(R232, R233, R237, R238, R240). -/
inductive Hears (d : DecView) : Option (List CodeUnit) → Instr → DecView → List CodeUnit → Prop
  | first (c : CodeUnit) : Hears d none (literal c) { d.inserted [c] with out := d.out ++ [c] } [c]
  | later (last : List CodeUnit) (c : CodeUnit) :
      Hears d (some last) (literal c) { (d.inserted [c]).inserted (last ++ [c]) with out := d.out ++ [c] } [c]
  | index (last : List CodeUnit) (n : Nat) (c : CodeUnit) (rest : List CodeUnit) (hn : 3 ≤ n)
      (hlt : n < 2 ^ d.indexBits) (hentry : d.decDict[n]? = some (c :: rest) ∨ n = d.count ∧ c :: rest = last ++ [c]) :
      Hears d (some last) (.idx n) { d.inserted (last ++ [c]) with out := d.out ++ c :: rest } (c :: rest)

/-- The view with the token's fields read (R231, R236). -/
def DecView.past (d : DecView) (i : Instr) : DecView := { d with bpos := d.bpos + wireLength d.indexBits i }

/-- The stream `bits` brings a Decoder of input `inp` from its start to the view `d` and the last entry. -/
inductive Tells (inp : List Byte) : List Bool → DecView → Option (List CodeUnit) → Prop
  | nothing : Tells inp [] (bootView inp 0) none
  | token {bits d last i d' entry} : Tells inp bits d last → Hears (d.past i) last i d' entry →
      Tells inp (bits ++ encodeToken d.indexBits i) d' (some entry)

variable {s t : State} {inp : List Byte} {bits : List Bool} {d d' : DecView} {last : Option (List CodeUnit)} {i : Instr}
  {entry : List CodeUnit}

/-- A view whose countdown runs and whose count is that of its entries (R29, R169). -/
structure DecView.Sound (d : DecView) : Prop where
  schedule : ScheduleOk d.indexBits d.enlargeIn
  count : d.count = d.decDict.length

theorem DecView.Sound.inserted (h : d.Sound) (e : List CodeUnit) : (d.inserted e).Sound :=
  ⟨scheduleOk_tick h.schedule, by simp [DecView.inserted, h.count]⟩

theorem Hears.sound (h : Hears d last i d' entry) (hd : d.Sound) : d'.Sound ∧ d'.IN = d.IN ∧ d'.bpos = d.bpos := by
  cases h with
  | first c => exact ⟨{ hd.inserted [c] with }, rfl, rfl⟩
  | later last c => exact ⟨{ (hd.inserted [c]).inserted (last ++ [c]) with }, rfl, rfl⟩
  | index last n c rest => exact ⟨{ hd.inserted (last ++ [c]) with }, rfl, rfl⟩

/-- An encoding has the length R99 gives it. -/
theorem length_encodeToken (W : Nat) (i : Instr) : (encodeToken W i).length = wireLength W i := by
  cases i with
  | lit8 v => exact Laws.WireLength.lit8 v W
  | lit16 v => exact Laws.WireLength.lit16 v W
  | eos => exact Laws.WireLength.eos W
  | idx n => exact Laws.WireLength.idx n W
  | illegalFirst => exact Laws.WireLength.illegalFirst W
  | encode u => exact Laws.WireLength.encode u W
  | decode b => exact Laws.WireLength.decode b W

/-- A token has its CODE field at least. -/
theorem Hears.width_le (h : Hears d last i d' entry) (W : Nat) : W ≤ wireLength W i := by
  have lit : ∀ c, W ≤ wireLength W (literal c) := fun c => by
    unfold literal
    split
    · exact Nat.le_add_right W lit8Bits
    · exact Nat.le_add_right W lit16Bits
  cases h with
  | first c => exact lit c
  | later last c => exact lit c
  | index last n => exact le_rfl

/-- The Decoder's cursor stands at the end of what it heard. -/
theorem Tells.sound (h : Tells inp bits d last) : d.Sound ∧ d.IN = inp ∧ d.bpos = bits.length := by
  induction h with
  | nothing => exact ⟨⟨scheduleOk_booted, rfl⟩, rfl, rfl⟩
  | token _ hears ih =>
    obtain ⟨hd, hin, hpos⟩ := ih
    obtain ⟨hd', hin', hpos'⟩ := hears.sound { hd with }
    refine ⟨hd', hin'.trans hin, hpos'.trans ?_⟩
    simp [DecView.past, hpos, length_encodeToken]

/-! ### The Decoder's run -/

/-- The phase of a Decoder, by whether it has read its first token. -/
def decoderPhase : Option (List CodeUnit) → Phase
  | none => .decFirst
  | some _ => .decLoop

/-- A Decoder without bounds, left alone by its host, at a view and a last entry. -/
structure Decoding (s : State) (d : DecView) (last : Option (List CodeUnit)) : Prop where
  phase : s.phase = decoderPhase last
  word : s.word = last
  holds : s.HoldsDec d
  bounds : s.bounds = Bounds.unbounded
  host : s.host = []

/-- A DECODE job that ended because its input did (R143, R144, R247). -/
structure State.CutShort (t : State) : Prop where
  phase : t.phase = .fail
  result : t.RESULT = none
  err : t.err = .endOfStream ∨ t.err = .truncatedStream
  host : t.host = []

/-- With every bound ∞ a step that performs a safe rule goes through. -/
theorem step_of_safe {m : M Unit} {s' : State} {Q : Unit → State → Prop} (hstep : step s = perform m s')
    (hbusy : s.busy = true) (hbounds : s.bounds = Bounds.unbounded) (hh : s.host = []) (hsafe : Safe Bounded m s' Q) :
    ∃ t, step s = .next t ∧ Q () t ∧ t.bounds = Bounds.unbounded ∧ t.host = [] := by
  have keeps : ∀ t, step s = .next t → t.bounds = Bounds.unbounded := fun t ht =>
    (busy_step_keeps bounds_footprint (fun _ _ => rfl) hbusy ht).trans hbounds
  unfold Safe at hsafe
  cases hm : m s' with
  | ok a t =>
    have ht := hstep.trans (perform_of_ok hm)
    exact ⟨t, ht, by simpa only [hm] using hsafe, keeps t ht, step_keeps_no_host hh ht⟩
  | error e t =>
    simp only [hm] at hsafe
    cases e with
    | job e => exact absurd (keeps _ (hstep.trans (perform_of_job hm))) hsafe
    | fault f => exact hsafe.elim

theorem literal_units {c : CodeUnit} (h : c.toNat < 256) : (c.setWidth 8 : Byte).setWidth 16 = c :=
  setWidth_of_toNat_eq _ c (toNat_setWidth_of_lt c h)

theorem decoderRule_first_literal (c : CodeUnit) : DecoderRule .decFirst (literal c) (firstLiteral c) := by
  unfold literal
  split
  case isTrue h => simpa only [literal_units h] using DecoderRule.firstLit8 (c.setWidth 8)
  case isFalse => exact .firstLit16 c

theorem decoderRule_later_literal (c : CodeUnit) : DecoderRule .decLoop (literal c) (loopLiteral c) := by
  unfold literal
  split
  case isTrue h => simpa only [literal_units h] using DecoderRule.loopLit8 (c.setWidth 8)
  case isFalse => exact .loopLit16 c

/-- The index of an entry, or of the entry to come, resolves (R241). -/
theorem resolve_of_entry {last : List CodeUnit} {n : Nat} {c : CodeUnit} {rest : List CodeUnit} (hv : s.HoldsDec d)
    (hw : s.word = some last) (hlast : last ≠ []) (hcount : d.count = d.decDict.length)
    (h : d.decDict[n]? = some (c :: rest) ∨ n = d.count ∧ c :: rest = last ++ [c]) :
    resolve n s = .ok (c :: rest) s := by
  rcases h with hentry | ⟨rfl, hself⟩
  · have hlt : n < d.count := hcount ▸ (List.getElem?_eq_some_iff.mp hentry).1
    simp [resolve, hv.count, hlt, hv.decDict, decGet, hentry]
  · obtain ⟨a, tail, rfl⟩ := List.exists_cons_of_ne_nil hlast
    obtain rfl : c = a := by simp at hself; exact hself.1
    simp [resolve, hv.count, hw, headUnit, hself]

theorem Tells.entry_ne_nil {last : List CodeUnit} (h : Tells inp bits d (some last)) : last ≠ [] := by
  cases h with
  | token _ hears => cases hears <;> simp

/-- The rule of a token the Decoder hears goes through to the view it is heard to make. -/
theorem Hears.safe (h : Hears d last i d' entry) (hd : d.Sound) (hlast : ∀ l, last = some l → l ≠ [])
    (hp : s.phase = decoderPhase last) (hw : s.word = last) (hv : s.HoldsDec d) :
    ∃ m, DecoderRule s.phase i m ∧
      Safe Bounded m s fun _ t => t.HoldsDec d' ∧ t.word = some entry ∧ t.phase = .decLoop := by
  have hE := allowsCapacity_bounded
  have hlow := hd.schedule.low
  rw [hp]
  cases h with
  | first c => exact ⟨_, decoderRule_first_literal c, firstLit_safe hE hv hlow c⟩
  | later last c =>
    refine ⟨_, decoderRule_later_literal c, safe_mono (loopLit_safe hE hv hlow hw hd.count) ?_⟩
    exact fun _ t ⟨hv', hw', hp'⟩ => ⟨hv', hw', hp'.trans hp⟩
  | index last n c rest hn hlt hentry =>
    have hr := resolve_of_entry hv hw (hlast last rfl) hd.count hentry
    refine ⟨_, .loopIdx n hn, safe_mono (loopIdx_safe hE hv hlow hw hr) ?_⟩
    exact fun _ t ⟨hv', hw', hp'⟩ => ⟨hv', hw', hp'.trans hp⟩

theorem Decoding.busy (hs : Decoding s d last) : s.busy = true := by
  cases last <;> simp [State.busy, hs.phase, decoderPhase, Phase.busy]

theorem Decoding.decoder (hs : Decoding s d last) : s.phase = .decFirst ∨ s.phase = .decLoop := by
  cases last <;> simp [hs.phase, decoderPhase]

/-- A token that reaches past the end of the input ends the job. -/
theorem Decoding.cut (hs : Decoding s d last)
    (hread : ReadsToken (s.phase == .decFirst) d.indexBits d.IN d.bpos i)
    (hout : 8 * d.IN.length < d.bpos + wireLength d.indexBits i) : ∃ t, step s = .next t ∧ t.CutShort := by
  obtain ⟨e, q, hstop⟩ := hread.2 hout
  have hstep := tokenStep_stop hs.holds.indexBits hs.holds.IN hs.holds.bpos hstop
  refine ⟨_, (step_decoder hs.host hs.decoder).trans hstep, rfl, rfl, ?_, hs.host⟩
  cases e <;> simp [State.raise, readErrorJob, JobError.kind]

/-- What the stream tells is read as it was written. -/
theorem Hears.reads {first : Bool} {p : Nat} (h : Hears d last i d' entry) (hd : d.Sound)
    (hfirst : last ≠ none → first = false) (hbits : Carries inp p (encodeToken d.indexBits i)) :
    ReadsToken first d.indexBits inp p i := by
  have hW := hd.schedule.width
  have lit : ∀ c, Carries inp p (encodeToken d.indexBits (literal c)) →
      ReadsToken first d.indexBits inp p (literal c) := fun c => by
    unfold literal
    split
    · exact readsToken_lit8 hW
    · exact readsToken_lit16 hW
  cases h with
  | first c => exact lit c hbits
  | later last c => exact lit c hbits
  | index last n c rest hn hlt => exact hfirst (by simp) ▸ readsToken_idx hW hn hlt hbits

/-- The Decoder reads the next token of the stream, or ends because its input did. -/
theorem Decoding.next (hs : Decoding s d last) (h : Tells inp bits d last) (hears : Hears (d.past i) last i d' entry)
    (hbits : Carries inp 0 (bits ++ encodeToken d.indexBits i)) :
    ∃ t, step s = .next t ∧
      ((bits ++ encodeToken d.indexBits i).length ≤ 8 * inp.length ∧ Decoding t d' (some entry) ∨
        8 * inp.length < (bits ++ encodeToken d.indexBits i).length ∧ t.CutShort) := by
  obtain ⟨hd, hin, hpos⟩ := h.sound
  have htoken : Carries d.IN d.bpos (encodeToken d.indexBits i) := by
    rw [hin, hpos, ← Nat.zero_add bits.length]; exact (carries_append.mp hbits).2
  have hread : ReadsToken (s.phase == .decFirst) d.indexBits d.IN d.bpos i := by
    refine hears.reads { hd with } (fun hl => ?_) htoken
    obtain ⟨l, rfl⟩ := Option.ne_none_iff_exists'.mp hl
    rw [hs.phase]; rfl
  rw [List.length_append, length_encodeToken, ← hpos, ← hin]
  rcases Nat.lt_or_ge (8 * d.IN.length) (d.bpos + wireLength d.indexBits i) with hout | hend
  · obtain ⟨t, ht, hcut⟩ := hs.cut hread hout
    exact ⟨t, ht, .inr ⟨hout, hcut⟩⟩
  · obtain ⟨m, hrule, hsafe⟩ := hears.safe (s := s.setBpos (d.past i).bpos) { hd with }
      (fun l hl => (hl ▸ h).entry_ne_nil) hs.phase hs.word (holdsDec_setBpos hs.holds _)
    have hstep : step s = perform m (s.setBpos (d.past i).bpos) := by
      rw [step_decoder hs.host hs.decoder, ← hrule.exec_eq (s := s.setBpos (d.past i).bpos) rfl]
      exact tokenStep_token hs.holds.indexBits hs.holds.IN hs.holds.bpos (hread.1 hend)
    obtain ⟨t, ht, ⟨hv, hw, hp⟩, hbounds, hh⟩ := step_of_safe hstep hs.busy hs.bounds hs.host hsafe
    exact ⟨t, ht, .inl ⟨hend, hp, hw, hv, hbounds, hh⟩⟩

theorem core_run_snoc {k : Nat} {u : State} (h : Sys2Proof.core.run k s = .next t) (hstep : step t = .next u) :
    Sys2Proof.core.run (k + 1) s = .next u :=
  (host_run_add Sys2Proof.core k 1 s t h).trans ((core_run_one t).trans hstep)

/-- A core that has ended waits (R281). -/
theorem core_run_of_not_busy (hb : s.busy = false) (hh : s.host = []) (k : Nat) :
    Sys2Proof.core.run k s = .next s := by
  induction k with
  | zero => rfl
  | succ k ih => exact (core_run_succ (step_of_not_busy hb hh)).trans ih

theorem core_run_le {k n : Nat} (h : Sys2Proof.core.run k s = .next t) (hb : t.busy = false) (hh : t.host = [])
    (hle : k ≤ n) : Sys2Proof.core.run n s = .next t := by
  obtain ⟨j, rfl⟩ := Nat.exists_eq_add_of_le hle
  exact (host_run_add Sys2Proof.core k j s t h).trans (core_run_of_not_busy hb hh j)

theorem State.CutShort.not_busy (h : t.CutShort) : t.busy = false := by simp [State.busy, h.phase, Phase.busy]

/-- Two bits or more are read at each step of a stream's decoding, so its length bounds the steps (R244). -/
theorem Tells.run (h : Tells inp bits d last) (hs : Decoding s (bootView inp 0) none) (hbits : Carries inp 0 bits) :
    ∃ k t, Sys2Proof.core.run k s = .next t ∧
      (bits.length ≤ 8 * inp.length ∧ 2 * k ≤ bits.length ∧ Decoding t d last ∨
        8 * inp.length < bits.length ∧ 2 * k ≤ 8 * inp.length + 2 ∧ t.CutShort) := by
  induction h with
  | nothing => exact ⟨0, s, rfl, .inl ⟨Nat.zero_le _, le_rfl, hs⟩⟩
  | @token bits d last i d' entry htells hears ih =>
    obtain ⟨k, t, hrun, hheld⟩ := ih (carries_append.mp hbits).1
    have hlen : bits.length + 2 ≤ (bits ++ encodeToken d.indexBits i).length := by
      rw [List.length_append, length_encodeToken]
      exact Nat.add_le_add_left (htells.sound.1.schedule.width.trans (hears.width_le _)) _
    rcases hheld with ⟨hin, hk, ht⟩ | ⟨hout, hk, ht⟩
    · obtain ⟨u, hu, hnext⟩ := ht.next htells hears hbits
      refine ⟨k + 1, u, core_run_snoc hrun hu, hnext.imp ?_ ?_⟩
      · exact fun ⟨hin', hdec⟩ => ⟨hin', by omega, hdec⟩
      · exact fun ⟨hout', hcut⟩ => ⟨hout', by omega, hcut⟩
    · exact ⟨k, t, hrun, .inr ⟨by omega, hk, ht⟩⟩

/-- A stream whose EOS is cut off ends the job (R247). -/
theorem Tells.run_cut (h : Tells inp bits d last) (hs : Decoding s (bootView inp 0) none)
    (hbits : Carries inp 0 (bits ++ encodeToken d.indexBits .eos))
    (hout : 8 * inp.length < (bits ++ encodeToken d.indexBits .eos).length) :
    ∃ t, Sys2Proof.core.run (4 * inp.length + 1) s = .next t ∧ t.CutShort := by
  obtain ⟨hprefix, heos⟩ := carries_append.mp hbits
  obtain ⟨k, t, hrun, ⟨hin, hk, ht⟩ | ⟨-, hk, hcut⟩⟩ := h.run hs hprefix
  · obtain ⟨hd, hIN, hpos⟩ := h.sound
    have hread := readsToken_eos (first := t.phase == .decFirst) hd.schedule.width heos
    rw [Nat.zero_add, ← hpos, ← hIN] at hread
    rw [List.length_append, length_encodeToken, ← hIN, ← hpos] at hout
    obtain ⟨u, hu, hcut⟩ := ht.cut hread hout
    exact ⟨u, core_run_le (core_run_snoc hrun hu) hcut.not_busy hcut.host (by omega), hcut⟩
  · exact ⟨t, core_run_le hrun hcut.not_busy hcut.host (by omega), hcut⟩

end Sys2Proof.Machine

/-! ### What an Encoder has told

Between two steps of an ENCODE job the Encoder is ahead of a Decoder of its stream by the entries the Decoder will
insert at the next token: the singleton that is still pending, and the last emitted word with the first unit of the
current one. -/

namespace Sys2Proof.Machine

variable {s t : State} {inp : List Byte} {bits : List Bool} {v : EncView} {d : DecView} {c : CodeUnit}

/-- The entries that take the indices of the control codes (R165). -/
def placeholders : DecDict := [[0#16], [1#16], [2#16]]

/-- The sequences of one unit each. -/
def singletons (l : List CodeUnit) : List (List CodeUnit) := l.map fun u => [u]

/-- What a Decoder knows of an Encoder's view: nothing before the first token, when the word is the pending singleton;
then the words emitted before the current one, its dictionary behind by the entries it has yet to insert. -/
inductive Told (inp : List Byte) (v : EncView) : Prop
  | silent (hbits : v.obits = []) (hsched : v.sched = ⟨2, 2⟩) (hword : v.word = v.pending)
      (hkeys : keysOf v.encDict = singletons v.pending) (hunits : v.word = v.U.take v.ipos) : Told inp v
  | speaking (d : DecView) (last : List CodeUnit) (htells : Tells inp v.obits d (some last))
      (hsched : v.sched = d.sched) (hword : v.word ≠ [])
      (hkeys : placeholders ++ keysOf v.encDict
        = d.decDict ++ singletons v.pending ++ [last ++ v.word.take 1])
      (hunits : d.out ++ v.word = v.U.take v.ipos) : Told inp v

/-- A Decoder that has heard the current word is level with the Encoder's dictionary. -/
structure Level (inp : List Byte) (v : EncView) (d : DecView) : Prop where
  tells : Tells inp v.emitted.obits d (some v.word)
  sched : d.sched = v.emitted.sched
  entries : d.decDict = placeholders ++ keysOf v.encDict
  out : d.out = v.U.take v.ipos

theorem emitted_obits (v : EncView) : v.emitted.obits = v.obits ++ encodeToken v.indexBits v.token := by
  unfold EncView.emitted; split <;> rfl

theorem emitted_sched_of_some {u : CodeUnit} (h : pendingSingleton v.pending v.word = some u) :
    v.emitted.sched = ticks 2 v.sched := by
  simp [EncView.emitted, h, EncView.sched, EncView.ticked]

theorem emitted_sched_of_none (h : pendingSingleton v.pending v.word = none) :
    v.emitted.sched = ticks 1 v.sched := by
  simp [EncView.emitted, h, EncView.sched, EncView.ticked]

theorem emitted_pending_of_some {u : CodeUnit} (h : pendingSingleton v.pending v.word = some u) :
    v.emitted.pending = pendingErase v.pending u := by
  simp [EncView.emitted, h]

theorem emitted_pending_of_none (h : pendingSingleton v.pending v.word = none) : v.emitted.pending = v.pending := by
  simp [EncView.emitted, h, EncView.ticked]

theorem pendingSingleton_eq_none {p w : List CodeUnit} (h : ∀ u, w = [u] → u ∉ p) : pendingSingleton p w = none := by
  cases hs : pendingSingleton p w with
  | none => rfl
  | some u => exact absurd (pendingSingleton_some hs).2 (h u (pendingSingleton_some hs).1)

theorem token_of_some {u : CodeUnit} (h : pendingSingleton v.pending v.word = some u) : v.token = literal u := by
  simp [EncView.token, h, literal]

theorem token_of_none {n : Nat} (h : pendingSingleton v.pending v.word = none)
    (hn : encLookup v.encDict v.word = some n) : v.token = .idx n := by
  simp [EncView.token, h, hn]

/-- The key of index `n` stands at place `n` behind the placeholders (R28, R29). -/
theorem getElem?_of_encLookup {e : EncDict} {n k : Nat} {key : List CodeUnit} (ok : EncDictOk e n)
    (h : encLookup e key = some k) : (placeholders ++ keysOf e)[k]? = some key := by
  obtain ⟨i, hi, hget⟩ := List.getElem_of_mem (mem_of_encLookup h)
  have hk : k = 3 + i := by
    have hsnd : (e.map Prod.snd)[i]? = some k := by simp [hi, hget]
    rw [ok.indices] at hsnd
    simp [hi] at hsnd
    omega
  rw [hk, List.getElem?_append_right (by simp [placeholders])]
  simp [placeholders, keysOf, hi, hget]

/-- The token sent for the current word, heard by a Decoder of the same width. -/
theorem tells_emitted {last : Option (List CodeUnit)} {i : Instr} {d' : DecView} {entry : List CodeUnit}
    (h : Tells inp v.obits d last) (hW : v.indexBits = d.indexBits) (hi : v.token = i) (hword : v.word = entry)
    (hears : Hears (d.past i) last i d' entry) : Tells inp v.emitted.obits d' (some v.word) := by
  subst hi hword
  rw [emitted_obits, hW]
  exact .token h hears

/-- A pending singleton goes out as a literal. -/
theorem Told.level_of_pending (h : Told inp v) (hp : v.pending = [c]) (hw : v.word = [c]) : ∃ d, Level inp v d := by
  have hsome : pendingSingleton v.pending v.word = some c := by simp [pendingSingleton, hp, hw]
  have htoken := token_of_some hsome
  have hticks := emitted_sched_of_some hsome
  cases h with
  | silent hbits hsched hword hkeys hunits =>
    have hstart : Tells inp v.obits (bootView inp 0) none := hbits ▸ .nothing
    refine ⟨_, tells_emitted hstart (congrArg Schedule.indexBits hsched) htoken hw (.first c), ?_, ?_, ?_⟩
    · rw [hticks, hsched]; rfl
    · rw [hkeys, hp]; rfl
    · rw [← hunits, hw]; rfl
  | speaking d last htells hsched hword hkeys hunits =>
    refine ⟨_, tells_emitted htells (congrArg Schedule.indexBits hsched) htoken hw (.later last c), ?_, ?_, ?_⟩
    · rw [hticks, hsched]; rfl
    · simp [hkeys, hp, hw, singletons, DecView.inserted, DecView.past]
    · rw [← hunits, hw]; rfl

/-- A word with nothing pending goes out as its index: it has an entry, or is the entry to come (R241). -/
theorem Told.level_of_index (h : Told inp v) (hm : EncMatching v) (hp : v.pending = []) (h0 : v.word ≠ []) :
    ∃ d, Level inp v d := by
  have hnone : pendingSingleton v.pending v.word = none := pendingSingleton_eq_none (by simp [hp])
  obtain ⟨n, hn⟩ := hm.emit_side h0
  obtain ⟨hlow, hlt⟩ := index_lt_two_pow hm (by simp [hp]) hn
  have hplace := getElem?_of_encLookup hm.dict hn
  have hticks := emitted_sched_of_none hnone
  obtain ⟨c, rest, hw⟩ := List.exists_cons_of_ne_nil h0
  cases h with
  | silent hbits hsched hword hkeys hunits => exact absurd (hword.trans hp) h0
  | speaking d last htells hsched hword hkeys hunits =>
    have hW : v.indexBits = d.indexBits := congrArg Schedule.indexBits hsched
    have hkeys' : placeholders ++ keysOf v.encDict = d.decDict ++ [last ++ [c]] := by
      simpa [hp, singletons, hw] using hkeys
    have hentry : d.decDict[n]? = some (c :: rest) ∨ n = d.count ∧ c :: rest = last ++ [c] := by
      rw [hkeys', hw, List.getElem?_append] at hplace
      split at hplace
      case isTrue => exact .inl hplace
      case isFalse hge =>
        obtain ⟨hzero, hlast⟩ := List.getElem?_eq_some_iff.mp hplace
        have hcount := htells.sound.1.count
        exact .inr ⟨by simp at hzero; omega, by simpa using hlast.symm⟩
    refine ⟨_, tells_emitted htells hW (token_of_none hnone hn) hw (.index last n c rest hlow (hW ▸ hlt) hentry),
      ?_, ?_, ?_⟩
    · rw [hticks, hsched]; rfl
    · exact hkeys'.symm
    · rw [← hunits, hw]; rfl

/-- At a step of the job with a word, its emission brings the Decoder level. -/
theorem Told.level (h : Told inp v) (hm : EncMatching v) (h0 : v.word ≠ []) : ∃ d, Level inp v d := by
  rcases hm.pending with hp | ⟨c, hp, hw⟩
  · exact h.level_of_index hm hp h0
  · exact h.level_of_pending hp hw

/-- The unit whose singleton ENC_UNIT adds to the dictionary, if it is new (R191). -/
def EncView.fresh (v : EncView) (c : CodeUnit) : List CodeUnit := if [c] ∈ keysOf v.encDict then [] else [c]

theorem assigned_keys (v : EncView) (k : List CodeUnit) :
    keysOf (v.assigned k).encDict = keysOf v.encDict ++ [k] := List.map_append

theorem sighted_of_known (h : [c] ∈ keysOf v.encDict) : v.sighted c = v := by
  obtain ⟨n, hn⟩ := encLookup_of_mem h
  simp [EncView.sighted, hn]

theorem sighted_of_new (h : [c] ∉ keysOf v.encDict) :
    v.sighted c = { v.assigned [c] with pending := pendingInsert v.pending c } := by
  simp [EncView.sighted, encLookup_eq_none.mpr h]

theorem sighted_keys (v : EncView) (c : CodeUnit) :
    keysOf (v.sighted c).encDict = keysOf v.encDict ++ singletons (v.fresh c) := by
  by_cases h : [c] ∈ keysOf v.encDict
  · simp [sighted_of_known h, EncView.fresh, h, singletons]
  · rw [sighted_of_new h, EncView.fresh, if_neg h]
    exact assigned_keys v [c]

/-- The first sight of a unit changes nothing about the emission of the word before it. -/
theorem sighted_emitted (hm : EncMatching v) (h0 : v.word ≠ []) (c : CodeUnit) :
    (v.sighted c).emitted.obits = v.emitted.obits ∧ (v.sighted c).emitted.sched = v.emitted.sched ∧
      (v.sighted c).emitted.pending = v.fresh c := by
  by_cases h : [c] ∈ keysOf v.encDict
  · simp [sighted_of_known h, EncView.fresh, h, emitted_pending hm]
  · have hc : c ∉ v.word := fun hc => h (hm.dict.units _ (hm.known h0) c hc)
    obtain ⟨n, hn⟩ := hm.emit_side h0
    have hn' : encLookup (v.encDict ++ [([c], v.count)]) v.word = some n := by simp [encLookup_append, hn]
    rw [sighted_of_new h, EncView.fresh, if_neg h]
    rcases hm.pending with hp | ⟨x, hp, hw⟩
    · have hold : pendingSingleton v.pending v.word = none := pendingSingleton_eq_none (by simp [hp])
      have hnew : pendingSingleton (pendingInsert v.pending c) v.word = none :=
        pendingSingleton_eq_none fun u hu => by rw [hu] at hc; simpa [hp, pendingInsert, eq_comm] using hc
      rw [emitted_obits, emitted_obits, emitted_sched_of_none hold, token_of_none hold hn, emitted_sched_of_none hnew,
        token_of_none hnew hn', emitted_pending_of_none hnew]
      exact ⟨rfl, rfl, by simp [hp, pendingInsert]⟩
    · have hxc : x ≠ c := by rintro rfl; simp [hw] at hc
      have hold : pendingSingleton v.pending v.word = some x := by simp [pendingSingleton, hp, hw]
      have hnew : pendingSingleton (pendingInsert v.pending c) v.word = some x := by
        simp [pendingSingleton, pendingInsert, hp, hw, hxc.symm]
      rw [emitted_obits, emitted_obits, emitted_sched_of_some hold, token_of_some hold, emitted_sched_of_some hnew,
        token_of_some hnew, emitted_pending_of_some hnew]
      exact ⟨rfl, rfl, by simp [hp, pendingInsert, hxc.symm, pendingErase_pair hxc]⟩

/-- A match that has begun goes on only with a unit that is known. -/
theorem known_of_goes_on (hm : EncMatching v) (h0 : v.word ≠ [])
    (hknown : v.word ++ [c] ∈ keysOf (v.sighted c).encDict) : [c] ∈ keysOf v.encDict := by
  by_contra hnew
  rw [sighted_keys, EncView.fresh, if_neg hnew] at hknown
  rcases List.mem_append.mp hknown with hkey | hkey
  · exact hnew (hm.dict.units _ hkey c (by simp))
  · exact h0 (by simpa [singletons] using hkey)

/-- ENC_UNIT where the match goes on. -/
theorem Told.unitStep_of_known (h : Told inp v) (hm : EncMatching v) (hc : v.U[v.ipos]? = some c)
    (hknown : v.word ++ [c] ∈ keysOf (v.sighted c).encDict) : Told inp (v.unitStep c) := by
  have hstep : v.unitStep c = { v.sighted c with word := v.word ++ [c], ipos := v.ipos + 1 } := by
    obtain ⟨n, hn⟩ := encLookup_of_mem hknown
    simp [EncView.unitStep, EncView.extended, (sighted_same v c).2.2.1, hn]
  have htake : v.U.take (v.ipos + 1) = v.U.take v.ipos ++ [c] := by simp [List.take_add_one, hc]
  rw [hstep]
  by_cases h0 : v.word = []
  · cases h with
    | speaking d last htells hsched hword => exact absurd h0 hword
    | silent hbits hsched hword hkeys hunits =>
      have hp : v.pending = [] := hword.symm.trans h0
      have hnew : [c] ∉ keysOf v.encDict := by simp [hkeys, hp, singletons]
      rw [sighted_of_new hnew]
      refine .silent hbits hsched ?_ ?_ ?_
      · simp [h0, hp, pendingInsert]
      · exact (assigned_keys v [c]).trans (by rw [hkeys, hp]; rfl)
      · exact (htake.trans (by rw [← hunits])).symm
  · have hseen := known_of_goes_on hm h0 hknown
    rw [sighted_of_known hseen] at hknown ⊢
    have hp : v.pending = [] := by
      rcases hm.pending with hp | ⟨x, hp, hw⟩
      · exact hp
      · rw [hw] at hknown
        exact absurd (hm.fresh x (by simp [hp]) [c] hknown) (by simp)
    cases h with
    | silent hbits hsched hword => exact absurd (hword.trans hp) h0
    | speaking d last htells hsched hword hkeys hunits =>
      refine .speaking d last htells hsched (by simp) ?_ ?_
      · obtain ⟨a, rest, hw⟩ := List.exists_cons_of_ne_nil h0
        simpa [hw] using hkeys
      · rw [htake, ← hunits, List.append_assoc]

/-- ENC_UNIT where the match ends. -/
theorem Told.unitStep_of_unknown (h : Told inp v) (hm : EncMatching v) (hc : v.U[v.ipos]? = some c)
    (hunknown : v.word ++ [c] ∉ keysOf (v.sighted c).encDict) : Told inp (v.unitStep c) := by
  have h0 : v.word ≠ [] := fun h0 => hunknown (by rw [h0]; exact (sighted_mid hm c).seen)
  obtain ⟨d, htells, hsched, hentries, hout⟩ := h.level hm h0
  obtain ⟨hobits', hsched', hpending'⟩ := sighted_emitted hm h0 c
  obtain ⟨-, -, hword, hU, -, -⟩ := sighted_same v c
  obtain ⟨-, hdict, -, hU', -⟩ := emitted_same (v.sighted c)
  have hstep : v.unitStep c
      = { (v.sighted c).emitted.assigned (v.word ++ [c]) with word := [c], ipos := v.ipos + 1 } := by
    simp [EncView.unitStep, EncView.extended, hword, encLookup_eq_none.mpr hunknown]
  rw [hstep]
  refine .speaking d v.word (hobits' ▸ htells) (hsched'.trans hsched.symm) (by simp) ?_ ?_
  · have hkeys := assigned_keys (v.sighted c).emitted (v.word ++ [c])
    rw [hdict, sighted_keys] at hkeys
    simpa [hentries, hpending', EncView.assigned] using hkeys
  · simp [EncView.assigned, hU', hU, List.take_add_one, hc, hout]

/-- ENC_UNIT keeps what is told. -/
theorem Told.unitStep (h : Told inp v) (hm : EncMatching v) (hc : v.U[v.ipos]? = some c) : Told inp (v.unitStep c) := by
  by_cases hk : v.word ++ [c] ∈ keysOf (v.sighted c).encDict
  · exact h.unitStep_of_known hm hc hk
  · exact h.unitStep_of_unknown hm hc hk

end Sys2Proof.Machine

/-! ### Truncated streams -/

namespace Sys2Proof.Machine

variable {s t : State} {inp : List Byte} {v : EncView}

/-- An Encoder without bounds, left alone by its host, between two steps of its job before ENC_EOS. -/
structure Encoding (inp : List Byte) (s : State) (v : EncView) : Prop where
  phase : s.phase = if v.ipos < v.U.length then .encScan else .encFlush
  holds : s.HoldsEnc v
  matching : EncMatching v
  told : Told inp v
  cursor : v.ipos ≤ v.U.length
  bounds : s.bounds = Bounds.unbounded
  host : s.host = []

theorem unitStep_U (v : EncView) (c : CodeUnit) : (v.unitStep c).U = v.U :=
  (extended_same _ _).1.trans (sighted_same v c).2.2.2.1

/-- One unit more. -/
theorem Encoding.unit (h : Encoding inp s v) (hlt : v.ipos < v.U.length) :
    ∃ t, step s = .next t ∧ Encoding inp t (v.unitStep v.U[v.ipos]) := by
  have hp : s.phase = .encScan := h.phase.trans (if_pos hlt)
  have hget : v.U[v.ipos]? = some v.U[v.ipos] := List.getElem?_eq_getElem hlt
  obtain ⟨t, ht, ⟨hv, hphase, -⟩, hbounds, hh⟩ := step_of_safe (step_encScan h.host hp)
    (by simp [State.busy, hp, Phase.busy]) h.bounds h.host (encUnit_safe allowsCapacity_bounded h.holds h.matching hget)
  have hU := unitStep_U v v.U[v.ipos]
  refine ⟨t, ht, ?_, hv, unitStep_matching h.matching _, h.told.unitStep h.matching hget, ?_, hbounds, hh⟩
  · rw [hphase, hp, hU]
    show (if v.ipos + 1 = v.U.length then _ else _) = if v.ipos + 1 < v.U.length then _ else _
    by_cases hlast : v.ipos + 1 = v.U.length
    · rw [if_pos hlast, if_neg (by omega)]
    · rw [if_neg hlast, if_pos (by omega)]
  · rw [hU]; exact hlt

/-- The units that are left, one at a step (R191). -/
theorem Encoding.run (h : Encoding inp s v) (n : Nat) (hn : v.ipos + n = v.U.length) :
    ∃ t v', Sys2Proof.core.run n s = .next t ∧ Encoding inp t v' ∧ v'.ipos = v'.U.length ∧ v'.U = v.U := by
  induction n generalizing s v with
  | zero => exact ⟨s, v, rfl, h, hn, rfl⟩
  | succ n ih =>
    obtain ⟨t, ht, hnext⟩ := h.unit (by omega)
    have hU := unitStep_U v v.U[v.ipos]
    obtain ⟨u, v', hrun, hend⟩ := ih hnext (by rw [hU]; show v.ipos + 1 + n = _; omega)
    exact ⟨u, v', (core_run_succ ht).trans hrun, hend.1, hend.2.1, hend.2.2.trans hU⟩

/-- The stream but for its EOS is told, and the EOS will be sent at the width a Decoder has then. -/
structure Flushed (inp : List Byte) (s : State) (bits : List Bool) (d : DecView) (last : Option (List CodeUnit)) : Prop
    where
  phase : s.phase = .encEos
  tells : Tells inp bits d last
  width : s.indexBits = some d.indexBits
  obits : s.obits = some bits
  bounds : s.bounds = Bounds.unbounded
  host : s.host = []

/-- The final word (R196). -/
theorem Encoding.flush (h : Encoding inp s v) (hend : v.ipos = v.U.length) :
    ∃ t bits d last, step s = .next t ∧ Flushed inp t bits d last ∧ d.out = v.U := by
  have hp : s.phase = .encFlush := h.phase.trans (if_neg (by omega))
  have hstep := step_encFlush h.host hp
  have hbusy : s.busy = true := by simp [State.busy, hp, Phase.busy]
  have hall : v.U.take v.ipos = v.U := by rw [hend, List.take_length]
  by_cases h0 : v.word = []
  · cases h.told with
    | speaking d last htells hsched hword => exact absurd h0 hword
    | silent hbits hsched hword hkeys hunits =>
      refine ⟨s.setPhase .encEos, [], bootView inp 0, none, ?_, ⟨rfl, .nothing, ?_, ?_, h.bounds, h.host⟩, ?_⟩
      · rw [hstep]; exact perform_of_ok (by simp [encFlush, h.holds.word, h0])
      · exact h.holds.indexBits.trans (congrArg (some ∘ Schedule.indexBits) hsched)
      · exact h.holds.obits.trans (congrArg some hbits)
      · rw [← hall, ← hunits, h0]; rfl
  · obtain ⟨d, htells, hsched, -, hout⟩ := h.told.level h.matching h0
    have hsafe : Safe Bounded encFlush s fun _ t => t.phase = .encEos ∧ t.HoldsEnc v.emitted := by
      unfold encFlush
      refine safe_read h.holds.word ?_
      rw [if_neg h0]
      refine safe_bind (safe_emit allowsCapacity_bounded h.holds h.matching.schedule.low
        (fun _ => h.matching.emit_side h0) fun t _ hv => safe_ok rfl ⟨rfl, { hv with }⟩)
    obtain ⟨t, ht, ⟨hphase, hv⟩, hbounds, hh⟩ := step_of_safe hstep hbusy h.bounds h.host hsafe
    refine ⟨t, _, d, _, ht, ⟨hphase, htells, ?_, hv.obits, hbounds, hh⟩, hout.trans hall⟩
    exact hv.indexBits.trans (congrArg (some ∘ Schedule.indexBits) hsched.symm)

/-- The EOS, after which RESULT is the packed stream (R197). -/
theorem Flushed.eos {bits : List Bool} {d : DecView} {last : Option (List CodeUnit)} (h : Flushed inp s bits d last) :
    ∃ t, step s = .next t ∧ t.obits = some (bits ++ encodeToken d.indexBits .eos) ∧
      t.RESULT = some (.bytes (pack (bits ++ encodeToken d.indexBits .eos))) := by
  have hfit : Bounds.allows s.bounds.maxOutBytes ((bits.length + d.indexBits + 7) / 8) = true := by rw [h.bounds]; rfl
  exact ⟨_, (step_encEos h.host h.phase).trans (perform_of_ok (encEos_run h.width h.obits (.inr hfit))), rfl, rfl⟩

theorem step_submit {m : Descriptor} {rest : List HostMove} {i : Instr} (hh : s.host = .submit m :: rest)
    (hd : decodeJob m = .ok i) : step s = exec i (s.setHost rest) :=
  (hostMovesAreMade s rest).1 m i hh hd

/-- With every bound ∞, an ENCODE of N units is done after N + 3 steps, its SUBMIT with them, and its stream tells any
Decoder the units. -/
theorem encode_told (inp : List Byte) {u : List CodeUnit} (hb : s.busy = false) (hbounds : s.bounds = Bounds.unbounded)
    (hh : s.host = [.submit ⟨0#1, .units u⟩]) :
    ∃ t bits d last, Sys2Proof.core.run (u.length + 3) s = .next t ∧ Tells inp bits d last ∧ d.out = u ∧
      t.obits = some (bits ++ encodeToken d.indexBits .eos) ∧
      t.RESULT = some (.bytes (pack (bits ++ encodeToken d.indexBits .eos))) := by
  have hfit : Bounds.allows (s.setHost []).bounds.maxInUnits u.length = true := by
    rw [State.setHost_bounds, hbounds]; rfl
  have hstart := (step_submit hh rfl).trans (exec_encode_run (s := s.setHost []) hb hfit)
  have hencoding : Encoding inp (encodeLoaded u (submitted .encode (s.setHost []))) (initialView u) := by
    refine ⟨?_, ⟨rfl, rfl, rfl, rfl, rfl, rfl, rfl, rfl, rfl⟩, initialView_matching u, .silent rfl rfl rfl rfl rfl,
      Nat.zero_le _, hbounds, rfl⟩
    cases u <;> simp [encodeLoaded, initialView]
  obtain ⟨t1, v, hrun, hv, hend, hU⟩ := hencoding.run u.length (Nat.zero_add _)
  obtain ⟨t2, bits, d, last, hflush, hflushed, hout⟩ := hv.flush hend
  obtain ⟨t3, heos, hobits, hresult⟩ := hflushed.eos
  exact ⟨t3, bits, d, last, (core_run_succ hstart).trans (core_run_snoc (core_run_snoc hrun hflush) heos),
    hflushed.tells, hout.trans hU, hobits, hresult⟩

/-- The Decoder's registers that INSERT writes. -/
def filled (d : DecDict) (n w e : Nat) (s : State) : State :=
  { s with decDict := some d, count := some n, indexBits := some w, enlargeIn := some e }

/-- With every bound ∞, an INSERT before the last tick of a width (R160, R162). -/
theorem insertEntry_filled {entry : List CodeUnit} {d : DecDict} {n w e : Nat} (hbounds : s.bounds = Bounds.unbounded)
    (he : 2 ≤ e) : insertEntry entry (filled d n w e s) = .ok () (filled (d ++ [entry]) (n + 1) w (e - 1) s) := by
  rw [insertEntry_run (s := filled d n w e s) (n := n) (d := d) (w := w) (e := e) rfl rfl rfl rfl (by omega)
    (show entryFits s.bounds _ _ = true by rw [hbounds]; rfl)
    (show tickFits s.bounds _ = true by rw [hbounds, tickFits_unbounded]), ticked, scheduleTick_many he]
  rfl

/-- With every bound ∞ the bootstrap goes through (R165). -/
theorem bootstrap_run (input : List Byte) (hbounds : s.bounds = Bounds.unbounded) :
    bootstrap (decodeLoaded input s) = .ok () (bootstrapped input s) := by
  show bootstrap (filled [] 0 2 4 (decodeLoaded input s))
    = .ok () (filled [[0#16], [1#16], [2#16]] 3 2 1 (decodeLoaded input s))
  simp [bootstrap, insertEntry_filled (s := decodeLoaded input s) hbounds]

/-- With every bound ∞, the SUBMIT of a DECODE makes a Decoder at its start. -/
theorem decode_started {inp : List Byte} (hb : s.busy = false) (hbounds : s.bounds = Bounds.unbounded)
    (hh : s.host = [.submit ⟨1#1, .bytes inp⟩]) : ∃ t, step s = .next t ∧ Decoding t (bootView inp 0) none := by
  have hfit : Bounds.allows (s.setHost []).bounds.maxInBytes inp.length = true := by
    rw [State.setHost_bounds, hbounds]; rfl
  have hboot := bootstrap_run (s := submitted .decode (s.setHost [])) inp hbounds
  refine ⟨decodeReady (bootstrapped inp (submitted .decode (s.setHost []))), ?_, rfl, rfl,
    ⟨rfl, rfl, rfl, rfl, rfl, rfl, rfl⟩, hbounds, rfl⟩
  rw [step_submit hh rfl, exec_decode_run (s := s.setHost []) hb hfit]
  exact perform_of_ok (by simp [hboot])

/-- Settles O58: a Decoder of the cut stream hears the tokens that are whole, and the read of the next one ends the
job, at the latest that of the EOS. -/
theorem truncatedStreamsFail : Obligations.TruncatedStreamsFail := by
  intro s s' t u bits j hb hbounds hh hrun hobits hj hb' hbounds' hh'
  obtain ⟨t', told, d, last, hrun', htells, -, hobits', hresult⟩ :=
    encode_told ((pack bits).take j) hb hbounds hh
  obtain rfl : t' = t := Host.Outcome.next.inj (hrun'.symm.trans hrun)
  obtain rfl : told ++ encodeToken d.indexBits .eos = bits := Option.some.inj (hobits'.symm.trans hobits)
  refine ⟨hresult, ?_⟩
  have hlen : ((pack (told ++ encodeToken d.indexBits .eos)).take j).length = j := by
    rw [List.length_take, length_pack]; omega
  obtain ⟨s0, hstart, hdecoding⟩ := decode_started hb' hbounds' hh'
  obtain ⟨t1, hcutrun, hcut⟩ := htells.run_cut hdecoding ((carries_pack _).take j) (by rw [hlen]; exact hj)
  rw [hlen] at hcutrun
  exact ⟨t1, (core_run_succ hstart).trans hcutrun, hcut.phase, hcut.result, hcut.err⟩

end Sys2Proof.Machine

/-! ### Tokens at any bit position -/

namespace Sys2Proof

variable {p : Place} {inp inp' : List Byte} {first : Bool} {W pos q r c x : Nat} {i : Instr}

theorem Place.check_eq_none : p.check = none ↔ 2 ≤ p.width ∧ (p.first = true → p.width = 2) := by
  unfold Place.check
  split
  case isTrue h => simp; omega
  case isFalse h => simp [Nat.not_lt.mp h]

/-! Where each token is well-formed. -/

@[simp] theorem wf_lit8 (v : Byte) : (Instr.lit8 v).wf p = true ↔ p.check = none := Option.isNone_iff_eq_none

@[simp] theorem wf_lit16 (v : CodeUnit) : (Instr.lit16 v).wf p = true ↔ p.check = none := Option.isNone_iff_eq_none

@[simp] theorem wf_eos : Instr.eos.wf p = true ↔ p.check = none := Option.isNone_iff_eq_none

/-- An index is no first token, no control code, and fits the CODE field (R97, R98). -/
@[simp] theorem wf_idx (n : Nat) :
    (Instr.idx n).wf p = true ↔ 2 ≤ p.width ∧ p.first = false ∧ 3 ≤ n ∧ n < 2 ^ p.width := by
  simp only [Instr.wf, Instr.check, Option.isNone_iff_eq_none]
  split_ifs with hwidth hfirst hlow hhigh
  · simp; omega
  · simp [hfirst]
  · simp; omega
  · simp; omega
  · simpa using ⟨by omega, Bool.eq_false_of_not_eq_true hfirst, by omega, by omega⟩

@[simp] theorem wf_illegalFirst : Instr.illegalFirst.wf p = true ↔ p.first = true ∧ p.width = 2 := by
  simp only [Instr.wf, Instr.check, Option.isNone_iff_eq_none]
  split_ifs with h <;> simpa using h

/-- Every well-formed token needs a CODE field of at least 2 bits (R66). -/
theorem two_le_width_of_wf (hi : i.isToken = true) (h : i.wf p = true) : 2 ≤ p.width := by
  cases i with
  | lit8 v => exact (Place.check_eq_none.mp ((wf_lit8 v).mp h)).1
  | lit16 v => exact (Place.check_eq_none.mp ((wf_lit16 v).mp h)).1
  | eos => exact (Place.check_eq_none.mp (wf_eos.mp h)).1
  | idx n => exact ((wf_idx n).mp h).1
  | illegalFirst => exact (wf_illegalFirst.mp h).2.ge
  | encode _ => cases hi
  | decode _ => cases hi

/-- As the first token, a code that is no control code is ILLEGAL_FIRST (R101). -/
theorem decodeCode_illegalFirst (hc : 3 ≤ c) : decodeCode true inp c q = .token .illegalFirst q := by
  simp [decodeCode, codeLit16, codeLit8, codeEos, show c ≠ 0 by omega, show c ≠ 1 by omega, show c ≠ 2 by omega]

theorem readsToken_illegalFirst (hW : 2 ≤ W) (h : Carries inp pos (encodeToken W .illegalFirst)) :
    ReadsToken true W inp pos .illegalFirst :=
  readsToken_of_code (n := 0) hW (code_lt_two_pow hW (by decide)) rfl h (fun _ => decodeCode_illegalFirst le_rfl)
    fun hin hout => absurd hin (by omega)

/-- A well-formed token is read wherever the input carries its encoding (R91, R99). -/
theorem readsToken_of_wf (hi : i.isToken = true) (hwf : i.wf p = true)
    (h : Carries inp pos (encodeToken p.width i)) : ReadsToken p.first p.width inp pos i := by
  have hW := two_le_width_of_wf hi hwf
  cases i with
  | lit8 v => exact readsToken_lit8 hW h
  | lit16 v => exact readsToken_lit16 hW h
  | eos => exact readsToken_eos hW h
  | idx n =>
    obtain ⟨-, hfirst, hn, hlt⟩ := (wf_idx n).mp hwf
    exact hfirst ▸ readsToken_idx hW hn hlt h
  | illegalFirst => exact (wf_illegalFirst.mp hwf).1 ▸ readsToken_illegalFirst hW h
  | encode _ => cases hi
  | decode _ => cases hi

/-- A packed string carries each part of it at its place. -/
theorem carries_pack_middle (before bits after : List Bool) :
    Carries (pack (before ++ bits ++ after)) before.length bits := by
  have hmiddle := (carries_append.mp (carries_append.mp (carries_pack (before ++ bits ++ after))).1).2
  rwa [Nat.zero_add] at hmiddle

/-- Settles O8: the packed string carries the token's encoding at its place, and such a token is read. -/
theorem tokenRoundTripAnywhere : Obligations.TokenRoundTripAnywhere := by
  intro p i before after hi hwf
  refine (readsToken_of_wf hi hwf (carries_pack_middle before _ after)).1 ?_
  rw [← Machine.length_encodeToken, length_pack, List.length_append, List.length_append]
  omega

/-! ### What the decoder reads -/

/-- Settles O9: by the reads a decoded token was made of, each of a field of at least 2 bits. -/
theorem decodedTokensAreWellFormed : Obligations.DecodedTokensAreWellFormed := by
  intro p inp bpos q i hp h
  obtain ⟨hW, hfirst⟩ := Place.check_eq_none.mp hp
  refine ⟨(decodeToken_le h).2, ?_⟩
  obtain ⟨c, p1, hcode, htoken⟩ := decodeToken_token h
  obtain ⟨rfl, hlt, -, hin⟩ := srcReadRev_inv hcode
  have hin : bpos + p.width ≤ 8 * inp.length := hin.resolve_left (by omega)
  rcases htoken with ⟨-, v, hv, rfl⟩ | ⟨-, v, hv, rfl⟩ | ⟨-, rfl, rfl⟩ | ⟨-, rfl, hf, rfl⟩ | ⟨hc, rfl, hf, rfl⟩
  · obtain ⟨rfl, -, -, hend⟩ := srcReadRev_inv hv
    exact ⟨(wf_lit8 _).mpr hp, Nat.add_assoc .., hend.resolve_left (by decide)⟩
  · obtain ⟨rfl, -, -, hend⟩ := srcReadRev_inv hv
    exact ⟨(wf_lit16 _).mpr hp, Nat.add_assoc .., hend.resolve_left (by decide)⟩
  · exact ⟨wf_eos.mpr hp, rfl, hin⟩
  · exact ⟨wf_illegalFirst.mpr ⟨hf, hfirst hf⟩, rfl, hin⟩
  · exact ⟨(wf_idx c).mpr ⟨hW, hf, hc, hlt⟩, rfl, hin⟩

/-- Once the CODE field is read, the rest of the token is its code's. -/
theorem decodeToken_of_code (h : srcReadRev inp pos W = .ok (c, q)) :
    decodeToken first W inp pos = decodeCode first inp c q := by
  simp only [decodeToken, h]

theorem decodeLit8_of_read (h : srcReadRev inp q 8 = .ok (x, r)) :
    decodeLit8 inp q = .token (.lit8 (BitVec.ofNat 8 x)) r := by
  simp only [decodeLit8, lit8Bits, h]

theorem decodeLit16_of_read (h : srcReadRev inp q 16 = .ok (x, r)) :
    decodeLit16 inp q = .token (.lit16 (BitVec.ofNat 16 x)) r := by
  simp only [decodeLit16, lit16Bits, h]

/-- Settles O10: each read of the token gives the same on the other input, whose bits agree up to the read's end. -/
theorem laterBitsAreNotRead : Obligations.LaterBitsAreNotRead := by
  intro first W inp inp' bpos q i h hq hbits
  have agree : ∀ {p n v r}, srcReadRev inp p n = .ok (v, r) → r ≤ q → srcReadRev inp' p n = .ok (v, r) :=
    fun hr hle => srcReadRev_agree hr (fun k hk => hbits k (hk.trans_le hle)) (hle.trans hq)
  obtain ⟨c, p1, hcode, htoken⟩ := decodeToken_token h
  have code (hle : p1 ≤ q) : decodeToken first W inp' bpos = decodeCode first inp' c p1 :=
    decodeToken_of_code (agree hcode hle)
  rcases htoken with ⟨rfl, v, hv, rfl⟩ | ⟨rfl, v, hv, rfl⟩ | ⟨rfl, rfl, rfl⟩ | ⟨hc, rfl, rfl, rfl⟩ | ⟨hc, rfl, rfl, rfl⟩
  · rw [code (by have := (srcReadRev_inv hv).1; omega)]
    exact decodeCode_lit8.trans (decodeLit8_of_read (agree hv le_rfl))
  · rw [code (by have := (srcReadRev_inv hv).1; omega)]
    exact decodeCode_lit16.trans (decodeLit16_of_read (agree hv le_rfl))
  · exact (code le_rfl).trans decodeCode_eos
  · exact (code le_rfl).trans (decodeCode_illegalFirst hc)
  · exact (code le_rfl).trans (decodeCode_idx hc)

/-! ### Descriptors and worked encodings -/

/-- A descriptor is a job exactly when it is that job's (R106). -/
theorem decodeJob_eq_ok {d : Descriptor} : decodeJob d = .ok i ↔ encodeJob i = some d := by
  obtain ⟨dir, input⟩ := d
  cases input with
  | units u =>
    by_cases hdir : dir = 0#1
    · subst hdir; cases i <;> simp [decodeJob, encodeJob, eq_comm]
    · cases i <;> simp [decodeJob, encodeJob, hdir, Ne.symm hdir]
  | bytes b =>
    by_cases hdir : dir = 1#1
    · subst hdir; cases i <;> simp [decodeJob, encodeJob, eq_comm]
    · cases i <;> simp [decodeJob, encodeJob, hdir, Ne.symm hdir]

/-- Settles O11: a direction with its own kind of input is the job, and nothing else is one. -/
theorem descriptorsSelectJobs : Obligations.DescriptorsSelectJobs :=
  ⟨fun _ => decodeJob_eq_ok.mpr rfl, fun _ => decodeJob_eq_ok.mpr rfl, fun _ _ => decodeJob_eq_ok⟩

/-- Settles O12: five fixed words, each decoded by evaluation. -/
theorem workedEncodingsDecode : Obligations.WorkedEncodingsDecode := by
  refine ⟨?_, ?_, ?_, ?_, ?_⟩ <;> decide

end Sys2Proof

/-! ### The tokens the Decoder runs -/

namespace Sys2Proof.Machine

variable {s t : State} {d : DecDict} {word entry : List CodeUnit} {n k : Nat} {c : CodeUnit}

/-- LIT8 and LIT16 of one value run the same rule in a phase of the Decoder (R232, R233). -/
theorem exec_lit8_eq_lit16_first (hp : s.phase = .decFirst) {v : Byte} (hv : v.toNat = c.toNat) :
    exec (.lit8 v) s = exec (.lit16 c) s := by
  rw [(DecoderRule.firstLit8 v).exec_eq hp, (DecoderRule.firstLit16 c).exec_eq hp, setWidth_of_toNat_eq v c hv]

/-- Settles O23: the rule of a first literal runs to its end, or stops at the first of its checks that fails. -/
theorem firstLiteralRuns : Obligations.FirstLiteralRuns := by
  intro s n w e d o c ok hp hn hd hw he h1 ho hok
  have hrule := (DecoderRule.firstLit16 c).exec_eq hp
  have hlit8 := fun (v : Byte) (hv : v.toNat = c.toNat) => exec_lit8_eq_lit16_first hp hv
  cases ok with
  | true =>
    obtain ⟨⟨hu, hf⟩, ht⟩ : (Bounds.allows s.bounds.maxOutUnits (o.length + 1) = true ∧
        entryFits s.bounds n 1 = true) ∧ tickFits s.bounds ⟨w, e⟩ = true := by simpa using hok.symm
    have hrun := hrule.trans (perform_of_ok (firstLiteral_run hn hd hw he h1 ho hf ht hu))
    refine ⟨_, hrun, fun v hv => (hlit8 v hv).trans hrun, fun _ => ?_, by simp⟩
    rw [ticked, scheduleTick_cases w e h1]
    rfl
  | false =>
    obtain ⟨t, ht, hpast⟩ := perform_overflows (firstLiteral_overflows (c := c) hn hd hw he h1 ho hok.symm)
    have hrun := hrule.trans ht
    exact ⟨t, hrun, fun v hv => (hlit8 v hv).trans hrun, by simp, fun _ => hpast⟩

/-! RESOLVE, in the three cases of R241. -/

theorem resolve_entry (hk : s.count = some k) (hd : s.decDict = some d) (hlt : n < k) (hn : d[n]? = some entry) :
    resolve n s = .ok entry s := by
  simp [resolve, hk, hlt, hd, decGet, hn]

theorem resolve_self (hn : s.count = some n) (hw : s.word = some word) (hc : word.head? = some c) :
    resolve n s = .ok (word ++ [c]) s := by
  obtain ⟨rest, rfl⟩ := List.head?_eq_some_iff.mp hc
  simp [resolve, hn, hw, headUnit]

theorem resolve_beyond (hk : s.count = some k) (hlt : k < n) :
    resolve n s = .error (.job (.corruptTarget n k)) s := by
  simp [resolve, hk, hlt.le.not_gt, hlt.ne']

/-- Settles O25: RESOLVE gives the entry, and COMMIT of it runs to its end or stops at a check. -/
theorem indexTokenRuns : Obligations.IndexTokenRuns := by
  intro s n w e d o word entry c ok hp hn3 hk hd hw he h1 ho hword hc hentry hok
  have hresolve : resolve n s = .ok entry s := by
    rcases hentry with hentry | ⟨rfl, hhead, rfl⟩
    · exact resolve_entry hk hd (List.getElem?_eq_some_iff.mp hentry).1 hentry
    · exact resolve_self hk hword hhead
  obtain ⟨rest, rfl⟩ := List.head?_eq_some_iff.mp hc
  have hrule := (DecoderRule.loopIdx n hn3).exec_eq hp
  cases ok with
  | true =>
    obtain ⟨⟨hu, hf⟩, ht⟩ : (Bounds.allows s.bounds.maxOutUnits (o.length + (c :: rest).length) = true ∧
        entryFits s.bounds d.length (word.length + 1) = true) ∧ tickFits s.bounds ⟨w, e⟩ = true := by
      simpa using hok.symm
    have hcommit := commit_run hk hd hw he h1 ho hword hf ht hu
    refine ⟨fun _ => ?_, by simp⟩
    rw [hrule, perform_of_ok (by simpa [loopIdx, hresolve] using hcommit), ticked, scheduleTick_cases w e h1]
    rfl
  | false =>
    obtain ⟨t, ht, hpast⟩ := perform_overflows (m := loopIdx n)
      (overflows_right hresolve (commit_overflows hk hd hw he h1 ho hword hok.symm))
    exact ⟨by simp, fun _ => ⟨t, hrule.trans ht, hpast⟩⟩

/-- Settles O26: RESOLVE raises before any check is made. -/
theorem indexBeyondCountIsCorrupt : Obligations.IndexBeyondCountIsCorrupt := by
  intro s n k hp hk hn hlt
  rw [(DecoderRule.loopIdx n hn).exec_eq hp]
  have hraise : loopIdx n s = .error (.job (.corruptTarget n k)) s := by
    simp only [loopIdx, bind_run, resolve_beyond hk hlt]
  exact perform_of_job hraise

/-- Settles O28: the rule reads the cursor and raises. -/
theorem illegalFirstIsCorrupt : Obligations.IllegalFirstIsCorrupt := by
  intro s p hp hb hdir
  have hraise : firstIllegal s = .error (.job (.corruptFirst p)) s := by simp [firstIllegal, hb]
  refine ⟨_, (DecoderRule.illegalFirst.exec_eq hp).trans (perform_of_job hraise), ?_, rfl⟩
  rw [status_raise, hdir, JobError.kind]
  rfl

/-! ### The tokens the Encoder emits -/

/-- An emission samples the width once, before its ticks (R192). -/
theorem perform_at_width {w : Nat} (hw : s.indexBits = some w) (f : Nat → M Unit) :
    perform (readIndexBits >>= f) s = perform (f w) s := by
  simp [perform, hw]

/-- What EMIT_LIT8 and EMIT_LIT16 share: the code, an operand `x` of `n` bits, and two ticks (R193, R194). -/
def emitLit (code x n W : Nat) (u : CodeUnit) : M Unit := do
  sinkWriteRev code W
  sinkWriteRev x n
  tick
  clearPending u
  tick

theorem emitLit8_eq (u : CodeUnit) (W : Nat) : emitLit8 u W = emitLit codeLit8 u.toNat lit8Bits W u := rfl

theorem emitLit16_eq (u : CodeUnit) (W : Nat) : emitLit16 u W = emitLit codeLit16 u.toNat lit16Bits W u := rfl

/-- The performance of a literal's emission: it runs to its end, or stops at the first check that fails. -/
theorem perform_emitLit {w e code x n : Nat} {p : List CodeUnit} {bits : List Bool} (hw : s.indexBits = some w)
    (he : s.enlargeIn = some e) (h1 : 1 ≤ e) (hp : s.pending = some p) (hb : s.obits = some bits) (hn : n ≠ 0)
    {ok : Bool} (hok : ok = (Bounds.allows s.bounds.maxOutBytes ((bits.length + (w + n) + 7) / 8) &&
      tickFits s.bounds ⟨w, e⟩ && tickFits s.bounds (ticks 1 ⟨w, e⟩))) :
    (ok = true → perform (emitLit code x n w c) s = .next { s with
      obits := some (bits ++ lsbFirst w code ++ lsbFirst n x),
      indexBits := some (ticks 2 ⟨w, e⟩).indexBits, enlargeIn := some (ticks 2 ⟨w, e⟩).enlargeIn,
      pending := some (pendingErase p c) }) ∧
    (ok = false → ∃ t, perform (emitLit code x n w c) s = .next t ∧ t.PastCapacity) := by
  cases ok with
  | true =>
    obtain ⟨⟨ho, ht⟩, ht2⟩ : (Bounds.allows s.bounds.maxOutBytes ((bits.length + (w + n) + 7) / 8) = true ∧
        tickFits s.bounds ⟨w, e⟩ = true) ∧ tickFits s.bounds (ticks 1 ⟨w, e⟩) = true := by simpa using hok.symm
    exact ⟨fun _ => perform_of_ok (emitLit_run hw he h1 hp hb ht ht2 ho), by simp⟩
  | false => exact ⟨by simp, fun _ => perform_overflows (emitLit_overflows hw he h1 hp hb hn hok.symm)⟩

/-- Settles O29: LIT16 and LIT8 are one emission, of 16 and of 8 bits after the code. -/
theorem encoderEmitsLiterals : Obligations.EncoderEmitsLiterals := by
  intro s w e p bits c hp hw he h1 hpend hb
  simp only [← lsbFirst_eq_map]
  refine ⟨fun ok hok => ?_, fun v ok hok => ?_⟩
  · rw [(EncoderRule.lit16 c hp).exec_eq, perform_at_width hw, emitLit16_eq]
    exact perform_emitLit hw he h1 hpend hb (by decide) hok
  · have hvalue : (v.setWidth 16 : CodeUnit).toNat = v.toNat := BitVec.toNat_setWidth_of_le (by decide)
    rw [(EncoderRule.lit8 v hp).exec_eq, perform_at_width hw, emitLit8_eq, hvalue]
    exact perform_emitLit hw he h1 hpend hb (by decide) hok

/-- The field is written where it fits, and where it has no bit, which checks nothing (R121, R122). -/
theorem sinkWriteRev_run_of_fits {bits : List Bool} {x n : Nat} (hb : s.obits = some bits)
    (hfit : n = 0 ∨ Bounds.allows s.bounds.maxOutBytes ((bits.length + n + 7) / 8) = true) :
    sinkWriteRev x n s = .ok () (s.setObits (bits ++ lsbFirst n x)) := by
  rcases hfit with rfl | hfit
  · have hsame : s.setObits bits = s := by cases s; simp_all [State.setObits]
    simpa [sinkWriteRev, lsbFirst, hsame] using sinkWriteBits_zero _
  · exact sinkWriteRev_run hb hfit

/-- Settles O30: the emission writes its one field and ticks, or stops at one of the two checks. -/
theorem encoderEmitsIndices : Obligations.EncoderEmitsIndices := by
  intro s n w e bits ok hp hn hw he h1 hb hok
  rw [(EncoderRule.idx n hn hp).exec_eq, perform_at_width hw, ← lsbFirst_eq_map]
  cases ok with
  | true =>
    obtain ⟨hfit, ht⟩ : (w = 0 ∨ Bounds.allows s.bounds.maxOutBytes ((bits.length + w + 7) / 8) = true) ∧
        tickFits s.bounds ⟨w, e⟩ = true := by simpa using hok.symm
    have htick := tick_run (s := s.setObits (bits ++ lsbFirst w n)) hw he (by omega) ht
    refine ⟨fun _ => ?_, by simp⟩
    rw [perform_of_ok (by simpa [emitIdx, sinkWriteRev_run_of_fits hb hfit] using htick), ticked,
      scheduleTick_cases w e h1]
    rfl
  | false => exact ⟨by simp, fun _ => perform_overflows (emitIdx_overflows hw he h1 hb hok.symm)⟩

/-! ### Every index the Encoder emits fits -/

/-- The view of a state of the invariant that still has its final word to emit. -/
theorem encMatching_of_inv (h : s.Inv) (hp : s.phase = .encScan ∨ s.phase = .encFlush) :
    ∃ v, s.HoldsEnc v ∧ EncMatching v := by
  rcases hp with hp | hp <;> simp only [State.Inv, hp] at h
  all_goals
    obtain ⟨-, v, hv, hm, -⟩ := h
    exact ⟨v, hv, hm⟩

/-- Settles O35: the countdown is in balance with the count, so an index of the dictionary is below 2^W. -/
theorem emittedIndexFitsItsField : Obligations.EmittedIndexFitsItsField := by
  intro s w n p word d hinv hp hw hpend hword hd hnot hn
  obtain ⟨v, hv, hm⟩ := encMatching_of_inv hinv hp
  obtain rfl : v.indexBits = w := Option.some.inj (hv.indexBits.symm.trans hw)
  obtain rfl : v.pending = p := Option.some.inj (hv.pending.symm.trans hpend)
  obtain rfl : v.word = word := Option.some.inj (hv.word.symm.trans hword)
  obtain rfl : v.encDict = d := Option.some.inj (hv.encDict.symm.trans hd)
  exact index_lt_two_pow hm hnot hn

end Sys2Proof.Machine

/-! ### The writes of BitSink -/

namespace Sys2Proof.Machine

/-- Settles O2: the write of no bit, the write that fits and the raise, each by its rule. -/
theorem naturalWriteAppendsMsbFirst : Obligations.NaturalWriteAppendsMsbFirst := by
  intro s bits value n hs
  refine ⟨?_, fun _ hfit => ?_, fun hn hfull => sinkWriteBits_raise hs hn hfull⟩
  · rintro rfl
    exact sinkWriteBits_zero value
  · rw [← msbFirst_eq_map]
    exact sinkWriteBits_run hs hfit

/-- Settles O3: a reversed write is the natural write of the reversed value, with the same corners. -/
theorem reversedWriteAppendsLsbFirst : Obligations.ReversedWriteAppendsLsbFirst := by
  intro s bits value n hs
  refine ⟨?_, fun _ hfit => ?_, fun hn hfull => sinkWriteBits_raise hs hn hfull⟩
  · rintro rfl
    exact sinkWriteBits_zero _
  · rw [← lsbFirst_eq_map]
    exact sinkWriteRev_run hs hfit

end Sys2Proof.Machine

/-! ### The accumulator form of BitSink

The accumulator is a byte of the packed string at every moment, the one the next bit belongs to: a write puts one bit
into it, and it is the zero byte when no bit of it is written yet. -/

namespace Sys2Proof

variable {bits bits' : List Bool} {j : Nat}

/-- A packed byte is told by its eight bits. -/
theorem packByte_eq_iff {x : Byte} :
    packByte bits j = x ↔ ∀ i < 8, bitAt bits (8 * j + i) = x.getLsbD (7 - i) := by
  refine ⟨fun h i hi => by rw [← getLsbD_packByte bits j hi, h], fun h => BitVec.eq_of_getLsbD_eq fun k hk => ?_⟩
  have hmirror : 7 - (7 - k) = k := by omega
  simpa only [hmirror] using (getLsbD_packByte bits j (i := 7 - k) (by omega)).trans (h (7 - k) (by omega))

theorem bitAt_of_length_le {k : Nat} (h : bits.length ≤ k) : bitAt bits k = false := by simp [bitAt, h]

/-- A byte past the end of the string is zero (D11). -/
theorem packByte_of_length_le (h : bits.length ≤ 8 * j) : packByte bits j = 0#8 :=
  packByte_eq_iff.mpr fun i _ => by rw [bitAt_of_length_le (by omega), BitVec.getLsbD_zero]

/-- A byte that is full already does not see what is appended. -/
theorem packByte_append_of_full (h : 8 * j + 8 ≤ bits.length) : packByte (bits ++ bits') j = packByte bits j :=
  packByte_eq_iff.mpr fun i hi => by rw [bitAt_append_left (by omega), getLsbD_packByte bits j hi]

/-- The bit `b` put into a byte as its wire bit `f`: `b << (7 - f)` of R127. -/
theorem getLsbD_bit_shiftLeft (b : Bool) {f i : Nat} (hf : f < 8) (hi : i < 8) :
    ((BitVec.ofBool b).setWidth 8 <<< (7 - f)).getLsbD (7 - i) = if i = f then b else false := by
  have hone : ∀ (b : Bool) (f i : Fin 8),
      ((BitVec.ofBool b).setWidth 8 <<< (7 - f.val)).getLsbD (7 - i.val) = if i = f then b else false := by decide
  simpa only [Fin.mk.injEq] using hone b ⟨f, hf⟩ ⟨i, hi⟩

/-- An appended bit is or-ed into the byte it belongs to. -/
theorem packByte_append_singleton (bits : List Bool) (b : Bool) :
    packByte (bits ++ [b]) (bits.length / 8)
      = packByte bits (bits.length / 8) ||| ((BitVec.ofBool b).setWidth 8 <<< (7 - bits.length % 8)) := by
  refine packByte_eq_iff.mpr fun i hi => ?_
  rw [BitVec.getLsbD_or, getLsbD_packByte _ _ hi, getLsbD_bit_shiftLeft b (by omega) hi]
  rcases Nat.lt_trichotomy i (bits.length % 8) with hlt | heq | hgt
  · rw [bitAt_append_left (by omega), if_neg (by omega), Bool.or_false]
  · have hend : 8 * (bits.length / 8) + i = bits.length := by omega
    have hlast : bitAt (bits ++ [b]) bits.length = b := bitAt_append_right bits [b] 0
    rw [hend, hlast, bitAt_of_length_le le_rfl, if_pos heq, Bool.false_or]
  · rw [bitAt_of_length_le (by simp; omega), bitAt_of_length_le (by omega), if_neg (by omega)]
    rfl

end Sys2Proof

namespace Sys2Proof.Machine

/-- What the accumulator form holds of a string: its full bytes, the byte the next bit belongs to, and how many bits
of it are written. -/
def sinkAccOf (bits : List Bool) : SinkAcc :=
  ⟨(List.range (bits.length / 8)).map (packByte bits), packByte bits (bits.length / 8), bits.length % 8⟩

@[simp] theorem sinkAccOf_fill (bits : List Bool) : (sinkAccOf bits).fill = bits.length % 8 := rfl

theorem sinkAccOf_nil : sinkAccOf [] = sinkAccEmpty := by decide

/-- The full bytes stay as they are when a bit is appended. -/
theorem map_packByte_append_singleton (bits : List Bool) (b : Bool) :
    (List.range (bits.length / 8)).map (packByte (bits ++ [b]))
      = (List.range (bits.length / 8)).map (packByte bits) :=
  List.map_congr_left fun j hj => packByte_append_of_full (by have := List.mem_range.mp hj; omega)

/-- One bit write of R127 holds the string with the bit appended. -/
theorem sinkAccBit_sinkAccOf (bits : List Bool) (b : Bool) :
    sinkAccBit (sinkAccOf bits) b = sinkAccOf (bits ++ [b]) := by
  have hlen : (bits ++ [b]).length = bits.length + 1 := by simp
  simp only [sinkAccBit, sinkAccOf, hlen, ← packByte_append_singleton]
  split
  case isTrue hfull =>
    have hdiv : (bits.length + 1) / 8 = bits.length / 8 + 1 := by omega
    have hmod : (bits.length + 1) % 8 = 0 := by omega
    rw [hdiv, hmod, List.range_succ, List.map_append, map_packByte_append_singleton,
      packByte_of_length_le (j := bits.length / 8 + 1) (by omega)]
    rfl
  case isFalse hroom =>
    have hdiv : (bits.length + 1) / 8 = bits.length / 8 := by omega
    have hmod : (bits.length + 1) % 8 = bits.length % 8 + 1 := by omega
    rw [hdiv, hmod, map_packByte_append_singleton]

theorem sinkAccBits_empty (bits : List Bool) : sinkAccBits sinkAccEmpty bits = sinkAccOf bits := by
  induction bits using List.reverseRecOn with
  | nil => exact sinkAccOf_nil.symm
  | append_singleton bits b ih =>
    calc sinkAccBits sinkAccEmpty (bits ++ [b])
        = sinkAccBit (sinkAccBits sinkAccEmpty bits) b := by simp [sinkAccBits]
      _ = sinkAccOf (bits ++ [b]) := by rw [ih, sinkAccBit_sinkAccOf]

/-- The bytes of `pack` are the full ones and the partial one, if it holds any bit. -/
theorem sinkAccFinish_sinkAccOf (bits : List Bool) : sinkAccFinish (sinkAccOf bits) = pack bits := by
  rcases Nat.eq_zero_or_pos (bits.length % 8) with hwhole | hpartial
  · have hbytes : (bits.length + 7) / 8 = bits.length / 8 := by omega
    rw [sinkAccFinish, sinkAccOf_fill, if_neg (by omega), pack, hbytes]
    rfl
  · have hbytes : (bits.length + 7) / 8 = bits.length / 8 + 1 := by omega
    rw [sinkAccFinish, sinkAccOf_fill, if_pos hpartial, pack, hbytes, List.range_succ, List.map_append]
    rfl

/-- Settles O5: fed bit by bit, the accumulator form holds `sinkAccOf` of the string, which finishes as `pack`. -/
theorem accumulatorSinkIsEquivalent : Obligations.AccumulatorSinkIsEquivalent := by
  intro bits
  rw [sinkAccBits_empty]
  exact ⟨sinkAccFinish_sinkAccOf bits, sinkAccOf_fill bits⟩

end Sys2Proof.Machine

/-! ### The reads of BitSource -/

namespace Sys2Proof

variable {inp : List Byte} {p n : Nat}

theorem srcReadBits_zero (inp : List Byte) (p : Nat) : srcReadBits inp p 0 = .ok (0, p) := if_pos rfl

/-- A read of some bits with none left (R143). -/
theorem srcReadBits_endOfStream (hn : n ≠ 0) (h : bitsLeft inp p = 0) :
    srcReadBits inp p n = .error (.endOfStream p) := by
  simp [srcReadBits, hn, h]

/-- A read of more bits than are left (R144). -/
theorem srcReadBits_truncated (hsome : bitsLeft inp p ≠ 0) (hfew : bitsLeft inp p < n) :
    srcReadBits inp p n = .error (.truncated p n (bitsLeft inp p)) := by
  have hn : n ≠ 0 := Nat.ne_zero_of_lt hfew
  simp [srcReadBits, hn, hsome, hfew]

/-- Settles O6: each case is told by the number of bits left, and the bits of a read are those of its loop. -/
theorem sourceReadCases : Obligations.SourceReadCases := by
  intro inp p n _
  refine ⟨?_, fun hn hend => ?_, fun _ hsome hfew => ?_, fun _ hall => ?_⟩
  · rintro rfl
    exact srcReadBits_zero inp p
  · exact srcReadBits_endOfStream hn (by unfold bitsLeft; omega)
  · exact srcReadBits_truncated (by unfold bitsLeft; omega) (by unfold bitsLeft; omega)
  · exact ⟨_, srcReadBits_ok hall, (readLoop_spec inp n p 0).2, fun i hi => testBit_readLoop inp n p hi⟩

/-- A token takes its CODE field at least (R99). -/
theorem add_width_le_of_decodeToken {first : Bool} {W q : Nat} {i : Instr}
    (h : decodeToken first W inp p = .token i q) : p + W ≤ q := by
  obtain ⟨c, p1, hcode, hrest⟩ := decodeToken_token h
  obtain ⟨rfl, -⟩ := srcReadRev_inv hcode
  rcases hrest with ⟨-, v, hv, -⟩ | ⟨-, v, hv, -⟩ | ⟨-, rfl, -⟩ | ⟨-, rfl, -⟩ | ⟨-, rfl, -⟩
  · exact (srcReadRev_inv hv).1 ▸ Nat.le_add_right _ 8
  · exact (srcReadRev_inv hv).1 ▸ Nat.le_add_right _ 16
  all_goals exact le_rfl

end Sys2Proof

namespace Sys2Proof.Machine

variable {s t : State} {inp : List Byte} {p : Nat}

/-- Settles O40: the step fetches a token, and the fetch stops at the failing read. -/
theorem failedReadEndsTheJob : Obligations.FailedReadEndsTheJob := by
  intro s w p q inp e hw hi hb hp hh hstop
  rw [step_decoder hh hp, tokenStep_stop hw hi hb hstop]
  cases e <;> rfl

/-! ### A DECODE job ends

Every step of a running DECODE reads a CODE field of 2 bits or more, or ends the job; and the cursor of a running job
is inside the input. So the cursor measures how long the job can still run (R244). -/

/-- A running DECODE job holds a view, its CODE fields are 2 bits or more, and its cursor is inside the input. -/
theorem decoderView_of_inv (h : s.Inv) (hdir : s.dir = .decode) (hb : s.busy = true) :
    (s.phase = .decFirst ∨ s.phase = .decLoop) ∧
      ∃ v, s.HoldsDec v ∧ 2 ≤ v.indexBits ∧ v.bpos ≤ 8 * v.IN.length := by
  have notEncode : ¬ s.Running .encode := fun hrun => by cases hdir.symm.trans hrun.dir
  unfold State.Inv at h
  cases hp : s.phase <;> simp only [hp] at h
  case idle => exact absurd h notEncode
  case encScan | encFlush | encEos =>
    obtain ⟨hrun, -⟩ := h
    exact absurd hrun notEncode
  case decFirst =>
    obtain ⟨-, -, inp, hv⟩ := h
    exact ⟨.inl rfl, _, hv, le_rfl, Nat.zero_le _⟩
  case decLoop =>
    obtain ⟨-, v, word, hv, -, hm⟩ := h
    exact ⟨.inr rfl, v, hv, hm.schedule.width, hm.cursor⟩
  case done | fail => simp [State.busy, hp, Phase.busy] at hb

/-- A step that does not end the job moves the cursor past a CODE field. -/
theorem bpos_of_step {v : DecView} (hh : s.host = []) (hp : s.phase = .decFirst ∨ s.phase = .decLoop)
    (hv : s.HoldsDec v) (h : step s = .next t) (hb : t.busy = true) :
    ∃ q, t.bpos = some q ∧ v.bpos + v.indexBits ≤ q := by
  rw [step_decoder hh hp] at h
  cases hd : decodeToken (s.phase == .decFirst) v.indexBits v.IN v.bpos with
  | token i q =>
    rw [tokenStep_token hv.indexBits hv.IN hv.bpos hd] at h
    obtain ⟨-, ⟨-, hbpos, -⟩, -⟩ := decoderTokenFrame (s.setBpos q) t i hp (decodeToken_le hd).2 h
    exact ⟨q, hbpos, add_width_le_of_decodeToken hd⟩
  | stop e q =>
    rw [tokenStep_stop hv.indexBits hv.IN hv.bpos hd] at h
    cases h
    cases hb

/-- A DECODE job of `inp`, left alone by its host, that has read `p` bits or more while it still runs. -/
structure DecodesFrom (inp : List Byte) (p : Nat) (s : State) : Prop where
  inv : s.Inv
  dir : s.dir = .decode
  host : s.host = []
  input : s.busy = true → s.IN = some inp
  cursor : s.busy = true → ∃ q, s.bpos = some q ∧ p ≤ q

/-- A job that has read all its input and more has ended. -/
theorem DecodesFrom.not_busy (h : DecodesFrom inp p s) (hp : 8 * inp.length < p) : s.busy = false := by
  refine Bool.eq_false_of_not_eq_true fun hb => ?_
  obtain ⟨-, v, hv, -, hin⟩ := decoderView_of_inv h.inv h.dir hb
  obtain ⟨q, hq, hpq⟩ := h.cursor hb
  obtain rfl : v.IN = inp := Option.some.inj (hv.IN.symm.trans (h.input hb))
  obtain rfl : v.bpos = q := Option.some.inj (hv.bpos.symm.trans hq)
  omega

/-- A step reads 2 bits or more, or the job has ended. -/
theorem DecodesFrom.step (h : DecodesFrom inp p s) : ∃ t, step s = .next t ∧ DecodesFrom inp (p + 2) t := by
  cases hb : s.busy with
  | false =>
    exact ⟨s, step_of_not_busy hb h.host, { h with cursor := fun hb' => by simp [hb] at hb' }⟩
  | true =>
    have hduty : s.dutyKept = true := by simp [State.dutyKept, h.host]
    obtain ⟨t, ht, hinv⟩ := step_inv h.inv hduty
    obtain ⟨-, hIN, hdir, -⟩ := inputIsNeverWritten s t hb ht
    obtain ⟨hp, v, hv, hwidth, -⟩ := decoderView_of_inv h.inv h.dir hb
    obtain ⟨q, hq, hpq⟩ := h.cursor hb
    obtain rfl : v.bpos = q := Option.some.inj (hv.bpos.symm.trans hq)
    refine ⟨t, ht, hinv, hdir.trans h.dir, step_keeps_no_host h.host ht, fun _ => hIN.trans (h.input hb),
      fun hb' => ?_⟩
    obtain ⟨r, hr, hvr⟩ := bpos_of_step h.host hp hv ht hb'
    exact ⟨r, hr, by omega⟩

/-- Steps enough to read the whole input and more end the job. -/
theorem DecodesFrom.run (h : DecodesFrom inp p s) (n : Nat) (hn : 8 * inp.length < p + 2 * n) :
    ∃ t, Sys2Proof.core.run n s = .next t ∧ t.Inv ∧ t.dir = .decode ∧ t.busy = false := by
  induction n generalizing s p with
  | zero => exact ⟨s, rfl, h.inv, h.dir, h.not_busy hn⟩
  | succ n ih =>
    obtain ⟨t, ht, hnext⟩ := h.step
    obtain ⟨u, hrun, hend⟩ := ih hnext (by omega)
    exact ⟨u, (core_run_succ ht).trans hrun, hend⟩

/-- A DECODE sets its direction, and takes its input unless that is too long for the bounds (R230). -/
theorem exec_decode_input (h : exec (.decode inp) s = .next t) :
    t.dir = .decode ∧ t.host = s.host ∧ (t.busy = true → t.IN = some inp) := by
  have hb := not_busy_of_exec_decode h
  cases hfit : Bounds.allows s.bounds.maxInBytes inp.length with
  | false =>
    cases h.symm.trans (exec_decode_raise hb hfit)
    exact ⟨rfl, rfl, fun hb' => by cases hb'⟩
  | true =>
    have F := keepsInput_footprint
    rw [exec_decode_run hb hfit] at h
    obtain ⟨-, hIN, hdir, -, hhost⟩ := perform_keepsAt F.comp F.raise
      (keepsAt_bind F.comp (F.bootstrapAt _) fun _ u _ => keepsAt_write (g := decodeReady) (.refl u)) h
    exact ⟨hdir, hhost, fun _ => hIN⟩

/-- The SUBMIT of a DECODE starts a job that has read nothing yet, or ends it. -/
theorem decodesFrom_of_submit (hb : s.busy = false) (hh : s.host = [.submit ⟨1#1, .bytes inp⟩]) :
    ∃ t, step s = .next t ∧ DecodesFrom inp 0 t := by
  obtain ⟨t, ht, hinv⟩ := exec_decode_inv (s := s.setHost []) hb inp
  obtain ⟨hdir, hhost, hinput⟩ := exec_decode_input ht
  refine ⟨t, (step_submit hh rfl).trans ht, hinv, hdir, hhost, hinput, fun hb' => ?_⟩
  obtain ⟨-, v, hv, -⟩ := decoderView_of_inv hinv hdir hb'
  exact ⟨v.bpos, hv.bpos, Nat.zero_le _⟩

/-- How the invariant lets a DECODE job have ended (R75). -/
theorem decode_ended (h : s.Inv) (hdir : s.dir = .decode) (hb : s.busy = false) :
    (s.phase = .done ∧ s.err = .noError ∧ ∃ u, s.RESULT = some (.units u)) ∨
      (s.phase = .fail ∧ s.err ≠ .noError ∧ s.RESULT = none) := by
  unfold State.Inv at h
  cases hp : s.phase <;> simp only [hp] at h
  case idle => cases hdir.symm.trans h.dir
  case done =>
    obtain ⟨herr, hresult⟩ := h
    match hr : s.RESULT with
    | some (.units u) => exact .inl ⟨rfl, herr, u, rfl⟩
    | some (.bytes b) => simp [hdir, hr] at hresult
    | none => simp [hdir, hr] at hresult
  case fail => exact .inr ⟨rfl, h⟩
  case encScan | encFlush | encEos | decFirst | decLoop => simp [State.busy, hp, Phase.busy] at hb

/-- Settles O56: the 4L + 1 steps after the SUBMIT would read 8L + 2 bits, so the job has ended by then, and the
invariant tells how. -/
theorem decodeAlwaysTerminates : Obligations.DecodeAlwaysTerminates := by
  intro s b hb hh
  obtain ⟨s', hstart, hdecode⟩ := decodesFrom_of_submit hb hh
  obtain ⟨t, hrun, hinv, hdir, hend⟩ := hdecode.run (4 * b.length + 1) (by omega)
  exact ⟨t, (core_run_succ hstart).trans hrun, decode_ended hinv hdir hend⟩

end Sys2Proof.Machine

/-! ### The width schedule and the dictionaries -/

namespace Sys2Proof.Machine

variable {s : State} {entry : List CodeUnit} {d : DecDict} {n w e j : Nat}

/-- Fewer ticks than the countdown leave the width alone (R160). -/
theorem ticks_of_lt (h : j < e) : ticks j ⟨w, e⟩ = ⟨w, e - j⟩ := by
  induction j generalizing e with
  | zero => rfl
  | succ j ih =>
    rw [ticks_succ, scheduleTick_many (by omega), ih (by omega), Nat.sub_sub, Nat.add_comm 1 j]

/-- As many ticks as the countdown grow the width once, at the last of them (R160). -/
theorem ticks_countdown (h : 1 ≤ e) : ticks e ⟨w, e⟩ = ⟨w + 1, 2 ^ w⟩ := by
  obtain ⟨j, rfl⟩ := Nat.exists_eq_add_of_le' h
  rw [ticks_add, ticks_of_lt (Nat.lt_add_one j), Nat.add_sub_cancel_left]
  exact scheduleTick_one w

/-- Settles O14: the width lasts as many ticks as its countdown, for the bootstrap's countdown of 4 too. -/
theorem widthLastsItsTicks : Obligations.WidthLastsItsTicks :=
  ⟨fun _ _ => ⟨fun _ hj => ticks_of_lt hj, ticks_countdown Nat.one_le_two_pow⟩,
    ticks_of_lt (by decide), ticks_countdown (by decide)⟩

/-- Settles O13: a tick that fits writes the schedule's next point, and one past MAX_INDEX_BITS raises. -/
theorem tickMovesTheSchedule : Obligations.TickMovesTheSchedule := by
  intro s w e hw he h1
  refine ⟨fun h2 => ?_, ?_, ?_⟩
  · have hfit : tickFits s.bounds ⟨w, e⟩ = true := by simp [tickFits, show e ≠ 1 by omega]
    rw [tick_run hw he (by omega) hfit, ticked, scheduleTick_many h2, State.setEnlargeIn, State.setIndexBits, ← hw]
  · rintro rfl hwidth
    exact tick_run hw he one_ne_zero (by simp [tickFits, hwidth])
  · rintro rfl hwidth
    exact tick_raise hw he hwidth

/-- A pair appended for a new key leaves every other key its index. -/
theorem encLookup_append_of_ne (d : EncDict) {key k : List CodeUnit} (h : k ≠ key) :
    encLookup (d ++ [(key, n)]) k = encLookup d k := by
  rw [encLookup_append, if_neg h.symm, Option.or_none]

/-- Settles O15: the pair of the key and the count is appended, where the lookup of a new key finds it. -/
theorem assignGivesTheNextIndex : Obligations.AssignGivesTheNextIndex := by
  intro s key n d hn hd hnew
  refine ⟨fun hcount hlen => ⟨d ++ [(key, n)], ?_, ?_, fun k hk => encLookup_append_of_ne d hk⟩, fun hfull => ?_⟩
  · exact assignKey_run hn hd (by simp [entryFits, hcount, hlen])
  · rw [encLookup_append, hnew, if_pos rfl, Option.none_or]
  · exact assignKey_raise hn (Bool.and_eq_false_iff.mpr hfull)

/-- An INSERT that fits is the tick after its append, whatever that tick does (R162). -/
theorem insertEntry_eq_tick (hn : s.count = some n) (hd : s.decDict = some d)
    (hfit : entryFits s.bounds n entry.length = true) : insertEntry entry s = tick (appended entry d n s) := by
  simp [insertEntry, hn, hd, checkCapacity_pass hfit, appended]

/-- An INSERT that does not fit raises before any write (R162, R276). -/
theorem insertEntry_raise (hn : s.count = some n) (hfull : entryFits s.bounds n entry.length = false) :
    insertEntry entry s = .error (.job (.capacityExceeded n)) s := by
  simp [insertEntry, hn, checkCapacity_raise hfull]

/-- Settles O16: an INSERT is its tick after the append, or raises at its one check of the entry. -/
theorem insertAppendsThenTicks : Obligations.InsertAppendsThenTicks := by
  intro s entry n d hn hd
  refine ⟨fun hcount hlen => ?_, fun hfull => insertEntry_raise hn (Bool.and_eq_false_iff.mpr hfull)⟩
  exact insertEntry_eq_tick hn hd (by simp [entryFits, hcount, hlen])

/-! ### The bootstrap under any bounds

Its three INSERTs take no width's last tick, so MAX_INDEX_BITS is never checked, and the third INSERT asks the most of
the other bounds: it goes through if that one fits, and past a bound it raises at the first that does not. -/

/-- An INSERT before the last tick of a width asks only that its entry fits (R160, R162). -/
theorem insertEntry_filled_of_fits (he : 2 ≤ e) (hfit : entryFits s.bounds n entry.length = true) :
    insertEntry entry (filled d n w e s) = .ok () (filled (d ++ [entry]) (n + 1) w (e - 1) s) := by
  have htick : tickFits s.bounds ⟨w, e⟩ = true := by simp [tickFits, show e ≠ 1 by omega]
  rw [insertEntry_run (s := filled d n w e s) rfl rfl rfl rfl (by omega) hfit htick, ticked, scheduleTick_many he]
  rfl

theorem insertEntry_filled_overflows (hfull : entryFits s.bounds n entry.length = false) :
    Overflows (insertEntry entry) (filled d n w e s) :=
  ⟨n, _, insertEntry_raise rfl hfull⟩

theorem bootstrap_of_fits (input : List Byte) (hfit : entryFits s.bounds 2 1 = true) :
    bootstrap (decodeLoaded input s) = .ok () (bootstrapped input s) := by
  have h0 : entryFits s.bounds 0 1 = true := entryFits_mono hfit (by decide) le_rfl
  have h1 : entryFits s.bounds 1 1 = true := entryFits_mono hfit (by decide) le_rfl
  show bootstrap (filled [] 0 2 4 (decodeLoaded input s))
    = .ok () (filled [[0#16], [1#16], [2#16]] 3 2 1 (decodeLoaded input s))
  have hbounds : (decodeLoaded input s).bounds = s.bounds := rfl
  simp [bootstrap, insertEntry_filled_of_fits, hbounds, h0, h1, hfit]

theorem bootstrap_overflows (input : List Byte) (hfull : entryFits s.bounds 2 1 = false) :
    Overflows bootstrap (decodeLoaded input s) := by
  show Overflows bootstrap (filled [] 0 2 4 (decodeLoaded input s))
  cases h0 : entryFits s.bounds 0 1 with
  | false => exact overflows_left (insertEntry_filled_overflows h0)
  | true =>
    refine overflows_right (insertEntry_filled_of_fits (by decide) h0) ?_
    cases h1 : entryFits s.bounds 1 1 with
    | false => exact overflows_left (insertEntry_filled_overflows h1)
    | true =>
      exact overflows_right (insertEntry_filled_of_fits (by decide) h1) (insertEntry_filled_overflows hfull)

theorem decodeReady_phase (s : State) : (decodeReady s).phase = .decFirst := rfl

/-- Settles O20: a DECODE raises at its input's check, or at the bootstrap, or goes through both. -/
theorem decodeStartsAJob : Obligations.DecodeStartsAJob := by
  intro s b hb
  refine ⟨fun hinput ok hok => ⟨?_, ?_⟩, fun hlong => exec_decode_raise hb hlong⟩
  · rintro rfl
    have hboot : bootstrap (decodeLoaded b (submitted .decode s)) = .ok () (bootstrapped b (submitted .decode s)) :=
      bootstrap_of_fits b hok.symm
    refine ⟨decodeReady (bootstrapped b (submitted .decode s)), ?_, ?_, rfl⟩
    · rw [exec_decode_run hb hinput]
      exact perform_of_ok (by simp [hboot])
    · rw [status_of_running (d := .decode) ⟨rfl, rfl, rfl⟩, decodeReady_phase]
      decide
  · rintro rfl
    rw [exec_decode_run hb hinput]
    exact perform_overflows (overflows_left (bootstrap_overflows b hok.symm))

end Sys2Proof.Machine

/-! ### An ENCODE job without bounds

The job is BUSY at ENC_EOS, N + 2 steps after the hand-over, and a core that has ended stays ended: so it is BUSY at
every step before. The invariant tells how it ends. -/

namespace Sys2Proof.Machine

variable {s t : State} {inp : List Byte} {u : List CodeUnit}

/-- A core that is BUSY has been so since its host left it alone. -/
theorem busy_of_busy_later (hh : s.host = []) {n : Nat} (hrun : Sys2Proof.core.run n s = .next t)
    (hb : t.busy = true) {k : Nat} (hk : k ≤ n) : ∃ t', Sys2Proof.core.run k s = .next t' ∧ t'.busy = true := by
  induction k generalizing s n with
  | zero =>
    refine ⟨s, rfl, Bool.eq_true_of_not_eq_false fun hidle => ?_⟩
    cases hrun.symm.trans (core_run_of_not_busy hidle hh n)
    exact absurd hb (by simp [hidle])
  | succ k ih =>
    obtain ⟨n, rfl⟩ := Nat.exists_eq_add_of_le' (Nat.one_le_of_lt hk)
    obtain ⟨s', hstep, hrest⟩ := core_run_succ_next hrun
    obtain ⟨t', hrun', hb'⟩ := ih (step_keeps_no_host hh hstep) hrest (Nat.le_of_succ_le_succ hk)
    exact ⟨t', (core_run_succ hstep).trans hrun', hb'⟩

theorem run_inv (h : s.Inv) {n : Nat} (hrun : Sys2Proof.core.run n s = .next t) : t.Inv := by
  induction n generalizing s with
  | zero => cases hrun; exact h
  | succ n ih =>
    obtain ⟨s', hstep, hrest⟩ := core_run_succ_next hrun
    exact ih (stepKeepsTheInvariant s s' h hstep) hrest

/-- A core of the invariant that holds a RESULT is DONE, without an error (R37). -/
theorem done_of_inv_result (h : s.Inv) {r : Result} (hr : s.RESULT = some r) : s.phase = .done ∧ s.err = .noError := by
  have running : ∀ d, ¬ s.Running d := fun d hrun => by simp [hrun.result] at hr
  unfold State.Inv at h
  cases hp : s.phase <;> simp only [hp] at h
  case idle => exact absurd h (running _)
  case encScan | encFlush | encEos | decFirst | decLoop => exact absurd h.1 (running _)
  case done => exact ⟨rfl, h.1⟩
  case fail => simp [h.2] at hr

/-- With every bound ∞, the SUBMIT of an ENCODE makes an Encoder at its start. -/
theorem encode_started (inp : List Byte) (hb : s.busy = false) (hbounds : s.bounds = Bounds.unbounded)
    (hh : s.host = [.submit ⟨0#1, .units u⟩]) : ∃ t, step s = .next t ∧ t.Inv ∧ Encoding inp t (initialView u) := by
  have hfit : Bounds.allows (s.setHost []).bounds.maxInUnits u.length = true := by
    rw [State.setHost_bounds, hbounds]; rfl
  obtain ⟨t, ht, hinv⟩ := exec_encode_inv (s := s.setHost []) hb u
  cases ht.symm.trans (exec_encode_run (s := s.setHost []) hb hfit)
  refine ⟨_, (step_submit hh rfl).trans ht, hinv, ?_, ⟨rfl, rfl, rfl, rfl, rfl, rfl, rfl, rfl, rfl⟩,
    initialView_matching u, .silent rfl rfl rfl rfl rfl, Nat.zero_le _, hbounds, rfl⟩
  cases u <;> simp [encodeLoaded, initialView]

/-- The Encoder is at ENC_EOS one step after its last unit (R191, R196). -/
theorem Encoding.run_to_eos (h : Encoding inp s (initialView u)) :
    ∃ t bits d last, Sys2Proof.core.run (u.length + 1) s = .next t ∧ Flushed inp t bits d last := by
  obtain ⟨s', v, hrun, hv, hend, -⟩ := h.run u.length (Nat.zero_add _)
  obtain ⟨t, bits, d, last, hflush, hflushed, -⟩ := hv.flush hend
  exact ⟨t, bits, d, last, core_run_snoc hrun hflush, hflushed⟩

theorem Flushed.busy {bits : List Bool} {d : DecView} {last : Option (List CodeUnit)}
    (h : Flushed inp s bits d last) : s.busy = true := by
  simp [State.busy, h.phase, Phase.busy]

/-- Settles O55: the job reaches ENC_EOS, BUSY all along, and the EOS gives it the RESULT of a core that is DONE. -/
theorem encodeAlwaysCompletes : Obligations.EncodeAlwaysCompletes := by
  intro s u hb hbounds hh
  obtain ⟨s1, hstart, hinv, hencoding⟩ := encode_started [] hb hbounds hh
  obtain ⟨s2, bits, d, last, hrun, hflushed⟩ := hencoding.run_to_eos
  obtain ⟨t, heos, -, hresult⟩ := hflushed.eos
  have hdone := core_run_snoc hrun heos
  obtain ⟨hphase, herr⟩ := done_of_inv_result (run_inv hinv hdone) hresult
  refine ⟨fun k hk hle => ?_, t, _, (core_run_succ hstart).trans hdone, hphase, herr, hresult⟩
  obtain ⟨k, rfl⟩ := Nat.exists_eq_add_of_le' hk
  obtain ⟨t', hrun', hb'⟩ := busy_of_busy_later hencoding.host hrun hflushed.busy (Nat.le_of_succ_le_succ hle)
  exact ⟨t', (core_run_succ hstart).trans hrun', hb'⟩

end Sys2Proof.Machine

/-! ### EMIT -/

namespace Sys2Proof.Machine

variable {s t : State} {p word : List CodeUnit} {d : EncDict} {w n : Nat} {c : CodeUnit}

theorem perform_congr {m m' : M Unit} (h : m s = m' s) : perform m s = perform m' s := by
  simp only [perform, h]

/-- A pending singleton below 256 goes out as LIT8 (R192). -/
theorem emit_lit8 (hw : s.indexBits = some w) (hp : s.pending = some p) (hc : c ∈ p) (hlow : c.toNat < 256) :
    emit [c] s = emitLit8 c w s := by
  simp [emit, hw, hp, pendingSingleton, hc, lit8Limit, hlow]

/-- Any other pending singleton goes out as LIT16 (R192). -/
theorem emit_lit16 (hw : s.indexBits = some w) (hp : s.pending = some p) (hc : c ∈ p) (hhigh : 256 ≤ c.toNat) :
    emit [c] s = emitLit16 c w s := by
  simp [emit, hw, hp, pendingSingleton, hc, lit8Limit, hhigh.not_gt]

/-- Any other word goes out as its index (R192). -/
theorem emit_index (hw : s.indexBits = some w) (hp : s.pending = some p) (hd : s.encDict = some d)
    (hnot : ∀ c, word = [c] → c ∉ p) (hn : encLookup d word = some n) : emit word s = emitIdx n w s := by
  simp [emit, hw, hp, pendingSingleton_eq_none hnot, hd, hn]

/-- Settles O32: each branch of EMIT is the rule of its token, at the width both sample. -/
theorem emitIsOneToken : Obligations.EmitIsOneToken := by
  intro s w p word d hphase hw hp hd
  refine ⟨?_, ?_, fun n hnot hn h3 => ?_⟩
  · rintro c rfl hc hlow
    rw [(EncoderRule.lit8 _ hphase).exec_eq, perform_at_width hw, literal_units hlow]
    exact perform_congr (emit_lit8 hw hp hc hlow)
  · rintro c rfl hc hhigh
    rw [(EncoderRule.lit16 c hphase).exec_eq, perform_at_width hw]
    exact perform_congr (emit_lit16 hw hp hc hhigh)
  · rw [(EncoderRule.idx n h3 hphase).exec_eq, perform_at_width hw]
    exact perform_congr (emit_index hw hp hd hnot hn)

theorem emit_ok_keeps (h : emit word s = .ok () t) : t.phase = s.phase ∧ t.encDict = s.encDict := by
  obtain ⟨⟨-, ⟨-, -, hdict, -⟩, -⟩, hphase, -⟩ := (emit_leavesDecoderSide word s).1 () t h
  exact ⟨hphase, hdict⟩

/-- An emission that ends in FAIL raised. -/
theorem emit_raised (hs : s.phase ≠ .fail) (h : perform (emit word) s = .next t) (ht : t.phase = .fail) :
    ∃ e m, emit word s = .error (.job e) m ∧ t = m.raise e := by
  rcases perform_next.mp h with hok | hraise
  · exact absurd ((emit_ok_keeps hok).1.symm.trans ht) hs
  · exact hraise

/-! ### ENC_FLUSH -/

theorem encFlush_of_empty (hw : s.word = some []) : encFlush s = .ok () (s.setPhase .encEos) := by
  simp [encFlush, hw]

theorem encFlush_of_word (hw : s.word = some word) (h0 : word ≠ []) :
    encFlush s = (emit word >>= fun _ => write (State.setPhase .encEos)) s := by
  simp [encFlush, hw, h0]

/-- Settles O34: the flush is its emission, if it has a word, and then the phase. -/
theorem encFlushStep : Obligations.EncFlushStep := by
  intro s word hp hh hw
  rw [step_encFlush hh hp]
  refine ⟨?_, fun t h0 h => ⟨fun ht => ?_, fun ht => ?_⟩⟩
  · rintro rfl
    exact perform_of_ok (encFlush_of_empty hw)
  · have hok := perform_emit_ok h (by simp [ht])
    exact perform_of_ok ((encFlush_of_word hw h0).trans (by simp [hok, State.setPhase]))
  · obtain ⟨e, m, hraise, rfl⟩ := emit_raised (by simp [hp]) h ht
    exact perform_of_job ((encFlush_of_word hw h0).trans (by simp [hraise]))

/-! ### ENC_UNIT -/

section EncUnit

variable {s1 m : State} {u : List CodeUnit} {i : Nat} {e : Stop}

/-- ENC_UNIT where nothing stops it: the cursor moves on, and after the last unit the phase (R191). -/
theorem encUnit_advances (hu : s.U = some u) (hi : s.ipos = some i) (hc : u[i]? = some c)
    (hsight : firstSight c s = .ok () s1) (hextend : extendOrEmit c s1 = .ok () m) :
    encUnit s = .ok () { m with
      ipos := some (i + 1), phase := if i + 1 = u.length then .encFlush else m.phase } := by
  rw [encUnit_run hu hi hc hsight hextend]
  split <;> rfl

/-- ENC_UNIT stops where its first sight does. -/
theorem encUnit_of_sight_error (hu : s.U = some u) (hi : s.ipos = some i) (hc : u[i]? = some c)
    (hsight : firstSight c s = .error e m) : encUnit s = .error e m := by
  simp [encUnit, hu, hi, hc, hsight]

/-- ENC_UNIT stops where the extension of the match does. -/
theorem encUnit_of_extend_error (hu : s.U = some u) (hi : s.ipos = some i) (hc : u[i]? = some c)
    (hsight : firstSight c s = .ok () s1) (hextend : extendOrEmit c s1 = .error e m) : encUnit s = .error e m := by
  simp [encUnit, hu, hi, hc, hsight, hextend]

/-- A new unit with no room for its entry (R161, R191). -/
theorem firstSight_raise (hd : s.encDict = some d) (hnew : encLookup d [c] = none) (hn : s.count = some n)
    (hfull : entryFits s.bounds n 1 = false) : firstSight c s = .error (.job (.capacityExceeded n)) s := by
  simp [firstSight, hd, hnew, assignKey_raise (key := [c]) hn hfull]

/-- A match that ends stops where its emission does. -/
theorem extendOrEmit_of_emit_error (hw : s.word = some word) (hd : s.encDict = some d)
    (hend : encLookup d (word ++ [c]) = none) (hemit : emit word s = .error e m) :
    extendOrEmit c s = .error e m := by
  simp [extendOrEmit, hw, hd, hend, hemit]

/-- A match that ends with no room for its candidate: the emission stands (R161, R191, R278). -/
theorem extendOrEmit_raise (hw : s.word = some word) (hd : s.encDict = some d)
    (hend : encLookup d (word ++ [c]) = none) (hemit : emit word s = .ok () m) (hn : m.count = some n)
    (hfull : entryFits m.bounds n (word.length + 1) = false) :
    extendOrEmit c s = .error (.job (.capacityExceeded n)) m := by
  simp [extendOrEmit, hw, hd, hend, hemit, assignKey_raise (key := word ++ [c]) hn (by simpa using hfull)]

end EncUnit

/-- Settles O33: the step is the first sight, and then the extension of the match, or its emission with the
candidate's ASSIGN; where one of them raises, the step ends there. -/
theorem encUnitStep : Obligations.EncUnitStep := by
  intro s u word p i n c d hp hh hu hi hc hw hd hn hpend
  rw [step_encScan hh hp]
  refine ⟨fun hnew hfull => ?_, fun s1 d1 hs1 hd1 => ?_⟩
  · exact perform_of_job (encUnit_of_sight_error hu hi hc (firstSight_raise hd hnew hn hfull))
  obtain ⟨hsight, hw1, hp1⟩ : firstSight c s = .ok () s1 ∧ s1.word = some word ∧ s1.phase = .encScan := by
    rcases hs1 with ⟨hknown, rfl⟩ | ⟨hnew, hfit, rfl⟩
    · obtain ⟨k, hk⟩ := Option.ne_none_iff_exists'.mp hknown
      exact ⟨firstSight_known hd hk, hw, hp⟩
    · exact ⟨firstSight_new hd hnew hn hpend hfit, hw, hp⟩
  refine ⟨fun hknown => ?_, fun t hend h => ⟨fun ht => ?_, fun n1 ht hn1 hfull => ?_, fun n1 ht hn1 hfit => ?_⟩⟩
  · obtain ⟨k, hk⟩ := Option.ne_none_iff_exists'.mp hknown
    rw [perform_of_ok (encUnit_advances hu hi hc hsight (extend_known hw1 hd1 hk)), State.setWord_phase, hp1]
    rfl
  · obtain ⟨e, m, hraise, rfl⟩ := emit_raised (by simp [hp1]) h ht
    exact perform_of_job (encUnit_of_extend_error hu hi hc hsight (extendOrEmit_of_emit_error hw1 hd1 hend hraise))
  · have hemit := perform_emit_ok h (by simp [ht])
    exact perform_of_job (encUnit_of_extend_error hu hi hc hsight (extendOrEmit_raise hw1 hd1 hend hemit hn1 hfull))
  · have hemit := perform_emit_ok h (by simp [ht])
    have hd' : t.encDict = some d1 := (emit_ok_keeps hemit).2.trans hd1
    rw [perform_of_ok (encUnit_advances hu hi hc hsight (extend_new hw1 hd1 hend hemit hn1 hd' hfit)),
      State.setWord_phase, State.setCount_phase, State.setEncDict_phase, ht]
    rfl

end Sys2Proof.Machine

/-! ### The errors of an ENCODE job -/

namespace Sys2Proof.Machine

variable {s t : State}

theorem emit_stops (word : List CodeUnit) : StopsOnly CapacityOnly (emit word) := by
  have lit : ∀ code v n W u, StopsOnly CapacityOnly (emitLit code v n W u) := fun _ _ _ _ _ =>
    stopsOnly_bind (sinkWriteBits_stops _ _) fun _ => stopsOnly_bind (sinkWriteBits_stops _ _) fun _ =>
    stopsOnly_bind tick_stops fun _ => stopsOnly_bind (stopsOnly_bind (stopsOnly_read (capacityOnly_fault _) _)
      fun _ => stopsOnly_write _) fun _ => tick_stops
  refine stopsOnly_bind (stopsOnly_read (capacityOnly_fault _) _) fun W =>
    stopsOnly_bind (stopsOnly_read (capacityOnly_fault _) _) fun p => ?_
  split
  · split
    · exact lit codeLit8 _ lit8Bits W _
    · exact lit codeLit16 _ lit16Bits W _
  · refine stopsOnly_bind (stopsOnly_read (capacityOnly_fault _) _) fun d => ?_
    split
    · exact stopsOnly_bind (sinkWriteBits_stops _ _) fun _ => tick_stops
    · exact stopsOnly_stopFault (capacityOnly_fault _)

theorem firstSight_stops (c : CodeUnit) : StopsOnly CapacityOnly (firstSight c) := by
  refine stopsOnly_bind (stopsOnly_read (capacityOnly_fault _) _) fun d => ?_
  split
  · exact stopsOnly_pure ()
  · exact stopsOnly_bind (assignKey_stops _) fun _ =>
      stopsOnly_bind (stopsOnly_read (capacityOnly_fault _) _) fun _ => stopsOnly_write _

theorem extendOrEmit_stops (c : CodeUnit) : StopsOnly CapacityOnly (extendOrEmit c) := by
  refine stopsOnly_bind (stopsOnly_read (capacityOnly_fault _) _) fun w =>
    stopsOnly_bind (stopsOnly_read (capacityOnly_fault _) _) fun d => ?_
  split
  · exact stopsOnly_write _
  · exact stopsOnly_bind (emit_stops w) fun _ => stopsOnly_bind (assignKey_stops _) fun _ => stopsOnly_write _

/-- A rule of the Encoder that raises leaves CAPACITY_EXCEEDED (R270). -/
theorem err_of_capacityOnly {α : Type} {m : M α} (hm : StopsOnly CapacityOnly m) {e : JobError}
    (h : m s = .error (.job e) t) : (t.raise e).err = .capacityExceeded := by
  obtain ⟨info, rfl⟩ := hm s _ t h e rfl
  rfl

/-- A rule of the Encoder's job that ends in FAIL raised (R198, R275). -/
theorem BusyStep.encode_err (h : BusyStep s t) (hp : OffDecoder s.phase) (hs : s.phase ≠ .fail)
    (ht : t.phase = .fail) : t.err = .capacityExceeded := by
  have F := phase_footprint (· ≠ .fail)
  have decoding : ¬ (s.phase = .decFirst ∨ s.phase = .decLoop) := by simpa [OffDecoder] using hp
  cases h with
  | encUnitOk u i c m _ _ _ _ hm =>
    have unit : m.phase ≠ .fail := (keepsAt_bind F.comp (F.firstSightAt c s) fun _ _ _ => F.extendAt c _).1 _ m hm hs
    split at ht
    · cases ht
    · exact absurd ht unit
  | encUnitErr u i c m e _ _ _ _ hm =>
    exact err_of_capacityOnly (stopsOnly_bind (firstSight_stops c) fun _ => extendOrEmit_stops c) hm
  | flushNone => cases ht
  | flushOk => cases ht
  | flushErr w m e _ _ _ hm => exact err_of_capacityOnly (emit_stops w) hm
  | eosOk => cases ht
  | eosErr w m e _ _ hm => exact err_of_capacityOnly (sinkWriteBits_stops _ _) hm
  | readErr _ _ _ _ _ hd => exact absurd hd decoding
  | token _ _ _ _ _ _ hd => exact absurd hd decoding

/-- Settles O48: every operation of the Encoder's rules raises CAPACITY_EXCEEDED or nothing. -/
theorem encodeFailsOnCapacityOnly : Obligations.EncodeFailsOnCapacityOnly := by
  intro s t hp h ht
  have hb : s.busy = true := by rcases hp with hp | hp | hp <;> simp [State.busy, hp, Phase.busy]
  have hoff : OffDecoder s.phase := by rcases hp with hp | hp | hp <;> simp [OffDecoder, hp]
  have hs : s.phase ≠ .fail := by rcases hp with hp | hp | hp <;> simp [hp]
  rcases busy_step_rule hb h with hrule | ⟨x, rfl⟩
  · exact hrule.encode_err hoff hs ht
  · exact absurd ht hs

end Sys2Proof.Machine

/-! ### The start of an ENCODE job, its steps and the empty input -/

namespace Sys2Proof.Machine

variable {s t : State}

theorem encodeLoaded_phase (input : List CodeUnit) (s : State) :
    (encodeLoaded input s).phase = if input = [] then .encFlush else .encScan := rfl

/-- Settles O19: ENCODE raises at its one check, or writes its registers. -/
theorem encodeStartsAJob : Obligations.EncodeStartsAJob := by
  refine fun s u hb => ⟨fun hfit => ⟨_, exec_encode_run hb hfit, ?_, ?_⟩, fun hlong => exec_encode_raise hb hlong⟩
  · rw [status_of_running (d := .encode) ⟨rfl, rfl, rfl⟩]
    rw [encodeLoaded_phase]
    split <;> decide
  · simp [encodeLoaded, submitted, controlCodes, State.setDir, State.setErr, State.clearResult]

/-- With no move of the host, or a wait that is dropped, the step is the core's own (log 3). -/
theorem step_of_wait {rest : List HostMove} (h : s.host = [] ∧ rest = [] ∨ s.host = .wait :: rest) :
    step s = coreStep (s.setHost rest) := by
  rcases h with ⟨hh, rfl⟩ | hh
  · have same : s.setHost [] = s := by rw [← hh]; rfl
    rw [same, step_eq_coreStep hh]
  · simp only [step, hh]
    rfl

/-- Settles O39: the core's own step fetches the token, or is exec of EOS. -/
theorem stepRunsTheDecodedToken : Obligations.StepRunsTheDecodedToken := by
  intro s rest hh
  rw [step_of_wait hh]
  refine ⟨fun w p q inp i hw hi hb hp hd => ?_, fun hp => ?_⟩
  · have hcore : coreStep (s.setHost rest) = tokenStep (s.setHost rest) := by
      rcases hp with hp | hp <;> simp only [coreStep, State.setHost_phase, hp]
    rw [hcore]
    exact tokenStep_token (s := s.setHost rest) hw hi hb hd
  · have hcore : coreStep (s.setHost rest) = exec .eos (s.setHost rest) := by
      simp only [coreStep, State.setHost_phase, hp]
    exact hcore

/-- Settles O59: the flush of the empty word writes nothing, and the EOS at width 2 is the whole stream. -/
theorem emptyInputGivesOneByte : Obligations.EmptyInputGivesOneByte := by
  intro s hb hbounds hh
  obtain ⟨s1, hstart, -, h⟩ := encode_started [] hb hbounds hh
  have hflush : step s1 = .next (s1.setPhase .encEos) :=
    (step_encFlush h.host h.phase).trans (perform_of_ok (encFlush_of_empty h.holds.word))
  have hfit : Bounds.allows s1.bounds.maxOutBytes ((0 + 2 + 7) / 8) = true := by rw [h.bounds]; rfl
  have heos := (step_encEos (s := s1.setPhase .encEos) h.host rfl).trans
    (perform_of_ok (encEos_run h.holds.indexBits h.holds.obits (.inr hfit)))
  have hbyte : pack ([] ++ lsbFirst 2 codeEos) = [0x40#8] := by decide
  exact ⟨_, (core_run_succ hstart).trans ((core_run_succ hflush).trans ((core_run_one _).trans heos)), rfl,
    congrArg (some ∘ Result.bytes) hbyte⟩

end Sys2Proof.Machine

/-! ### The round trip

The Encoder's stream tells a Decoder the units it was made of, the Decoder hears it to its end, and the EOS finishes
the job with them. -/

namespace Sys2Proof.Machine

variable {s t : State} {inp : List Byte} {bits : List Bool} {d : DecView} {last : Option (List CodeUnit)}

theorem loopEos_run {o : List CodeUnit} (ho : s.out = some o) : loopEos s = .ok () (s.finish (.units o)) := by
  simp [loopEos, ho]

/-- Settles O27: each of the two rules of EOS is a `finish`. -/
theorem eosEndsDecode : Obligations.EosEndsDecode := by
  refine fun s => ⟨fun hp => ?_, fun o hp ho => ?_⟩
  · exact (DecoderRule.firstEos.exec_eq hp).trans (perform_of_ok rfl)
  · exact (DecoderRule.loopEos.exec_eq hp).trans (perform_of_ok (loopEos_run ho))

/-- A Decoder that has heard no token has put nothing out. -/
theorem Tells.out_of_none (h : Tells inp bits d none) : d.out = [] := by
  cases h
  rfl

/-- In either phase EOS makes the Decoder's output its RESULT (R234, R239). -/
theorem Decoding.exec_eos (hs : Decoding s d last) (hout : last = none → d.out = []) :
    exec .eos s = .next (s.finish (.units d.out)) := by
  obtain ⟨hfirst, hloop⟩ := eosEndsDecode s
  cases last with
  | none => rw [hout rfl]; exact hfirst hs.phase
  | some l => exact hloop d.out hs.phase hs.holds.out

/-- The Decoder reads the EOS of a stream that lies inside its input. -/
theorem Decoding.step_eos (hs : Decoding s d last) (h : Tells inp bits d last)
    (hbits : Carries inp 0 (bits ++ encodeToken d.indexBits .eos))
    (hwhole : (bits ++ encodeToken d.indexBits .eos).length ≤ 8 * inp.length) :
    step s = .next ((s.setBpos (d.past .eos).bpos).finish (.units d.out)) := by
  obtain ⟨hd, hin, hpos⟩ := h.sound
  have hread : ReadsToken (s.phase == .decFirst) d.indexBits d.IN d.bpos .eos := by
    rw [hin, hpos, ← Nat.zero_add bits.length]
    exact readsToken_eos hd.schedule.width (carries_append.mp hbits).2
  have hend : d.bpos + wireLength d.indexBits .eos ≤ 8 * d.IN.length := by
    rwa [hin, hpos, ← length_encodeToken, ← List.length_append]
  have hpast : Decoding (s.setBpos (d.past .eos).bpos) (d.past .eos) last :=
    ⟨hs.phase, hs.word, holdsDec_setBpos hs.holds _, hs.bounds, hs.host⟩
  rw [step_decoder hs.host hs.decoder, tokenStep_token hs.holds.indexBits hs.holds.IN hs.holds.bpos (hread.1 hend)]
  exact hpast.exec_eos fun hnone => (hnone ▸ h).out_of_none

/-- A Decoder of the whole stream ends with the output it was told, within the steps R244 allows it. -/
theorem Tells.run_whole (h : Tells inp bits d last) (hs : Decoding s (bootView inp 0) none)
    (hbits : Carries inp 0 (bits ++ encodeToken d.indexBits .eos))
    (hwhole : (bits ++ encodeToken d.indexBits .eos).length ≤ 8 * inp.length) :
    ∃ t, Sys2Proof.core.run (4 * inp.length + 1) s = .next t ∧ t.RESULT = some (.units d.out) := by
  have hprefix : bits.length ≤ 8 * inp.length := by rw [List.length_append] at hwhole; omega
  obtain ⟨k, t, hrun, ⟨-, hk, ht⟩ | ⟨hcut, -⟩⟩ := h.run hs (carries_append.mp hbits).1
  · exact ⟨_, core_run_le (core_run_snoc hrun (ht.step_eos h hbits hwhole)) rfl ht.host (by omega), rfl⟩
  · omega

/-- The bytes of a packed string have room for all its bits (R125). -/
theorem length_le_length_pack (bits : List Bool) : bits.length ≤ 8 * (pack bits).length := by
  rw [length_pack]; omega

/-- Settles O57: RESULT is the units the stream tells, and the invariant has a core with a RESULT be DONE without an
error. -/
theorem decodeInvertsEncode : Obligations.DecodeInvertsEncode := by
  intro s s' t u b hb hbounds hh hrun hresult hb' hbounds' hh'
  obtain ⟨t', bits, d, last, hrun', htells, rfl, -, hresult'⟩ := encode_told b hb hbounds hh
  obtain rfl : t' = t := Host.Outcome.next.inj (hrun'.symm.trans hrun)
  obtain rfl : pack (bits ++ encodeToken d.indexBits .eos) = b := by simpa using hresult'.symm.trans hresult
  obtain ⟨s0, hstart, hdecoding⟩ := decode_started hb' hbounds' hh'
  obtain ⟨s1, hstart', hfrom⟩ := decodesFrom_of_submit hb' hh'
  obtain rfl : s1 = s0 := Host.Outcome.next.inj (hstart'.symm.trans hstart)
  obtain ⟨t1, hwhole, hunits⟩ := htells.run_whole hdecoding (carries_pack _) (length_le_length_pack _)
  obtain ⟨hphase, herr⟩ := done_of_inv_result (run_inv hfrom.inv hwhole) hunits
  exact ⟨t1, (core_run_succ hstart).trans hwhole, hphase, herr, hunits⟩

end Sys2Proof.Machine

/-! ### RESOLVE and the later literals -/

namespace Sys2Proof.Machine

variable {s : State} {w e : Nat} {d : DecDict} {o word : List CodeUnit} {c : CodeUnit}

/-- Settles O17: the three cases are those of RESOLVE's comparisons. -/
theorem resolveByCount : Obligations.ResolveByCount := by
  intro s target n d c rest hn hd hlen hw
  refine ⟨fun hlt => ?_, fun heq => ?_, fun hgt => ?_⟩
  · exact resolve_entry hn hd (hlen ▸ hlt) (List.getElem?_eq_getElem hlt)
  · exact resolve_self (heq ▸ hn) hw rfl
  · exact resolve_beyond hn hgt

/-- LIT8 and LIT16 of one value run the same rule in the loop (R237, R238). -/
theorem exec_lit8_eq_lit16_later (hp : s.phase = .decLoop) {v : Byte} (hv : v.toNat = c.toNat) :
    exec (.lit8 v) s = exec (.lit16 c) s := by
  rw [(DecoderRule.loopLit8 v).exec_eq hp, (DecoderRule.loopLit16 c).exec_eq hp, setWidth_of_toNat_eq v c hv]

/-- The state a later literal resolves its target in: its singleton is inserted (R237, R307). -/
def singletonInserted (d : DecDict) (w e : Nat) (c : CodeUnit) (s : State) : State :=
  ticked ⟨w, e⟩ (appended [c] d d.length s)

/-- What a later literal leaves when no check fails (R237, R242). -/
def laterLiteralDone (d : DecDict) (w e : Nat) (o word : List CodeUnit) (c : CodeUnit) (s : State) : State :=
  { s with
    decDict := some (d ++ [[c], word ++ [c]]), count := some (d.length + 2),
    indexBits := some (ticks 2 ⟨w, e⟩).indexBits, enlargeIn := some (ticks 2 ⟨w, e⟩).enlargeIn,
    word := some [c], out := some (o ++ [c]) }

/-- The target of a later literal is its own singleton, now that it is inserted (R307). -/
theorem resolve_singletonInserted :
    resolve d.length (singletonInserted d w e c s) = .ok [c] (singletonInserted d w e c s) :=
  resolve_entry (s := singletonInserted d w e c s) (k := d.length + 1) (d := d ++ [[c]]) rfl rfl (Nat.lt_succ_self _)
    List.getElem?_concat_length

section
variable (hn : s.count = some d.length) (hd : s.decDict = some d) (hw : s.indexBits = some w)
  (he : s.enlargeIn = some e) (h1 : 1 ≤ e) (ho : s.out = some o) (hword : s.word = some word)
include hn hd hw he h1

/-- Its first INSERT done, a later literal is the COMMIT of its singleton. -/
theorem loopLiteral_eq_commit (hf : entryFits s.bounds d.length 1 = true) (ht : tickFits s.bounds ⟨w, e⟩ = true) :
    loopLiteral c s = commit [c] (singletonInserted d w e c s) := by
  have hinsert : insertEntry [c] s = .ok () (singletonInserted d w e c s) :=
    insertEntry_run hn hd hw he (by omega) hf ht
  simp [loopLiteral, hn, hinsert, resolve_singletonInserted]

include ho hword

/-- A later literal, run to its end. -/
theorem loopLiteral_run (hf : entryFits s.bounds d.length 1 = true) (ht : tickFits s.bounds ⟨w, e⟩ = true)
    (hu : Bounds.allows s.bounds.maxOutUnits (o.length + 1) = true)
    (hf' : entryFits s.bounds (d.length + 1) (word.length + 1) = true)
    (ht' : tickFits s.bounds (ticks 1 ⟨w, e⟩) = true) :
    loopLiteral c s = .ok () (laterLiteralDone d w e o word c s) := by
  rw [loopLiteral_eq_commit hn hd hw he h1 hf ht,
    commit_run (s := singletonInserted d w e c s) (rest := []) rfl rfl rfl rfl (scheduleTick_pos _) ho hword hf' ht' hu]
  simp [laterLiteralDone, singletonInserted, ticked, appended, ticks, State.setWord, State.setOut, State.setDecDict,
    State.setCount, State.setIndexBits, State.setEnlargeIn]

/-- A later literal past a bound, whichever check is first. -/
theorem loopLiteral_overflows
    (h : (entryFits s.bounds d.length 1 && tickFits s.bounds ⟨w, e⟩ &&
      Bounds.allows s.bounds.maxOutUnits (o.length + 1) && entryFits s.bounds (d.length + 1) (word.length + 1) &&
      tickFits s.bounds (ticks 1 ⟨w, e⟩)) = false) : Overflows (loopLiteral c) s := by
  cases hfirst : entryFits s.bounds d.length 1 && tickFits s.bounds ⟨w, e⟩ with
  | false =>
    have hcount : readCount s = .ok d.length s := by simp [hn]
    exact overflows_right hcount (overflows_left (insertEntry_overflows hn hd hw he h1 hfirst))
  | true =>
    obtain ⟨hf, ht⟩ := Bool.and_eq_true_iff.mp hfirst
    rw [hfirst, Bool.true_and] at h
    obtain ⟨i, u, hcommit⟩ := commit_overflows (s := singletonInserted d w e c s) (rest := []) rfl rfl rfl rfl
      (scheduleTick_pos _) ho hword h
    exact ⟨i, u, (loopLiteral_eq_commit hn hd hw he h1 hf ht).trans hcommit⟩

end

/-- Settles O24: the rule of a later literal runs to its end, or stops at the first of its checks that fails. -/
theorem laterLiteralRuns : Obligations.LaterLiteralRuns := by
  intro s w e d o word c ok hp hn hd hw he h1 ho hword hok
  have hrule := (DecoderRule.loopLit16 c).exec_eq hp
  have hlit8 := fun (v : Byte) (hv : v.toNat = c.toNat) => exec_lit8_eq_lit16_later hp hv
  cases ok with
  | true =>
    simp only [eq_comm (a := true), Bool.and_eq_true] at hok
    obtain ⟨⟨⟨⟨hf, ht⟩, hu⟩, hf'⟩, ht'⟩ := hok
    have hrun := hrule.trans (perform_of_ok (loopLiteral_run hn hd hw he h1 ho hword hf ht hu hf' ht'))
    exact ⟨_, hrun, fun v hv => (hlit8 v hv).trans hrun, fun _ => rfl, by simp⟩
  | false =>
    obtain ⟨t, ht, hpast⟩ := perform_overflows (loopLiteral_overflows (c := c) hn hd hw he h1 ho hword hok.symm)
    have hrun := hrule.trans ht
    exact ⟨t, hrun, fun v hv => (hlit8 v hv).trans hrun, by simp, fun _ => hpast⟩

end Sys2Proof.Machine

/-! ### Where CORRUPT_STREAM comes from

RESOLVE past the count and the illegal first token raise it. Every other rule of a token leaves the error code alone or
raises CAPACITY_EXCEEDED, and a failed read has a code of its own (R270, R273). -/

namespace Sys2Proof.Machine

variable {s t : State} {i : Instr} {m : M Unit} {n : Nat}

/-- A token of a corrupt stream, `n` being the count: an illegal first token, or an index above the count (R273). -/
def CorruptsAt (n : Nat) (i : Instr) : Prop := i = .illegalFirst ∨ ∃ k, i = .idx k ∧ n < k

theorem corruptsAt_illegalFirst : CorruptsAt n .illegalFirst := .inl rfl

theorem corruptsAt_idx {k : Nat} : CorruptsAt n (.idx k) ↔ n < k := by simp [CorruptsAt]

/-- The job errors other than CORRUPT_STREAM. -/
def NotCorrupt : JobError → State → Prop := fun e _ => e.kind ≠ .corruptStream

theorem allowsCapacity_notCorrupt : AllowsCapacity NotCorrupt := fun _ _ _ => by simp [NotCorrupt, JobError.kind]

theorem readErrorJob_notCorrupt (e : ReadError) : (readErrorJob e).kind ≠ .corruptStream := by
  cases e <;> simp [readErrorJob, JobError.kind]

/-- A rule that keeps the error code of a running job and never raises CORRUPT_STREAM. -/
theorem not_corrupt_of_safe {d : Direction} {Q : Unit → State → Prop} (hrun : s.Running d)
    (hsafe : Safe NotCorrupt m s Q) (hkeep : Keeps LeavesEncoderSide m) (h : perform m s = .next t) :
    t.err ≠ .corruptStream := by
  rcases perform_next.mp h with hok | ⟨e, u, hraise, rfl⟩
  · have hleaves : LeavesEncoderSide s t := (hkeep s).1 _ _ hok
    simp [(running_of_leaves hrun hleaves).err]
  · have hkind : NotCorrupt e u := by simpa only [Safe, hraise] using hsafe
    exact hkind

/-- No token read as the first is an index (R98). -/
theorem ne_idx_of_decodeToken_first {W p q k : Nat} {inp : List Byte} :
    decodeToken true W inp p ≠ .token (.idx k) q := by
  intro h
  obtain ⟨c, p', -, hcode⟩ := decodeToken_token h
  simp at hcode

/-- The first token leaves CORRUPT_STREAM only if it is the illegal one (R235). -/
theorem firstRule_corrupt_iff {inp : List Byte} {q : Nat} (hm : DecoderRule .decFirst i m) (hi : ∀ k, i ≠ .idx k)
    (hrun : s.Running .decode) (hv : s.HoldsDec (bootView inp q)) (h : perform m s = .next t) :
    t.err = .corruptStream ↔ CorruptsAt n i := by
  have literal : ∀ v, perform (firstLiteral v) s = .next t → t.err ≠ .corruptStream := fun v =>
    not_corrupt_of_safe hrun (firstLit_safe allowsCapacity_notCorrupt hv scheduleOk_booted.low v)
      (firstLiteral_leavesEncoderSide v)
  cases hm with
  | firstLit8 v => simp [literal _ h, CorruptsAt]
  | firstLit16 v => simp [literal _ h, CorruptsAt]
  | firstEos =>
    cases h
    simp [State.finish, hrun.err, CorruptsAt]
  | firstIdx k hk => exact absurd rfl (hi k)
  | illegalFirst =>
    have hraise : firstIllegal s = .error (.job (.corruptFirst q)) s := by simp [firstIllegal, hv.bpos, bootView]
    cases (perform_of_job hraise).symm.trans h
    exact iff_of_true rfl corruptsAt_illegalFirst

/-- A later token leaves CORRUPT_STREAM only if it is an index above the count (R241). -/
theorem loopRule_corrupt_iff {v : DecView} {word : List CodeUnit} (hr : DecoderRule .decLoop i m)
    (hrun : s.Running .decode) (hv : s.HoldsDec v) (hw : s.word = some word) (hm : DecMatching v word)
    (h : perform m s = .next t) : t.err = .corruptStream ↔ CorruptsAt v.count i := by
  have literal : ∀ c, perform (loopLiteral c) s = .next t → t.err ≠ .corruptStream := fun c =>
    not_corrupt_of_safe hrun (loopLit_safe allowsCapacity_notCorrupt hv hm.schedule.low hw hm.count)
      (loopLiteral_leavesEncoderSide c)
  cases hr with
  | loopLit8 c => simp [literal _ h, CorruptsAt]
  | loopLit16 c => simp [literal _ h, CorruptsAt]
  | loopEos =>
    cases (perform_of_ok (loopEos_run hv.out)).symm.trans h
    simp [State.finish, hrun.err, CorruptsAt]
  | loopIdx k hk =>
    rw [corruptsAt_idx]
    rcases resolve_cases (n := k) hv hw hm with ⟨c, rest, hresolve, -⟩ | ⟨hlt, hresolve⟩
    · have hle : ¬ v.count < k := fun hlt => by cases hresolve.symm.trans (resolve_beyond hv.count hlt)
      have hsafe := loopIdx_safe allowsCapacity_notCorrupt hv hm.schedule.low hw hresolve
      exact iff_of_false (not_corrupt_of_safe hrun hsafe (loopIdx_leavesEncoderSide k) h) hle
    · have hraise : loopIdx k s = .error (.job (.corruptTarget k v.count)) s := by
        simp only [loopIdx, bind_run, hresolve]
      cases (perform_of_job hraise).symm.trans h
      exact iff_of_true rfl hlt

/-- What the tokens' rules say of CORRUPT_STREAM, the step says of the token at the cursor: a failed read raises
another error (R245). -/
theorem tokenStep_corrupt_iff {v : DecView} (hp : s.phase = .decFirst ∨ s.phase = .decLoop) (hv : s.HoldsDec v)
    (hrule : ∀ i m q, decodeToken (s.phase == .decFirst) v.indexBits v.IN v.bpos = .token i q →
      DecoderRule s.phase i m → perform m (s.setBpos q) = .next t →
      (t.err = .corruptStream ↔ CorruptsAt v.count i))
    (h : tokenStep s = .next t) :
    t.err = .corruptStream ↔
      ∃ i q, decodeToken (s.phase == .decFirst) v.indexBits v.IN v.bpos = .token i q ∧ CorruptsAt v.count i := by
  cases hd : decodeToken (s.phase == .decFirst) v.indexBits v.IN v.bpos with
  | token i q =>
    rw [tokenStep_token hv.indexBits hv.IN hv.bpos hd] at h
    obtain ⟨m, hm, hperform⟩ := decoderRule_of_exec (s := s.setBpos q) hp (decodeToken_le hd).2 h
    simpa using hrule i m q hd hm hperform
  | stop e q =>
    rw [tokenStep_stop hv.indexBits hv.IN hv.bpos hd] at h
    cases h
    exact iff_of_false (readErrorJob_notCorrupt e) (by simp)

/-- A running DECODE job's step, from a state of the invariant, on the values its registers hold. -/
theorem decoderStep_corrupt_iff (hinv : s.Inv) (hp : s.phase = .decFirst ∨ s.phase = .decLoop)
    (h : tokenStep s = .next t) : ∃ v, s.HoldsDec v ∧ (t.err = .corruptStream ↔
      ∃ i q, decodeToken (s.phase == .decFirst) v.indexBits v.IN v.bpos = .token i q ∧ CorruptsAt v.count i) := by
  unfold State.Inv at hinv
  rcases hp with hp | hp <;> simp only [hp] at hinv
  · obtain ⟨hrun, -, inp, hv⟩ := hinv
    refine ⟨_, hv, tokenStep_corrupt_iff (.inl hp) hv (fun i m q hd hm => ?_) h⟩
    have hi : ∀ k, i ≠ .idx k := by
      rintro k rfl
      exact ne_idx_of_decodeToken_first (by simpa [hp] using hd)
    exact firstRule_corrupt_iff (hp ▸ hm) hi { hrun with } (holdsDec_setBpos hv q)
  · obtain ⟨hrun, v, word, hv, hw, hm⟩ := hinv
    refine ⟨v, hv, tokenStep_corrupt_iff (.inr hp) hv (fun i m q hd hr hperform => ?_) h⟩
    have hq : q ≤ 8 * v.IN.length := (decodeToken_within hd).elim (fun h => h ▸ hm.cursor) id
    exact loopRule_corrupt_iff (s := s.setBpos q) (v := { v with bpos := q }) (hp ▸ hr) { hrun with }
      (holdsDec_setBpos hv q) hw { hm with cursor := hq } hperform

/-- Settles O49: the step runs the token at the cursor, and only those two tokens raise CORRUPT_STREAM. -/
theorem corruptStreamInTwoCasesOnly : Obligations.CorruptStreamInTwoCasesOnly := by
  intro s t w p n inp hinv hp hh hw hI hb hn h
  rw [step_decoder hh hp] at h
  obtain ⟨v, hv, hiff⟩ := decoderStep_corrupt_iff hinv hp h
  obtain rfl : v.indexBits = w := Option.some.inj (hv.indexBits.symm.trans hw)
  obtain rfl : v.IN = inp := Option.some.inj (hv.IN.symm.trans hI)
  obtain rfl : v.bpos = p := Option.some.inj (hv.bpos.symm.trans hb)
  obtain rfl : v.count = n := Option.some.inj (hv.count.symm.trans hn)
  exact hiff

/-- Settles O42: a core in one of the three phases is not BUSY. -/
theorem endedCoreWaits : Obligations.EndedCoreWaits := by
  intro s hp hh
  have hb : s.busy = false := by rcases hp with hp | hp | hp <;> simp [State.busy, hp, Phase.busy]
  exact step_of_not_busy hb hh

end Sys2Proof.Machine

/-! ### Power-on reset

The core is idle, at direction 0, without an error or a result; its other registers hold no value (R300). -/

namespace Sys2Proof.Machine

variable {s : State}

theorem inv_idle (hp : s.phase = .idle) (hrun : s.Running .encode) : s.Inv := by
  simp only [State.Inv, hp]
  exact hrun

theorem reset_running : State.reset.Running .encode where
  dir := rfl
  err := rfl
  result := rfl

theorem reset_status : State.reset.status = 0x00#8 := by
  rw [status_of_running reset_running]
  rfl

/-- No register with a bound holds a value, so the bounds in force play no part. -/
theorem reset_withinBounds : State.reset.WithinBounds where
  indexBits := withinBound_none _ _
  enlargeIn := withinBound_none _ _
  count := withinBound_none _ _
  encDict := nofun
  decDict := nofun
  word := withinBound_none _ _
  U := withinBound_none _ _
  ipos := withinBound_none _ _
  IN := withinBound_none _ _
  bpos := withinBound_none _ _
  obits := withinBound_none _ _
  out := withinBound_none _ _
  RESULT := nofun

/-- Settles O18: the status registers are those of a core without a job, and the rest is the reset's own text. -/
theorem resetHoldsNoValues : Obligations.ResetHoldsNoValues :=
  ⟨rfl, reset_running.dir, reset_running.err, reset_status, reset_running.result, rfl, rfl, rfl, rfl, rfl, rfl, rfl, rfl,
    rfl, rfl, rfl, rfl, rfl⟩

/-- Settles O50: an idle core needs its status registers alone, and no register holds a value to bound. -/
theorem invariantAtReset : Obligations.InvariantAtReset :=
  ⟨inv_idle rfl reset_running, reset_withinBounds, rfl⟩

end Sys2Proof.Machine
